-- ==== Sys2Proof/Word.lean ====
section
/-! DEFINITION. The word types of the BNU (R7, R8, R12, R13, R27, R36) and their plainest arithmetic. -/

namespace Sys2Proof

/-- A command word, 32 bits (R65). -/
abbrev Word := BitVec 32

/-- `ARG`, `RESULT` and the limb of a node, 64 bits (R27, R38, R39). -/
abbrev DWord := BitVec 64

/-- One byte of the output buffer (R45), and the 8-bit registers `CAUSE` and `ESTICKY` (R40, R41). -/
abbrev Byte := BitVec 8

/-- One digit cell, 4 bits (R21). -/
abbrev Digit := BitVec 4

/-- A node pointer, 16 bits (R27). -/
abbrev Ptr := BitVec 16

/-- `NIL`, the null pointer (R13, R27). -/
def nilPtr : Ptr := 0xFFFF

/-- `LIMB_BASE` = 10^18, the limb radix (R8). -/
def limbBase : Nat := 1000000000000000000

end Sys2Proof
end

