-- ==== Sys2Proof/Config.lean ====
section
/-! DEFINITION. The parameters a model of the BNU takes (R7): `DCAP` and `NNODE`, which the spec leaves open
(93_implementation_defined.md U13), and what follows from them. `NDREG` = 16, `NLIST` = 2, `AW` = 64 and
`LIMB_BASE` are fixed by R7 and stand in the types. The spec leaves no value of an instruction's result open, so
there is no free value here. -/

namespace Sys2Proof

/-- The two open parameters of R7. They stand in the state as a field that nothing writes, so that a statement about
every state is a statement about every choice of them (log entry 1). -/
structure Params where
  /-- `DCAP`: capacity of one digit register, in digits. -/
  dcap : Nat
  /-- `NNODE`: number of nodes in the limb node pool. -/
  nnode : Nat
deriving DecidableEq, Repr

namespace Params

/-- The defaults of R7, which the test vectors of the spec use. -/
def default : Params := ⟨512, 64⟩

/-- The constraints of R7: 4 <= DCAP <= 2^31 - 1 and 2 <= NNODE <= 65535. -/
abbrev Legal (p : Params) : Prop :=
  4 ≤ p.dcap ∧ p.dcap ≤ 2147483647 ∧ 2 ≤ p.nnode ∧ p.nnode ≤ 65535

/-- `OCAP` = max(ceil(DCAP/2), 18*NNODE): capacity of the output buffer in bytes (R7, R45). -/
def ocap (p : Params) : Nat := max ((p.dcap + 1) / 2) (18 * p.nnode)

end Params

end Sys2Proof
end

