-- ==== Sys2Proof/Syntax.lean ====
section
/-! DEFINITION. The 21 commands of the BNU (R3, R72) as syntax: one constructor per row of the opcode table. -/

namespace Sys2Proof

/-- A digit register's number: `D0` .. `D15` (R20, R70). -/
abbrev DReg := Fin 16

/-- A limb list's name: the two lists `L0` and `L1` (R28, R70). -/
inductive ListId where
  | l0
  | l1
deriving DecidableEq, Repr

/-- A command (R68, R72, R77). Register and list operands are names, not encoded fields; `imm` is the decimal digit
of `DSET` and `DPUSH` as a number, which `WellFormed` holds to the four bits the encoding has for it (R66, R69). -/
inductive Instr where
  /-- `NOP` (R158) -/
  | nop
  /-- `CLRERR` (R159) -/
  | clrerr
  /-- `DSET Dd, imm` (R89) -/
  | dset (rd : DReg) (imm : Nat)
  /-- `DPUSH Dd, imm` (R91) -/
  | dpush (rd : DReg) (imm : Nat)
  /-- `DFREE Dd` (R93) -/
  | dfree (rd : DReg)
  /-- `DMOV Dd, Da` (R94) -/
  | dmov (rd ra : DReg)
  /-- `DLEN Da` (R96) -/
  | dlen (ra : DReg)
  /-- `DRD Da` (R97) -/
  | drd (ra : DReg)
  /-- `DADD Dd, Da, Db` (R100) -/
  | dadd (rd ra rb : DReg)
  /-- `DSUB Dd, Da, Db` (R102) -/
  | dsub (rd ra rb : DReg)
  /-- `DMUL Dd, Da, Db` (R105) -/
  | dmul (rd ra rb : DReg)
  /-- `FIBD Dd` (R110) -/
  | fibd (rd : DReg)
  /-- `DENC Da` (R152) -/
  | denc (ra : DReg)
  /-- `ORD` (R156) -/
  | ord
  /-- `LCLR Lt` (R129) -/
  | lclr (lt : ListId)
  /-- `LAPP Lt` (R130) -/
  | lapp (lt : ListId)
  /-- `LACC Lt, Ls` (R132) -/
  | lacc (lt ls : ListId)
  /-- `LCNT Ls` (R135) -/
  | lcnt (ls : ListId)
  /-- `LRD Ls` (R136) -/
  | lrd (ls : ListId)
  /-- `LFIB` (R137) -/
  | lfib
  /-- `LSTR Ls` (R145) -/
  | lstr (ls : ListId)
deriving DecidableEq, Repr

end Sys2Proof
end

