-- ==== Sys2Proof/WellFormed.lean ====
section
/-! DEFINITION. Which terms of `Instr` are commands: those an encoding exists for (R66, R67). Register numbers and
list names are held to their ranges by their types (`Fin 16`, `ListId`); what is left to check is the immediate. -/

namespace Sys2Proof

/-- The immediate has four bits (R66: `imm` = w[3:0]). Values 10 to 15 are encodable (R69, R76): they are well
formed, and the command raises IllegalOperand. -/
def immOk (imm : Nat) : Bool := imm < 16

/-- The one check of a command as syntax, on the two commands of format DI (R68). -/
def Instr.wellFormed : Instr → Bool
  | .nop => true
  | .clrerr => true
  | .dset _ imm => immOk imm
  | .dpush _ imm => immOk imm
  | .dfree _ => true
  | .dmov _ _ => true
  | .dlen _ => true
  | .drd _ => true
  | .dadd _ _ _ => true
  | .dsub _ _ _ => true
  | .dmul _ _ _ => true
  | .fibd _ => true
  | .denc _ => true
  | .ord => true
  | .lclr _ => true
  | .lapp _ => true
  | .lacc _ _ => true
  | .lcnt _ => true
  | .lrd _ => true
  | .lfib => true
  | .lstr _ => true

end Sys2Proof
end

