-- ==== Sys2Proof/Decode.lean ====
section
/-! DEFINITION. The encoding of commands (30_encoding.md R65 to R76): the opcode table, the decoder, which is total on
all 2^32 words and rejects by name, and the encoder. -/

namespace Sys2Proof

/-- The rows of the opcode table (R72), by name. -/
inductive Op where
  | nop | clrerr | dset | dpush | dfree | dmov | dlen | drd | dadd | dsub | dmul
  | fibd | denc | ord | lclr | lapp | lacc | lcnt | lrd | lfib | lstr
deriving DecidableEq, Repr

/-- The nine formats of R68. -/
inductive Format where
  | z | d | a | di | da | dab | t | s | ts
deriving DecidableEq, Repr

/-- Why a word is illegal: the three groups R75 names. The BNU raises the same IllegalCommand for each (R166). -/
inductive Illegal where
  /-- R75 (a): no row has this `op`. -/
  | unknownOp
  /-- R75 (b): a listed `op` with a non-zero unused field or non-zero `z`. -/
  | reservedBits
  /-- R75 (c): a list number above 1. -/
  | listNumber
deriving DecidableEq, Repr

namespace Op

/-- Every row of R72, in the table's order. -/
def all : List Op :=
  [.nop, .clrerr, .dset, .dpush, .dfree, .dmov, .dlen, .drd, .dadd, .dsub, .dmul,
   .fibd, .denc, .ord, .lclr, .lapp, .lacc, .lcnt, .lrd, .lfib, .lstr]

/-- The `format` column of R72. -/
def format : Op → Format
  | .nop => .z
  | .clrerr => .z
  | .dset => .di
  | .dpush => .di
  | .dfree => .d
  | .dmov => .da
  | .dlen => .a
  | .drd => .a
  | .dadd => .dab
  | .dsub => .dab
  | .dmul => .dab
  | .fibd => .d
  | .denc => .a
  | .ord => .z
  | .lclr => .t
  | .lapp => .t
  | .lacc => .ts
  | .lcnt => .s
  | .lrd => .s
  | .lfib => .z
  | .lstr => .s

/-- The `op` column of R72. -/
def code : Op → BitVec 8
  | .nop => 0x00
  | .clrerr => 0x01
  | .dset => 0x10
  | .dpush => 0x11
  | .dfree => 0x12
  | .dmov => 0x13
  | .dlen => 0x14
  | .drd => 0x15
  | .dadd => 0x18
  | .dsub => 0x19
  | .dmul => 0x1A
  | .fibd => 0x20
  | .denc => 0x28
  | .ord => 0x29
  | .lclr => 0x30
  | .lapp => 0x31
  | .lacc => 0x32
  | .lcnt => 0x33
  | .lrd => 0x34
  | .lfib => 0x35
  | .lstr => 0x36

/-- The `match` column of R72. -/
def pattern : Op → Word
  | .nop => 0x00000000
  | .clrerr => 0x01000000
  | .dset => 0x10000000
  | .dpush => 0x11000000
  | .dfree => 0x12000000
  | .dmov => 0x13000000
  | .dlen => 0x14000000
  | .drd => 0x15000000
  | .dadd => 0x18000000
  | .dsub => 0x19000000
  | .dmul => 0x1A000000
  | .fibd => 0x20000000
  | .denc => 0x28000000
  | .ord => 0x29000000
  | .lclr => 0x30000000
  | .lapp => 0x31000000
  | .lacc => 0x32000000
  | .lcnt => 0x33000000
  | .lrd => 0x34000000
  | .lfib => 0x35000000
  | .lstr => 0x36000000

/-- The `mask` column of R72. -/
def mask : Op → Word
  | .nop => 0xFFFFFFFF
  | .clrerr => 0xFFFFFFFF
  | .dset => 0xFF0FFFF0
  | .dpush => 0xFF0FFFF0
  | .dfree => 0xFF0FFFFF
  | .dmov => 0xFF00FFFF
  | .dlen => 0xFFF0FFFF
  | .drd => 0xFFF0FFFF
  | .dadd => 0xFF000FFF
  | .dsub => 0xFF000FFF
  | .dmul => 0xFF000FFF
  | .fibd => 0xFF0FFFFF
  | .denc => 0xFFF0FFFF
  | .ord => 0xFFFFFFFF
  | .lclr => 0xFFEFFFFF
  | .lapp => 0xFFEFFFFF
  | .lacc => 0xFFEEFFFF
  | .lcnt => 0xFFFEFFFF
  | .lrd => 0xFFFEFFFF
  | .lfib => 0xFFFFFFFF
  | .lstr => 0xFFFEFFFF

/-- A word is the command exactly when `w & mask == match` (R72). -/
def hits (o : Op) (w : Word) : Bool := w &&& o.mask == o.pattern

end Op

/-- Which fields a format uses (R68), as the bits of the word left free by it: `rd`, `ra`, `rb` whole (4 bits), `imm`
whole, and of a list number only its low bit (R67, R73). -/
def Format.freeBits : Format → Word
  | .z => 0
  | .d => 0x00F00000
  | .a => 0x000F0000
  | .di => 0x00F0000F
  | .da => 0x00FF0000
  | .dab => 0x00FFF000
  | .t => 0x00100000
  | .s => 0x00010000
  | .ts => 0x00110000

/-- The upper three bits of the list number fields a format uses (R73): non-zero there means a list number above 1. -/
def Format.listNumberHigh : Format → Word
  | .t => 0x00E00000
  | .s => 0x000E0000
  | .ts => 0x00EE0000
  | .z => 0
  | .d => 0
  | .a => 0
  | .di => 0
  | .da => 0
  | .dab => 0

/-- `op` = w[31:24] (R66). -/
def opField (w : Word) : BitVec 8 := w.extractLsb' 24 8

/-- `rd` = w[23:20] as a digit register (R66, R70). -/
def rdField (w : Word) : DReg := (w.extractLsb' 20 4).toFin

/-- `ra` = w[19:16] as a digit register (R66, R70). -/
def raField (w : Word) : DReg := (w.extractLsb' 16 4).toFin

/-- `rb` = w[15:12] as a digit register (R66, R70). -/
def rbField (w : Word) : DReg := (w.extractLsb' 12 4).toFin

/-- `imm` = w[3:0], zero-extended, unscaled (R66, R69). -/
def immField (w : Word) : Nat := (w.extractLsb' 0 4).toNat

/-- The list a number field names: 0 names `L0`, 1 names `L1` (R70). The table's mask has already refused any other
number, so the low bit decides. -/
def listOfBit (b : Bool) : ListId := if b then .l1 else .l0

/-- `lt` in w[23:20] (R68, R70). -/
def ltField (w : Word) : ListId := listOfBit (w.getLsbD 20)

/-- `ls` in w[19:16] (R68, R70). -/
def lsField (w : Word) : ListId := listOfBit (w.getLsbD 16)

/-- The command of a row with the used fields taken from the word (R74). -/
def Op.build (o : Op) (w : Word) : Instr :=
  match o with
  | .nop => .nop
  | .clrerr => .clrerr
  | .dset => .dset (rdField w) (immField w)
  | .dpush => .dpush (rdField w) (immField w)
  | .dfree => .dfree (rdField w)
  | .dmov => .dmov (rdField w) (raField w)
  | .dlen => .dlen (raField w)
  | .drd => .drd (raField w)
  | .dadd => .dadd (rdField w) (raField w) (rbField w)
  | .dsub => .dsub (rdField w) (raField w) (rbField w)
  | .dmul => .dmul (rdField w) (raField w) (rbField w)
  | .fibd => .fibd (rdField w)
  | .denc => .denc (raField w)
  | .ord => .ord
  | .lclr => .lclr (ltField w)
  | .lapp => .lapp (ltField w)
  | .lacc => .lacc (ltField w) (lsField w)
  | .lcnt => .lcnt (lsField w)
  | .lrd => .lrd (lsField w)
  | .lfib => .lfib
  | .lstr => .lstr (lsField w)

/-- Why a word that hits no row is illegal (R75). The spec gives the groups no order. A list number above 1 is named
first (log entry 13). -/
def illegalReason (w : Word) : Illegal :=
  match Op.all.find? (fun o => o.code == opField w) with
  | none => .unknownOp
  | some o => if w &&& o.format.listNumberHigh == 0 then .reservedBits else .listNumber

/-- The decode procedure of R74: the row the word hits, or the reason it is illegal. -/
def decode (w : Word) : Except Illegal Instr :=
  match Op.all.find? (fun o => o.hits w) with
  | some o => .ok (o.build w)
  | none => .error (illegalReason w)

/-! The encoder, from the same tables (R66, R68, R72). -/

/-- The row of a command (R72). -/
def Instr.op : Instr → Op
  | .nop => .nop
  | .clrerr => .clrerr
  | .dset _ _ => .dset
  | .dpush _ _ => .dpush
  | .dfree _ => .dfree
  | .dmov _ _ => .dmov
  | .dlen _ => .dlen
  | .drd _ => .drd
  | .dadd _ _ _ => .dadd
  | .dsub _ _ _ => .dsub
  | .dmul _ _ _ => .dmul
  | .fibd _ => .fibd
  | .denc _ => .denc
  | .ord => .ord
  | .lclr _ => .lclr
  | .lapp _ => .lapp
  | .lacc _ _ => .lacc
  | .lcnt _ => .lcnt
  | .lrd _ => .lrd
  | .lfib => .lfib
  | .lstr _ => .lstr

/-- A digit register's field (R70). -/
def regBits (r : DReg) : BitVec 4 := BitVec.ofFin r

/-- A list's number as a field (R70). -/
def listBits : ListId → BitVec 4
  | .l0 => 0
  | .l1 => 1

/-- The word of a row with its fields laid out as R66 has them. -/
def layout (o : Op) (rd ra rb imm : BitVec 4) : Word :=
  o.code ++ rd ++ ra ++ rb ++ (0 : BitVec 8) ++ imm

/-- The word of a command: the fields its format uses, 0 in every other (R66 to R68). -/
def encode (i : Instr) : Word :=
  match i with
  | .nop => layout .nop 0 0 0 0
  | .clrerr => layout .clrerr 0 0 0 0
  | .dset rd imm => layout .dset (regBits rd) 0 0 (BitVec.ofNat 4 imm)
  | .dpush rd imm => layout .dpush (regBits rd) 0 0 (BitVec.ofNat 4 imm)
  | .dfree rd => layout .dfree (regBits rd) 0 0 0
  | .dmov rd ra => layout .dmov (regBits rd) (regBits ra) 0 0
  | .dlen ra => layout .dlen 0 (regBits ra) 0 0
  | .drd ra => layout .drd 0 (regBits ra) 0 0
  | .dadd rd ra rb => layout .dadd (regBits rd) (regBits ra) (regBits rb) 0
  | .dsub rd ra rb => layout .dsub (regBits rd) (regBits ra) (regBits rb) 0
  | .dmul rd ra rb => layout .dmul (regBits rd) (regBits ra) (regBits rb) 0
  | .fibd rd => layout .fibd (regBits rd) 0 0 0
  | .denc ra => layout .denc 0 (regBits ra) 0 0
  | .ord => layout .ord 0 0 0 0
  | .lclr lt => layout .lclr (listBits lt) 0 0 0
  | .lapp lt => layout .lapp (listBits lt) 0 0 0
  | .lacc lt ls => layout .lacc (listBits lt) (listBits ls) 0 0
  | .lcnt ls => layout .lcnt 0 (listBits ls) 0 0
  | .lrd ls => layout .lrd 0 (listBits ls) 0 0
  | .lfib => layout .lfib 0 0 0 0
  | .lstr ls => layout .lstr 0 (listBits ls) 0 0

/-- The command read from a word whose bits are the low `nbits` bits of `w`, every bit above them 0. A command is one
32-bit word (R65), and no storage of the BNU holds it, so there is no byte order to lay it out in. -/
def decodeTableWord (nbits w : Nat) : Option Instr :=
  match decode (BitVec.ofNat 32 (w % 2 ^ nbits)) with
  | .ok i => some i
  | .error _ => none

end Sys2Proof
end

