-- ==== Sys2Proof/Machine/State.lean ====
section
/-! DEFINITION. The state of the BNU (10_state.md), the outcomes a command can end with (60_exceptions.md R166), what the
host can do to the unit (R36, R37, R185), and the state after reset (R186). -/

namespace Sys2Proof.Machine

open Sys2Proof

/-- The six faults of R166. A fault of the BNU is an outcome the machine goes on after (R165, R172): a NEXT state with
`CAUSE` and `ESTICKY` written, not a stop of the model. -/
inductive FaultCode where
  | allocationFailure
  | invalidIndex
  | illegalCommand
  | emptyOperand
  | illegalOperand
  | indexRange
deriving DecidableEq, Repr

/-- Why the MODEL stops. No run from a state that satisfies the invariant of Safety.lean reaches either (log entries
6 and 7): the spec's commands all end with an outcome (R165, R173). -/
inductive Fault where
  /-- Raised by `LCLR`, `LAPP`, `LACC`, `LRD`, `LFIB` and `LSTR` when a walk meets a pointer that is no node of the
  pool, or does not end within `NNODE` nodes: R29 does not hold of the state, and the spec gives such a state no
  behaviour. Safe: the model stops. -/
  | brokenList
  /-- Raised by `ORD` when the byte it reads lies below `OLEN` and no `DENC` or `LSTR` has written it: R45 does not
  hold of the state. Safe: the model stops. -/
  | unheldByte
deriving DecidableEq, Repr

/-- Why the model gives an instruction no meaning. -/
inductive Refusal where
  /-- Raised by an arm of `exec` whose instruction has no meaning yet; no arm is left so. Safe. -/
  | notModelled (mnemonic : String)
deriving DecidableEq, Repr

/-- Why a command stops before its writes: with an outcome of R166, or with a fault of the model. -/
inductive Stop where
  | outcome (c : FaultCode)
  | broken (f : Fault)
deriving DecidableEq, Repr

/-- The read-only registers among the seven control registers (R36). -/
inductive StatusReg where
  | result
  | cause
  | esticky
  | olen
  | ocnt
deriving DecidableEq, Repr

/-- The seven control registers (R36). -/
inductive CtrlReg where
  | cmd
  | arg
  | status (r : StatusReg)
deriving DecidableEq, Repr

/-- One thing the outside world does to the BNU (R36, R37, R185): the host writes or reads a control register, or the
reset input is applied. A write carries as many bits as its register has. -/
inductive HostAction where
  /-- The host writes `CMD`: the command is executed before the write returns (R37). -/
  | writeCmd (w : Word)
  /-- The host writes `ARG` (R38). -/
  | writeArg (v : DWord)
  /-- The host writes a read-only register: no effect on the BNU (R36). -/
  | writeReadOnly (r : StatusReg) (v : DWord)
  /-- The host reads a control register (R36, R60). -/
  | read (r : CtrlReg)
  /-- Reset, applied from outside (R185). -/
  | reset
deriving DecidableEq, Repr

/-- The digits of a digit register, least significant first (R21, R53): exactly `len` of them, the cells beyond `len`
not held (R23). The empty list is EMPTY (R24). -/
abbrev Digits := List Digit

/-- One node of the pool (R27). -/
structure Node where
  val : DWord
  next : Ptr
  prev : Ptr
  used : Bool
deriving DecidableEq, Repr

/-- One list descriptor (R28). -/
structure ListDesc where
  head : Ptr
  tail : Ptr
  cnt : Nat
deriving DecidableEq, Repr

/-- The limb storage: the node pool `NODE[0..NNODE-1]` (R27) and the descriptors of `L0` and `L1` (R28). -/
structure ListStore where
  nodes : List Node
  l0 : ListDesc
  l1 : ListDesc
deriving DecidableEq, Repr

/-- The bytes of the output buffer that hold a value, by address (R45), addresses strictly rising. An address that is
not listed holds no value: the spec calls its byte unspecified (R45, R145, R152, R186). -/
abbrev Memory := List Host.Cell

/-- The whole state: what 10_state.md gives the BNU, then three fields of the model's own. -/
structure State where
  /-- `D0` .. `D15` (R20 to R26). -/
  dregs : Vector Digits 16
  /-- Node pool and list descriptors (R27 to R33). -/
  store : ListStore
  /-- `OBUF` (R45). -/
  obuf : Memory
  /-- `ARG`, control register 1 (R38). -/
  arg : DWord
  /-- `RESULT`, control register 2 (R39). -/
  result : DWord
  /-- `CAUSE`, control register 3 (R40). -/
  cause : Byte
  /-- `ESTICKY`, control register 4 (R41). -/
  esticky : Byte
  /-- `OLEN`, control register 5 (R42). -/
  olen : BitVec 32
  /-- `OCNT`, control register 6 (R43). -/
  ocnt : BitVec 32
  /-- The model's own: `DCAP` and `NNODE` of this unit (R7). Nothing writes it (log entry 1). -/
  params : Params
  /-- The model's own: what the outside world does next, oldest first (R62). One step takes one action (log entry 2). -/
  pending : List HostAction
  /-- The model's own: what the host's latest read of a control register returned; none before the first (log
  entry 3). -/
  busRead : Option DWord
deriving DecidableEq, Repr

/-- A node on no list, as reset leaves it: `used` = 0 (R33, R186). The spec leaves the other fields unspecified and
unobservable. This value of them is the model's (log entry 4, DESIGN CHOICE). -/
def Node.free : Node := ⟨0, nilPtr, nilPtr, false⟩

/-- An empty list: `head` = `tail` = `NIL`, `cnt` = 0 (R29, R33). -/
def ListDesc.empty : ListDesc := ⟨nilPtr, nilPtr, 0⟩

/-- Every node free, both lists empty (R33). -/
def ListStore.empty (nnode : Nat) : ListStore :=
  ⟨List.replicate nnode Node.free, ListDesc.empty, ListDesc.empty⟩

/-- The state after reset of a unit with these parameters (R186): every digit register EMPTY, every node free, both
lists empty, the control registers zero, no byte of `OBUF` holding a value. Nothing is pending and nothing was read. -/
def State.resetWith (p : Params) : State where
  dregs := Vector.replicate 16 []
  store := ListStore.empty p.nnode
  obuf := []
  arg := 0
  result := 0
  cause := 0
  esticky := 0
  olen := 0
  ocnt := 0
  params := p
  pending := []
  busRead := none

/-- The machine right after reset (R185, R186), with the default parameters of R7. -/
def State.reset : State := State.resetWith Params.default

end Sys2Proof.Machine
end

