-- ==== Sys2Proof/Machine/Flags.lean ====
section
/-! DEFINITION. The BNU has no flags and no condition codes (R47). What a processor keeps in flags is internal to one
command here: the carry and the borrow of one position, which these four operations compute for every command that
ripples one (R17, R99, R101, R106, R133), exactly, on numbers. -/

namespace Sys2Proof.Machine

open Sys2Proof

/-- One position of the addition of R99: the digit `s mod 10` and the carry `s div 10`, s = ai + bi + carry. -/
def addPosition (ai bi : Digit) (carry : Nat) : Digit × Nat :=
  let s := ai.toNat + bi.toNat + carry
  (BitVec.ofNat 4 (s % 10), s / 10)

/-- One position of the subtraction of R101: t = xi - yi - borrow; t + 10 and a borrow when t is negative, else t and
no borrow. -/
def subPosition (xi yi : Digit) (borrow : Nat) : Digit × Nat :=
  let t : Int := xi.toNat - yi.toNat - borrow
  if t < 0 then (BitVec.ofInt 4 (t + 10), 1) else (BitVec.ofInt 4 t, 0)

/-- One position of the accumulate-and-propagate step of R106: t = buf[k] + v mod 10 + carry; the cell `t mod 10` and
the carry `t div 10`. -/
def injectPosition (cell : Digit) (v carry : Nat) : Digit × Nat :=
  let t := cell.toNat + v % 10 + carry
  (BitVec.ofNat 4 (t % 10), t / 10)

/-- One position of the limb walk of R133: sum - 10^18 and a carry when sum >= 10^18, else sum and no carry. -/
def limbPosition (tv sv : DWord) (carry : Nat) : DWord × Nat :=
  let sum := tv.toNat + sv.toNat + carry
  if limbBase ≤ sum then (BitVec.ofNat 64 (sum - limbBase), 1) else (BitVec.ofNat 64 sum, 0)

end Sys2Proof.Machine
end

