-- ==== Sys2Proof/Machine/Ops.lean ====
section
/-! DEFINITION. The named operations over registers and storage that every command is written with: the digit registers,
the output buffer, the control registers, and the two ways a command ends, completion (R171) and fault entry (R170). -/

namespace Sys2Proof.Machine

open Sys2Proof

/-! The output buffer (R14, R45). -/

namespace Memory

/-- Addresses strictly rising: the one canonical form of a memory. No unlisted address reads as a value, so no entry
can equal what an unlisted address reads as. -/
def wf : Memory → Bool
  | [] => true
  | [_] => true
  | a :: b :: rest => decide (a.1 < b.1) && wf (b :: rest)

/-- `MemRead(OBUF, a, 1)` (R14): the byte at the address, or none where no byte is held. -/
def read : Memory → Nat → Option Byte
  | [], _ => none
  | c :: rest, a => if c.1 = a then some c.2 else read rest a

/-- `MemWrite(OBUF, a, 1, v)` (R14). -/
def write : Memory → Nat → Byte → Memory
  | [], a, v => [(a, v)]
  | c :: rest, a, v =>
    if a < c.1 then (a, v) :: c :: rest
    else if a = c.1 then (a, v) :: rest
    else c :: write rest a v

/-- A run of byte writes at rising addresses, the loops of R145 and R152. -/
def writeBytes : Memory → Nat → List Byte → Memory
  | m, _, [] => m
  | m, a, v :: vs => writeBytes (write m a v) (a + 1) vs

/-- The bytes at and beyond an address become unspecified (R145, R152): they hold no value any more (log entry 5). -/
def keepBelow (m : Memory) (n : Nat) : Memory := m.filter (fun c => c.1 < n)

end Memory

/-! Digit registers (R20, R21). -/

/-- `D[r]` (R12). -/
def State.dreg (s : State) (r : DReg) : Digits := s.dregs[r]

/-- `D[r] <- (n, ds)` with n the length of ds (R12). No register is hardwired (R20). -/
def State.setDreg (s : State) (r : DReg) (ds : Digits) : State := { s with dregs := s.dregs.set r ds }

/-! The other pieces of state a command writes. -/

/-- `RESULT <- v` (R39). -/
def State.setResult (s : State) (v : DWord) : State := { s with result := v }

/-- The node pool and the list descriptors, written as one (R27, R28). -/
def State.setStore (s : State) (st : ListStore) : State := { s with store := st }

/-- The write of an output (R145, R152): the bytes from address 0 on, those beyond them unspecified, `OLEN` the number
of bytes and `OCNT` the count handed out with them (R42, R43). -/
def State.setOutput (s : State) (bytes : List Byte) (count : Nat) : State :=
  { s with
    obuf := (s.obuf.writeBytes 0 bytes).keepBelow bytes.length
    olen := BitVec.ofNat 32 bytes.length
    ocnt := BitVec.ofNat 32 count }

/-- `ESTICKY <- 0` (R159). -/
def State.clearSticky (s : State) : State := { s with esticky := 0 }

/-! How a command ends (R165). -/

/-- The outcome codes of R166. -/
def FaultCode.number : FaultCode → Nat
  | .allocationFailure => 1
  | .invalidIndex => 2
  | .illegalCommand => 3
  | .emptyOperand => 4
  | .illegalOperand => 5
  | .indexRange => 6

/-- Taking a fault, the one shared operation (R170): `CAUSE` <- c, `ESTICKY` <- `ESTICKY` | 2^c, and nothing else. There
is no vector, no saved program counter and no return from it (R165, R172). -/
def State.raise (s : State) (c : FaultCode) : State :=
  { s with
    cause := BitVec.ofNat 8 c.number
    esticky := s.esticky ||| BitVec.ofNat 8 (2 ^ c.number) }

/-- Completion (R171): `CAUSE` <- 0. -/
def State.complete (s : State) : State := { s with cause := 0 }

/-- The end of a command: the writes of its rule and completion, or the fault it stopped with, taken in the state the
command found, so that nothing it had begun is left behind (R170, R171). -/
def State.settle (s : State) (r : Except Stop State) : Host.Outcome State Fault Refusal :=
  match r with
  | .ok s' => .next s'.complete
  | .error (.outcome c) => .next (s.raise c)
  | .error (.broken f) => .fault f

/-- Executing a word that is no command (R75): IllegalCommand. -/
def illegalCommand (s : State) : Host.Outcome State Fault Refusal :=
  s.settle (.error (.outcome .illegalCommand))

/-! The control registers from the host's side (R36). -/

/-- The number of a control register (R36). -/
def CtrlReg.number : CtrlReg → Nat
  | .cmd => 0
  | .arg => 1
  | .status .result => 2
  | .status .cause => 3
  | .status .esticky => 4
  | .status .olen => 5
  | .status .ocnt => 6

/-- What a host read of a control register returns, zero-extended to 64 bits (R36). A read of `CMD` returns 0. -/
def State.readCtrl (s : State) (r : CtrlReg) : DWord :=
  match r with
  | .cmd => 0
  | .arg => s.arg
  | .status .result => s.result
  | .status .cause => s.cause.setWidth 64
  | .status .esticky => s.esticky.setWidth 64
  | .status .olen => s.olen.setWidth 64
  | .status .ocnt => s.ocnt.setWidth 64

/-- The host's read of a control register: it changes nothing of the BNU (R60). The value goes to the host. -/
def State.hostRead (s : State) (r : CtrlReg) : State := { s with busRead := some (s.readCtrl r) }

/-- The host's write of `ARG` (R38). -/
def State.hostWriteArg (s : State) (v : DWord) : State := { s with arg := v }

/-- The host's write of a read-only register has no effect (R36). -/
def State.hostWriteReadOnly (s : State) (_r : StatusReg) (_v : DWord) : State := s

/-- Reset applied from outside (R185): the whole state of 10_state.md as R186 says. The parameters are the unit's, and
what the host does next and what it has read are the host's. -/
def State.hostReset (s : State) : State :=
  { State.resetWith s.params with pending := s.pending, busRead := s.busRead }

end Sys2Proof.Machine
end

