-- ==== Sys2Proof/Machine/Operands.lean ====
section
/-! DEFINITION. Every operand form of the commands (R69, R70), each with the fault its check raises (R76, R86, R125, R151,
R166). -/

namespace Sys2Proof.Machine

open Sys2Proof

/-- A digit register read as an operand (R24): EmptyOperand when it is EMPTY. -/
def operand (s : State) (r : DReg) : Except Stop Digits :=
  match s.dreg r with
  | [] => .error (.outcome .emptyOperand)
  | d :: ds => .ok (d :: ds)

/-- The immediate as a decimal digit (R69, R89, R91): IllegalOperand when it is above 9. -/
def digitImm (imm : Nat) : Except Stop Digit :=
  if 9 < imm then .error (.outcome .illegalOperand) else .ok (BitVec.ofNat 4 imm)

/-- `ARG` as an unsigned element index (R70), below the length of the sequence read: IndexRange when it is not (R59). -/
def elementIndex (s : State) (length : Nat) : Except Stop Nat :=
  if s.arg.toNat < length then .ok s.arg.toNat else .error (.outcome .indexRange)

/-- `ARG` as an unsigned limb value (R70, R130): IllegalOperand when it is 10^18 or more. -/
def limbValue (s : State) : Except Stop DWord :=
  if limbBase ≤ s.arg.toNat then .error (.outcome .illegalOperand) else .ok s.arg

/-- `sext_64(ARG)` as a Fibonacci index (R70, R110, R137): InvalidIndex when it is negative (R176). -/
def fibIndex (s : State) : Except Stop Nat :=
  if s.arg.toInt < 0 then .error (.outcome .invalidIndex) else .ok s.arg.toInt.toNat

/-- The allocation check of R15 and R87: AllocationFailure when n digits exceed `DCAP`. -/
def allocCheck (dcap n : Nat) : Except Stop Unit :=
  if dcap < n then .error (.outcome .allocationFailure) else .ok ()

end Sys2Proof.Machine
end

