-- ==== Sys2Proof/Machine/Decimal.lean ====
section
/-! DEFINITION. The digit-sequence functions of 40_decimal_arith.md and 41_fast_doubling.md: `dadd` (R99), `dsub` (R101),
`inject` (R106), `dmul` (R104), the fast-doubling engine (R113), and the packing of digits into bytes (R152). Sequences
are least significant digit first (R53). -/

namespace Sys2Proof.Machine

open Sys2Proof

/-- `val` of a digit sequence (R12): the sum of `dig[k] * 10^k`. -/
def digitsVal : Digits → Nat
  | [] => 0
  | d :: ds => d.toNat + 10 * digitsVal ds

/-- The positions of R99 from the lowest on: `n` positions left, a missing digit taken as 0, and one more digit 1 when
a final carry remains. -/
def addPositions : Nat → Digits → Digits → Nat → Digits
  | 0, _, _, carry => if carry = 1 then [1] else []
  | n + 1, a, b, carry =>
    let p := addPosition (a.headD 0) (b.headD 0) carry
    p.1 :: addPositions n a.tail b.tail p.2

/-- `dadd(a, b)` (R99). -/
def dadd (dcap : Nat) (a b : Digits) : Except Stop Digits := do
  allocCheck dcap (max a.length b.length + 1)
  pure (addPositions (max a.length b.length) a b 0)

/-- The positions of R101 from the lowest on; the final borrow is discarded. -/
def subPositions : Nat → Digits → Digits → Nat → Digits
  | 0, _, _, _ => []
  | n + 1, x, y, borrow =>
    let p := subPosition (x.headD 0) (y.headD 0) borrow
    p.1 :: subPositions n x.tail y.tail p.2

/-- The operand `dsub` takes as its minuend: the longer one, the first when the lengths are equal (R101). -/
def minuend (a b : Digits) : Digits := if a.length < b.length then b else a

/-- The operand `dsub` subtracts: the other one (R101). -/
def subtrahend (a b : Digits) : Digits := if a.length < b.length then a else b

/-- `dsub(a, b)` (R101): the swap test compares lengths only. -/
def dsub (dcap : Nat) (a b : Digits) : Except Stop Digits := do
  let x := minuend a b
  let y := subtrahend a b
  allocCheck dcap x.length
  pure (subPositions x.length x y 0)

/-- The rippling of R106 from one cell on: until both the injected value and the carry are exhausted. The buffer of R104
never ends before that (R106). -/
def injectHere : Digits → Nat → Nat → Digits
  | [], _, _ => []
  | cell :: cells, v, carry =>
    if v = 0 ∧ carry = 0 then cell :: cells
    else
      let p := injectPosition cell v carry
      p.1 :: injectHere cells (v / 10) p.2

/-- `inject(buf, k, v)` (R106). -/
def inject : Digits → Nat → Nat → Digits
  | buf, 0, v => injectHere buf v 0
  | [], _ + 1, _ => []
  | cell :: cells, k + 1, v => cell :: inject cells k v

/-- The inner loop of R104: the products of one digit of `a`, at position k on. -/
def mulRow : Digits → Nat → Digit → Digits → Digits
  | buf, _, _, [] => buf
  | buf, k, ai, bj :: bs => mulRow (inject buf k (ai.toNat * bj.toNat)) (k + 1) ai bs

/-- The outer loop of R104: the digits of `a`, at position i on. -/
def mulRows : Digits → Nat → Digits → Digits → Digits
  | buf, _, [], _ => buf
  | buf, i, ai :: as, b => mulRows (mulRow buf i ai b) (i + 1) as b

/-- A sequence without its most significant zeros. -/
def trimZeros : Digits → Digits
  | [] => []
  | d :: ds =>
    match trimZeros ds with
    | [] => if d = 0 then [] else [d]
    | e :: es => d :: e :: es

/-- The cells up to the most significant non-zero one, or the one cell 0 when all are 0 (R104: buf[0 .. m]). -/
def normalise (buf : Digits) : Digits :=
  match trimZeros buf with
  | [] => [0]
  | d :: ds => d :: ds

/-- `dmul(a, b)` (R104): la + lb + 1 cells, every digit pair injected, the result normalised. -/
def dmul (dcap : Nat) (a b : Digits) : Except Stop Digits := do
  allocCheck dcap (a.length + b.length + 1)
  pure (normalise (mulRows (List.replicate (a.length + b.length + 1) 0) 0 a b))

/-- One iteration of `fastdouble` (R113), for one bit of the index: from (a, b) to the next pair. The constant 2 times b
is a `dmul` (R116). -/
def fibIteration (dcap : Nat) (bit : Bool) (a b : Digits) : Except Stop (Digits × Digits) := do
  let t1 ← dmul dcap [2] b
  let t2 ← dsub dcap t1 a
  let c ← dmul dcap a t2
  let t3 ← dmul dcap a a
  let t4 ← dmul dcap b b
  let d ← dadd dcap t3 t4
  if bit then
    let e ← dadd dcap c d
    pure (d, e)
  else
    pure (c, d)

/-- The scan of R113 over the bit positions i - 1 down to 0 of the index. -/
def fibScan (dcap n : Nat) : Nat → Digits → Digits → Except Stop Digits
  | 0, a, _ => pure a
  | i + 1, a, b => do
    let p ← fibIteration dcap (n.testBit i) a b
    fibScan dcap n i p.1 p.2

/-- `bitlen(n)` for n >= 1: the number of significant bits (R16). -/
def bitlen (n : Nat) : Nat := Nat.log2 n + 1

/-- `fastdouble(n)` for n >= 1 (R113): from a = F(0), b = F(1), the scan starts at the most significant set bit (R114). -/
def fastDouble (dcap n : Nat) : Except Stop Digits := fibScan dcap n (bitlen n) [0] [1]

/-- The result of `FIBD` (R110): the single-digit value 0 for n = 0, else `fastdouble(n)`. -/
def fibDigits (dcap n : Nat) : Except Stop Digits :=
  if n = 0 then pure [0] else fastDouble dcap n

/-- The bytes of R152: the even-indexed digit in the low nibble, the odd-indexed digit in the high one, and 0 as the pad
nibble of an odd count (R153). -/
def packDigits : Digits → List Byte
  | [] => []
  | [lo] => [(0 : Digit) ++ lo]
  | lo :: hi :: rest => (hi ++ lo) :: packDigits rest

end Sys2Proof.Machine
end

