-- ==== Sys2Proof/Machine/Lists.lean ====
section
/-! DEFINITION. The linked-list operations of 42_limb_list.md on nodes and pointers: node allocation (R126), tail insertion
(R127), clearing (R129), the lock-step walk with in-place accumulation (R133), traversal from the head (R136), the additive
Fibonacci loop (R137), and reverse traversal with rendering (R145). An operation stops with AllocationFailure where it
would allocate with no free node (R128), and `State.settle` then leaves the state as the command found it. -/

namespace Sys2Proof.Machine

open Sys2Proof

/-- The pointer to a node of the pool by its index (R27). -/
def ptrOf (p : Nat) : Ptr := BitVec.ofNat 16 p

/-- `NODE[p]` (R13). A pointer that is no node of the pool breaks R29. -/
def nodeAt (nodes : List Node) (p : Ptr) : Except Stop Node :=
  match nodes[p.toNat]? with
  | some n => .ok n
  | none => .error (.broken .brokenList)

namespace ListStore

/-- `L[l]` (R13). -/
def desc (st : ListStore) : ListId → ListDesc
  | .l0 => st.l0
  | .l1 => st.l1

/-- `L[l] <- d`. -/
def setDesc (st : ListStore) (l : ListId) (d : ListDesc) : ListStore :=
  match l with
  | .l0 => { st with l0 := d }
  | .l1 => { st with l1 := d }

/-- `NODE[p] <- n`. -/
def setNode (st : ListStore) (p : Ptr) (n : Node) : ListStore :=
  { st with nodes := st.nodes.set p.toNat n }

/-- `free` = NNODE - L0.cnt - L1.cnt (R126). -/
def free (st : ListStore) : Nat := st.nodes.length - st.l0.cnt - st.l1.cnt

/-- `alloc_node()` (R126): the lowest index with `used` = 0, its `used` set to 1. -/
def allocNode (st : ListStore) : Except Stop (Ptr × ListStore) :=
  match st.nodes.findIdx? (fun n => !n.used) with
  | none => .error (.outcome .allocationFailure)
  | some p => do
    let n ← nodeAt st.nodes (ptrOf p)
    pure (ptrOf p, st.setNode (ptrOf p) { n with used := true })

/-- The link from the old tail, or from the descriptor when the list was empty (R127). -/
def linkTail (st : ListStore) (l : ListId) (p : Ptr) : Except Stop ListStore :=
  if (st.desc l).tail = nilPtr then
    pure (st.setDesc l { st.desc l with head := p })
  else do
    let t ← nodeAt st.nodes (st.desc l).tail
    pure (st.setNode (st.desc l).tail { t with next := p })

/-- Tail insertion `append(l, v)` (R127): the new node's pointer and the new storage. -/
def append (st : ListStore) (l : ListId) (v : DWord) : Except Stop (Ptr × ListStore) := do
  let (p, st1) ← st.allocNode
  let st2 := st1.setNode p ⟨v, nilPtr, (st1.desc l).tail, true⟩
  let st3 ← st2.linkTail l p
  pure (p, st3.setDesc l { st3.desc l with tail := p, cnt := (st3.desc l).cnt + 1 })

/-- The walk of R129 that releases every node from p on. -/
def releaseFrom : Nat → List Node → Ptr → Except Stop (List Node)
  | 0, nodes, p => if p = nilPtr then pure nodes else .error (.broken .brokenList)
  | fuel + 1, nodes, p =>
    if p = nilPtr then pure nodes
    else do
      let n ← nodeAt nodes p
      releaseFrom fuel (nodes.set p.toNat { n with used := false }) n.next

/-- `LCLR` at node level (R129): every node of the list released, the list empty. -/
def clear (st : ListStore) (l : ListId) : Except Stop ListStore := do
  let nodes ← releaseFrom st.nodes.length st.nodes (st.desc l).head
  pure ({ st with nodes := nodes }.setDesc l ListDesc.empty)

/-- The node the walk adds into: the target's next one, or a zero limb appended when the target is exhausted and the
source is not (R133, R142). -/
def targetNode (st : ListStore) (t : ListId) (pt : Ptr) : Except Stop (Ptr × ListStore) :=
  if pt = nilPtr then st.append t 0 else pure (pt, st)

/-- The source's limb and what follows it: 0 once the source is exhausted (R133). -/
def sourceLimb (st : ListStore) (ps : Ptr) : Except Stop (DWord × Ptr) :=
  if ps = nilPtr then pure (0, nilPtr)
  else do
    let n ← nodeAt st.nodes ps
    pure (n.val, n.next)

/-- The end of the walk: a limb holding 1 for a final carry (R133). -/
def finalCarry (st : ListStore) (t : ListId) (carry : Nat) : Except Stop ListStore :=
  if carry = 1 then do
    let (_, st') ← st.append t 1
    pure st'
  else pure st

/-- The loop of `accumulate(t, s)` (R133) from the pointers pt and ps on. Each turn takes one node of the target, so a
walk of lists that satisfy R29 ends within `NNODE` turns. -/
def accumulateFrom : Nat → ListStore → ListId → Ptr → Ptr → Nat → Except Stop ListStore
  | 0, st, t, pt, ps, carry =>
    if pt = nilPtr ∧ ps = nilPtr then st.finalCarry t carry else .error (.broken .brokenList)
  | fuel + 1, st, t, pt, ps, carry =>
    if pt = nilPtr ∧ ps = nilPtr then st.finalCarry t carry
    else do
      let (pt', st1) ← st.targetNode t pt
      let (sv, ps') ← st1.sourceLimb ps
      let n ← nodeAt st1.nodes pt'
      let r := limbPosition n.val sv carry
      accumulateFrom fuel (st1.setNode pt' { n with val := r.1 }) t n.next ps' r.2

/-- `accumulate(t, s)` for t != s (R133). -/
def accumulate (st : ListStore) (t s : ListId) : Except Stop ListStore :=
  accumulateFrom st.nodes.length st t (st.desc t).head (st.desc s).head 0

/-- The node i places after p along `next` (R136), and its limb. -/
def limbFrom (nodes : List Node) : Nat → Ptr → Except Stop DWord
  | 0, p => do
    let n ← nodeAt nodes p
    pure n.val
  | i + 1, p => do
    let n ← nodeAt nodes p
    limbFrom nodes i n.next

/-- `parity(i)` as a list (R16, R137). -/
def parityList (i : Nat) : ListId := if i % 2 = 0 then .l0 else .l1

/-- The loop of R137 from i on, `turns` turns left: accumulate(parity(i), parity(i - 1)). -/
def fibLoop : Nat → Nat → ListStore → Except Stop ListStore
  | 0, _, st => pure st
  | turns + 1, i, st => do
    let st' ← st.accumulate (parityList i) (parityList (i - 1))
    fibLoop turns (i + 1) st'

/-- `LFIB` on the lists (R137): both cleared, F(0) and F(1) appended, then the loop for i = 2 to k. -/
def fib (st : ListStore) (k : Nat) : Except Stop ListStore := do
  let st1 ← st.clear .l0
  let st2 ← st1.clear .l1
  let (_, st3) ← st2.append .l0 0
  let (_, st4) ← st3.append .l1 1
  fibLoop (k - 1) 2 st4

/-- The reverse traversal of R145: the limbs met from p along `prev`. -/
def limbsBack (nodes : List Node) : Nat → Ptr → Except Stop (List DWord)
  | 0, p => if p = nilPtr then pure [] else .error (.broken .brokenList)
  | fuel + 1, p =>
    if p = nilPtr then pure []
    else do
      let n ← nodeAt nodes p
      let rest ← limbsBack nodes fuel n.prev
      pure (n.val :: rest)

end ListStore

/-- The 18 characters of one limb, most significant digit first, zero-padded (R56, R145, R147): byte 0x30 + digit. -/
def limbChars (v : DWord) : List Byte :=
  [17, 16, 15, 14, 13, 12, 11, 10, 9, 8, 7, 6, 5, 4, 3, 2, 1, 0].map
    (fun j => BitVec.ofNat 8 (0x30 + v.toNat / 10 ^ j % 10))

/-- The numeral of a list (R145): its limbs from the most significant on, each in 18 characters. -/
def ListStore.chars (st : ListStore) (l : ListId) : Except Stop (List Byte) := do
  let limbs ← ListStore.limbsBack st.nodes st.nodes.length (st.desc l).tail
  pure (limbs.flatMap limbChars)

end Sys2Proof.Machine
end

