-- ==== Sys2Proof/Machine/System.lean ====
section
/-! DEFINITION. The system commands (43_encoder_system.md section 2). -/

namespace Sys2Proof.Machine

open Sys2Proof

/-- `NOP` (R158): changes nothing but `CAUSE`. -/
def execNop (s : State) : Host.Outcome State Fault Refusal := s.settle (.ok s)

/-- `CLRERR` (R159): the only command that clears `ESTICKY`. -/
def execClrerr (s : State) : Host.Outcome State Fault Refusal := s.settle (.ok s.clearSticky)

end Sys2Proof.Machine
end

