-- ==== Sys2Proof/Machine/DigitRegs.lean ====
section
/-! DEFINITION. The DecimalBigInt commands (40_decimal_arith.md). Checks stand in the order of R86. Operands are read
before the destination is written (R88). -/

namespace Sys2Proof.Machine

open Sys2Proof

/-- `DSET Dd, imm` (R89). -/
def execDset (rd : DReg) (imm : Nat) (s : State) : Host.Outcome State Fault Refusal :=
  s.settle (do
    let d ← digitImm imm
    pure (s.setDreg rd [d]))

/-- `DPUSH Dd, imm` (R91). -/
def execDpush (rd : DReg) (imm : Nat) (s : State) : Host.Outcome State Fault Refusal :=
  s.settle (do
    let a ← operand s rd
    let d ← digitImm imm
    allocCheck s.params.dcap (a.length + 1)
    pure (s.setDreg rd (a ++ [d])))

/-- `DFREE Dd` (R93). -/
def execDfree (rd : DReg) (s : State) : Host.Outcome State Fault Refusal :=
  s.settle (.ok (s.setDreg rd []))

/-- `DMOV Dd, Da` (R94). -/
def execDmov (rd ra : DReg) (s : State) : Host.Outcome State Fault Refusal :=
  s.settle (do
    let a ← operand s ra
    pure (s.setDreg rd a))

/-- `DLEN Da` (R96): an EMPTY register gives 0, without a fault. -/
def execDlen (ra : DReg) (s : State) : Host.Outcome State Fault Refusal :=
  s.settle (.ok (s.setResult (BitVec.ofNat 64 (s.dreg ra).length)))

/-- `DRD Da` (R97). -/
def execDrd (ra : DReg) (s : State) : Host.Outcome State Fault Refusal :=
  s.settle (do
    let a ← operand s ra
    let k ← elementIndex s a.length
    pure (s.setResult ((a.getD k 0).setWidth 64)))

/-- `DADD Dd, Da, Db` (R100). -/
def execDadd (rd ra rb : DReg) (s : State) : Host.Outcome State Fault Refusal :=
  s.settle (do
    let a ← operand s ra
    let b ← operand s rb
    let r ← dadd s.params.dcap a b
    pure (s.setDreg rd r))

/-- `DSUB Dd, Da, Db` (R102). -/
def execDsub (rd ra rb : DReg) (s : State) : Host.Outcome State Fault Refusal :=
  s.settle (do
    let a ← operand s ra
    let b ← operand s rb
    let r ← dsub s.params.dcap a b
    pure (s.setDreg rd r))

/-- `DMUL Dd, Da, Db` (R105). -/
def execDmul (rd ra rb : DReg) (s : State) : Host.Outcome State Fault Refusal :=
  s.settle (do
    let a ← operand s ra
    let b ← operand s rb
    let r ← dmul s.params.dcap a b
    pure (s.setDreg rd r))

end Sys2Proof.Machine
end

