-- ==== Sys2Proof/Machine/FastDoubling.lean ====
section
/-! DEFINITION. The fast-doubling Fibonacci engine (41_fast_doubling.md). -/

namespace Sys2Proof.Machine

open Sys2Proof

/-- `FIBD Dd` (R110): the index from `ARG`, the working values internal to the command (R111). -/
def execFibd (rd : DReg) (s : State) : Host.Outcome State Fault Refusal :=
  s.settle (do
    let n ← fibIndex s
    let r ← fibDigits s.params.dcap n
    pure (s.setDreg rd r))

end Sys2Proof.Machine
end

