-- ==== Sys2Proof/Machine/Encoder.lean ====
section
/-! DEFINITION. The encoder and the read-out of the output buffer (43_encoder_system.md section 1). Checks stand in the
order of R151. -/

namespace Sys2Proof.Machine

open Sys2Proof

/-- `DENC Da` (R152): every digit is encoded, leading zeros included. -/
def execDenc (ra : DReg) (s : State) : Host.Outcome State Fault Refusal :=
  s.settle (do
    let a ← operand s ra
    pure (s.setOutput (packDigits a) a.length))

/-- The byte `ORD` reads (R156). A byte below `OLEN` that is not held breaks R45. -/
def heldByte (m : Memory) (a : Nat) : Except Stop Byte :=
  match m.read a with
  | some v => .ok v
  | none => .error (.broken .unheldByte)

/-- `ORD` (R156). -/
def execOrd (s : State) : Host.Outcome State Fault Refusal :=
  s.settle (do
    let a ← elementIndex s s.olen.toNat
    let v ← heldByte s.obuf a
    pure (s.setResult (v.setWidth 64)))

end Sys2Proof.Machine
end

