-- ==== Sys2Proof/Machine/LimbLists.lean ====
section
/-! DEFINITION. The LimbBigInt commands (42_limb_list.md). Checks stand in the order of R125. An empty list is a legal
operand (R32). -/

namespace Sys2Proof.Machine

open Sys2Proof

/-- `LCLR Lt` (R129). -/
def execLclr (lt : ListId) (s : State) : Host.Outcome State Fault Refusal :=
  s.settle (do
    let st ← s.store.clear lt
    pure (s.setStore st))

/-- `LAPP Lt` (R130). -/
def execLapp (lt : ListId) (s : State) : Host.Outcome State Fault Refusal :=
  s.settle (do
    let v ← limbValue s
    let (_, st) ← s.store.append lt v
    pure (s.setStore st))

/-- The two lists of `LACC` are not the same one (R132): IllegalOperand. -/
def distinctLists (lt ls : ListId) : Except Stop Unit :=
  if lt = ls then .error (.outcome .illegalOperand) else .ok ()

/-- `LACC Lt, Ls` (R132). The allocation check of the whole command is R128's: the walk would allocate with no free
node. -/
def execLacc (lt ls : ListId) (s : State) : Host.Outcome State Fault Refusal :=
  s.settle (do
    distinctLists lt ls
    let st ← s.store.accumulate lt ls
    pure (s.setStore st))

/-- `LCNT Ls` (R135). -/
def execLcnt (ls : ListId) (s : State) : Host.Outcome State Fault Refusal :=
  s.settle (.ok (s.setResult (BitVec.ofNat 64 (s.store.desc ls).cnt)))

/-- `LRD Ls` (R136): the traversal runs forward from the head. -/
def execLrd (ls : ListId) (s : State) : Host.Outcome State Fault Refusal :=
  s.settle (do
    let i ← elementIndex s (s.store.desc ls).cnt
    let v ← ListStore.limbFrom s.store.nodes i (s.store.desc ls).head
    pure (s.setResult v))

/-- `LFIB` (R137): `RESULT` <- parity(k). -/
def execLfib (s : State) : Host.Outcome State Fault Refusal :=
  s.settle (do
    let k ← fibIndex s
    let st ← s.store.fib k
    pure ((s.setStore st).setResult (BitVec.ofNat 64 (k % 2))))

/-- `LSTR Ls` (R145): `OLEN` and `OCNT` are both the number of characters. -/
def execLstr (ls : ListId) (s : State) : Host.Outcome State Fault Refusal :=
  s.settle (do
    let bytes ← s.store.chars ls
    pure (s.setOutput bytes bytes.length))

end Sys2Proof.Machine
end

