-- ==== Sys2Proof/Machine/Dispatch.lean ====
section
/-! DEFINITION. One arm per command (R72): the meaning of every row of the opcode table. -/

namespace Sys2Proof.Machine

open Sys2Proof

def exec (i : Instr) (s : State) : Host.Outcome State Fault Refusal :=
  match i with
  | .nop => Sys2Proof.Machine.execNop s
  | .clrerr => Sys2Proof.Machine.execClrerr s
  | .dset rd imm => Sys2Proof.Machine.execDset rd imm s
  | .dpush rd imm => Sys2Proof.Machine.execDpush rd imm s
  | .dfree rd => Sys2Proof.Machine.execDfree rd s
  | .dmov rd ra => Sys2Proof.Machine.execDmov rd ra s
  | .dlen ra => Sys2Proof.Machine.execDlen ra s
  | .drd ra => Sys2Proof.Machine.execDrd ra s
  | .dadd rd ra rb => Sys2Proof.Machine.execDadd rd ra rb s
  | .dsub rd ra rb => Sys2Proof.Machine.execDsub rd ra rb s
  | .dmul rd ra rb => Sys2Proof.Machine.execDmul rd ra rb s
  | .fibd rd => Sys2Proof.Machine.execFibd rd s
  | .denc ra => Sys2Proof.Machine.execDenc ra s
  | .ord => Sys2Proof.Machine.execOrd s
  | .lclr lt => Sys2Proof.Machine.execLclr lt s
  | .lapp lt => Sys2Proof.Machine.execLapp lt s
  | .lacc lt ls => Sys2Proof.Machine.execLacc lt ls s
  | .lcnt ls => Sys2Proof.Machine.execLcnt ls s
  | .lrd ls => Sys2Proof.Machine.execLrd ls s
  | .lfib => Sys2Proof.Machine.execLfib s
  | .lstr ls => Sys2Proof.Machine.execLstr ls s

end Sys2Proof.Machine
end

