-- ==== Sys2Proof/Machine/Step.lean ====
section
/-! DEFINITION. One step of the machine: the next thing the outside world does to it (R36, R37, R62, R185). -/

namespace Sys2Proof.Machine

open Sys2Proof

/-- A host write of `CMD` (R37): the command the word encodes is executed, completely (R61, R74), or IllegalCommand is
raised (R75). -/
def issue (w : Word) (s : State) : Host.Outcome State Fault Refusal :=
  match decode w with
  | .ok i => exec i s
  | .error _ => illegalCommand s

/-- One action of the outside world. -/
def perform (a : HostAction) (s : State) : Host.Outcome State Fault Refusal :=
  match a with
  | .writeCmd w => issue w s
  | .writeArg v => .next (s.hostWriteArg v)
  | .writeReadOnly r v => .next (s.hostWriteReadOnly r v)
  | .read r => .next (s.hostRead r)
  | .reset => .next s.hostReset

/-- One step: the oldest pending action is taken off the queue and performed. With none pending the BNU is idle and
keeps all state (R183, R196). -/
def step (s : State) : Host.Outcome State Fault Refusal :=
  match s.pending with
  | [] => .next s
  | a :: rest => perform a { s with pending := rest }

/-- The state in which the host's next action is the write of this word to `CMD` (log entry 2): the low `nbits` bits of
`w`, every bit above them 0. -/
def State.withFetchWord (s : State) (nbits w : Nat) : State :=
  { s with pending := .writeCmd (BitVec.ofNat 32 (w % 2 ^ nbits)) :: s.pending }

end Sys2Proof.Machine
end

