-- ==== Sys2Proof/Machine/Sequences.lean ====
section
/-! DEFINITION. The abstract values of the spec: `seq(l)` and `lval(l)` of a limb list (R13, R30), the sequence-level reading
of `accumulate` (R134), the number of nodes `LFIB` needs (R139), and the decoding contract of the encoder (R154). No meaning
uses them: they are what statements say the node-level commands do. -/

namespace Sys2Proof.Machine

open Sys2Proof

/-- The limbs met walking from p along `next` until `NIL`, at most `fuel` of them. -/
def limbsFrom (nodes : List Node) : Nat → Ptr → List DWord
  | 0, _ => []
  | fuel + 1, p =>
    if p = nilPtr then []
    else
      match nodes[p.toNat]? with
      | none => []
      | some n => n.val :: limbsFrom nodes fuel n.next

/-- `seq(l)` (R13): the limbs of a list, least significant first. -/
def ListStore.seq (st : ListStore) (l : ListId) : List DWord :=
  limbsFrom st.nodes st.nodes.length (st.desc l).head

/-- The number a limb sequence denotes, as `lval` (R13). -/
def limbsVal : List DWord → Nat
  | [] => 0
  | v :: vs => v.toNat + limbBase * limbsVal vs

/-- `lval(l)` (R13). -/
def ListStore.lval (st : ListStore) (l : ListId) : Nat := limbsVal (st.seq l)

/-- The first n limbs of the sum of two sequences and the carry out of them (R134): a missing limb is 0. -/
def sumLimbs : Nat → List DWord → List DWord → Nat → List DWord × Nat
  | 0, _, _, carry => ([], carry)
  | n + 1, ts, ss, carry =>
    let r := limbPosition (ts.headD 0) (ss.headD 0) carry
    let q := sumLimbs n ts.tail ss.tail r.2
    (r.1 :: q.1, q.2)

/-- carry_n of R134 for n = max(ct, cs). -/
def sumCarry (ts ss : List DWord) : Nat := (sumLimbs (max ts.length ss.length) ts ss 0).2

/-- `seq(lt)` after `LACC` (R134): n limbs, and one more limb 1 when carry_n = 1. -/
def seqSum (ts ss : List DWord) : List DWord :=
  (sumLimbs (max ts.length ss.length) ts ss 0).1 ++ (if sumCarry ts ss = 1 then [1] else [])

/-- `need(lt, ls)` = max(0, cs - ct) + carry_n (R134): the nodes the walk allocates. -/
def nodesNeeded (ts ss : List DWord) : Nat := (ss.length - ts.length) + sumCarry ts ss

/-- The number of base-10^18 digits of x, 1 for x = 0 (R139), at most `fuel + 1` of them. -/
def limbCountWithin : Nat → Nat → Nat
  | 0, _ => 1
  | fuel + 1, x => if x < limbBase then 1 else 1 + limbCountWithin fuel (x / limbBase)

/-- limbs(x) of R139. -/
def limbCount (x : Nat) : Nat := limbCountWithin x x

/-- `nodes_for_fib(k)` (R139). -/
def nodesForFib (k : Nat) : Nat :=
  if k ≤ 1 then 2 else limbCount (Nat.fib k) + limbCount (Nat.fib (k - 1))

/-- The digit at string position k of the encoded numeral (R154): the low nibble of byte k/2 for an even k, the high nibble
for an odd one. -/
def decodedDigit (m : Memory) (k : Nat) : Option Digit :=
  match m.read (k / 2) with
  | none => none
  | some b => some (if k % 2 = 0 then b.extractLsb' 0 4 else b.extractLsb' 4 4)

end Sys2Proof.Machine
end

