-- ==== Sys2Proof/Safety.lean ====
section
/-! DEFINITION. The invariants of 10_state.md as one predicate on states (R7, R21, R22, R29, R40 to R42, R45), and what a
safe run is (R184). -/

namespace Sys2Proof.Machine

open Sys2Proof

/-- Every digit is a decimal digit (R22). -/
abbrev DigitsOk (ds : Digits) : Prop := ∀ d ∈ ds, d.toNat ≤ 9

/-- No leading zero, or the single digit 0 (R18: normalised). -/
abbrev Normalised (ds : Digits) : Prop := ds = [0] ∨ ∃ d, ds.getLast? = some d ∧ d ≠ 0

/-- The pointer to the first of the nodes with these indices, `NIL` when there is none. -/
def firstPtr : List Nat → Ptr
  | [] => nilPtr
  | p :: _ => ptrOf p

/-- The pointer to the last of the nodes with these indices, or the given pointer when there is none. -/
def lastPtr : Ptr → List Nat → Ptr
  | before, [] => before
  | _, p :: ps => lastPtr (ptrOf p) ps

/-- The nodes with these indices are linked in this order, the first one's `prev` being `before` and the last one's `next`
being `after`. Each of them is in use and holds a limb below 10^18 (R29). -/
def Linked (nodes : List Node) (before after : Ptr) : List Nat → Prop
  | [] => True
  | p :: ps =>
    ∃ n, nodes[p]? = some n ∧ n.used = true ∧ n.prev = before ∧ n.val.toNat < limbBase ∧
      n.next = (match ps with | [] => after | q :: _ => ptrOf q) ∧ Linked nodes (ptrOf p) after ps

/-- A descriptor and the indices of its list's nodes, head first (R29). -/
structure ListAt (nodes : List Node) (d : ListDesc) (ps : List Nat) : Prop where
  head : d.head = firstPtr ps
  tail : d.tail = lastPtr nilPtr ps
  cnt : d.cnt = ps.length
  nodup : ps.Nodup
  linked : Linked nodes nilPtr nilPtr ps

/-- The invariants of R29 with the nodes of the two lists named. -/
structure StoreAt (nnode : Nat) (st : ListStore) (ps : ListId → List Nat) : Prop where
  size : st.nodes.length = nnode
  lists : ∀ l, ListAt st.nodes (st.desc l) (ps l)
  apart : ∀ p, p ∈ ps .l0 → p ∈ ps .l1 → False
  used : ∀ p n, st.nodes[p]? = some n → n.used = true → p ∈ ps .l0 ∨ p ∈ ps .l1

/-- The invariants of the pool and the lists (R29), for a pool of `NNODE` nodes (R27). -/
def StoreOk (nnode : Nat) (st : ListStore) : Prop := ∃ ps, StoreAt nnode st ps

/-- The invariants every command keeps. -/
structure State.Inv (s : State) : Prop where
  /-- The constraints of R7. -/
  params : s.params.Legal
  /-- R22: every digit is a decimal digit. -/
  digits : ∀ r, DigitsOk (s.dreg r)
  /-- R21: `len` is in [0, DCAP]. -/
  capacity : ∀ r, (s.dreg r).length ≤ s.params.dcap
  /-- R29. -/
  store : StoreOk s.params.nnode s.store
  /-- The canonical form of the output buffer. -/
  canonical : s.obuf.wf = true
  /-- R42, R45: exactly the bytes below `OLEN` are valid. -/
  held : ∀ a, s.obuf.read a ≠ none ↔ a < s.olen.toNat
  /-- R42: `OLEN` is in [0, OCAP]. -/
  olen : s.olen.toNat ≤ s.params.ocap
  /-- R40: codes are 0 to 6. -/
  cause : s.cause.toNat ≤ 6
  /-- R41: bits 0 and 7 of `ESTICKY` always read 0. -/
  sticky : s.esticky.getLsbD 0 = false ∧ s.esticky.getLsbD 7 = false

/-- The postcondition R184 asks a claim about a program to take: no command since the last `CLRERR` or reset faulted. -/
def State.Clean (s : State) : Prop := s.esticky = 0

/-- A safe run of k steps: the model does not stop, and no command faulted (R184). -/
def SafeRun (k : Nat) (s : State) : Prop := ∃ t, core.run k s = .next t ∧ t.Clean

end Sys2Proof.Machine
end

