-- ==== Sys2Proof/Certificates/Slice0/Obligations.lean ====
section
/-! DEFINITION. The statements about the model, each from the rules of the spec it cites, and the few notions of the spec
they are written with. -/

namespace Sys2Proof.Claims

open Sys2Proof Sys2Proof.Machine

/-- The state a command leaves that ends with this fault code (R170): `CAUSE` <- c, `ESTICKY` <- `ESTICKY` | 2^c, nothing
else. -/
def faulted (s : State) (code : Nat) : State :=
  { s with cause := BitVec.ofNat 8 code, esticky := s.esticky ||| BitVec.ofNat 8 (2 ^ code) }

/-- The digit register a command may write (R89 to R110). -/
def writtenRegister : Instr → Option DReg
  | .dset rd _ => some rd
  | .dpush rd _ => some rd
  | .dfree rd => some rd
  | .dmov rd _ => some rd
  | .dadd rd _ _ => some rd
  | .dsub rd _ _ => some rd
  | .dmul rd _ _ => some rd
  | .fibd rd => some rd
  | .nop => none
  | .clrerr => none
  | .dlen _ => none
  | .drd _ => none
  | .denc _ => none
  | .ord => none
  | .lclr _ => none
  | .lapp _ => none
  | .lacc _ _ => none
  | .lcnt _ => none
  | .lrd _ => none
  | .lfib => none
  | .lstr _ => none

/-- The commands that only read (R60). -/
def readOnly : Instr → Bool
  | .dlen _ => true
  | .drd _ => true
  | .ord => true
  | .lcnt _ => true
  | .lrd _ => true
  | .nop => false
  | .clrerr => false
  | .dset _ _ => false
  | .dpush _ _ => false
  | .dfree _ => false
  | .dmov _ _ => false
  | .dadd _ _ _ => false
  | .dsub _ _ _ => false
  | .dmul _ _ _ => false
  | .fibd _ => false
  | .denc _ => false
  | .lclr _ => false
  | .lapp _ => false
  | .lacc _ _ => false
  | .lfib => false
  | .lstr _ => false

/-- The commands that may write `RESULT` (R39). -/
def writesResult (i : Instr) : Bool := readOnly i || i == .lfib

/-- The commands that may write a list (R149). -/
def writesLists : Instr → Bool
  | .lclr _ => true
  | .lapp _ => true
  | .lacc _ _ => true
  | .lfib => true
  | .nop => false
  | .clrerr => false
  | .dset _ _ => false
  | .dpush _ _ => false
  | .dfree _ => false
  | .dmov _ _ => false
  | .dlen _ => false
  | .drd _ => false
  | .dadd _ _ _ => false
  | .dsub _ _ _ => false
  | .dmul _ _ _ => false
  | .fibd _ => false
  | .denc _ => false
  | .ord => false
  | .lcnt _ => false
  | .lrd _ => false
  | .lstr _ => false

/-- The commands that may write the output buffer, `OLEN` and `OCNT` (R42, R43). -/
def writesOutput : Instr → Bool
  | .denc _ => true
  | .lstr _ => true
  | .nop => false
  | .clrerr => false
  | .dset _ _ => false
  | .dpush _ _ => false
  | .dfree _ => false
  | .dmov _ _ => false
  | .dlen _ => false
  | .drd _ => false
  | .dadd _ _ _ => false
  | .dsub _ _ _ => false
  | .dmul _ _ _ => false
  | .fibd _ => false
  | .ord => false
  | .lclr _ => false
  | .lapp _ => false
  | .lacc _ _ => false
  | .lcnt _ => false
  | .lrd _ => false
  | .lfib => false

/-- The table of R167: which fault codes a command can end with. -/
def canRaise : Instr → List Nat
  | .nop => []
  | .clrerr => []
  | .dfree _ => []
  | .dlen _ => []
  | .lclr _ => []
  | .lcnt _ => []
  | .lstr _ => []
  | .dset _ _ => [5]
  | .dpush _ _ => [1, 4, 5]
  | .dmov _ _ => [4]
  | .drd _ => [4, 6]
  | .dadd _ _ _ => [1, 4]
  | .dmul _ _ _ => [1, 4]
  | .dsub _ _ _ => [4]
  | .fibd _ => [1, 2]
  | .denc _ => [4]
  | .ord => [6]
  | .lapp _ => [1, 5]
  | .lacc _ _ => [1, 5]
  | .lrd _ => [6]
  | .lfib => [1, 2]

/-- The decimal numeral of a digit sequence as characters in natural order (R12, R147). -/
def numeral (ds : Digits) : List Byte := ds.reverse.map (fun d => 0x30 + d.setWidth 8)

/-- Leading 0x30 bytes removed, one kept when all are 0x30 (R148). -/
def stripped : List Byte → List Byte
  | [] => []
  | [c] => [c]
  | c :: d :: cs => if c = 0x30 then stripped (d :: cs) else c :: d :: cs

/-- The bytes of the output buffer below `OLEN`, in order. -/
def outputBytes (s : State) : List (Option Byte) := (List.range s.olen.toNat).map s.obuf.read

/-- Two states that agree on everything the host can observe through commands and registers (R30): all but the pool's
pointers. -/
structure Alike (s s' : State) : Prop where
  dregs : s.dregs = s'.dregs
  lists : ∀ l, s.store.seq l = s'.store.seq l
  output : s.obuf = s'.obuf ∧ s.olen = s'.olen ∧ s.ocnt = s'.ocnt
  control : s.arg = s'.arg ∧ s.result = s'.result ∧ s.cause = s'.cause ∧ s.esticky = s'.esticky
  model : s.params = s'.params ∧ s.pending = s'.pending ∧ s.busRead = s'.busRead

end Sys2Proof.Claims

open Sys2Proof Sys2Proof.Machine Sys2Proof.Claims

/-! Encoding. -/

/-- Decoding the word of a command gives the command back, every operand at every value its field has (30_encoding.md section 1;
R67 states the other direction). -/
def Obligations.DecodeInvertsEncode : Prop :=
  ∀ i : Instr, i.wellFormed = true → decode (encode i) = .ok i

/-- A legal word has one decoding, a well-formed command, and encoding it gives the same word (30_encoding.md section 1, the
last sentence of R67). -/
def Obligations.EncodeInvertsDecode : Prop :=
  ∀ (w : Word) (i : Instr), decode w = .ok i → i.wellFormed = true ∧ encode i = w

/-- R74: at most one row of the table matches a word; the row that matches decides the decoding; with none the word is
illegal. -/
def Obligations.DecodeFollowsOpcodeTable : Prop :=
  ∀ w : Word,
    (∀ o o' : Op, w &&& o.mask = o.pattern → w &&& o'.mask = o'.pattern → o = o') ∧
    (∀ o : Op, w &&& o.mask = o.pattern → decode w = .ok (o.build w)) ∧
    ((∀ o : Op, w &&& o.mask ≠ o.pattern) → ∃ e, decode w = .error e)

/-- How the table's columns are formed (30_encoding.md section 3; R73, which the spec marks as derived): the mask has a 1 in
every bit but those of a used register field, a used `imm`, and bit 0 of a used list field; `match` is the opcode. -/
def Obligations.MasksFormedFromFormats : Prop :=
  ∀ o : Op, o.mask = ~~~ o.format.freeBits ∧ o.pattern = o.code ++ (0 : BitVec 24)

/-- The spec's encoding examples, legal and illegal, word by word (30_encoding.md section 5; R79, which the spec marks as
derived). -/
def Obligations.SampleWordsDecode : Prop :=
  decode 0x10000005 = .ok (.dset 0 5) ∧ decode 0x11300009 = .ok (.dpush 3 9) ∧
  decode 0x12F00000 = .ok (.dfree 15) ∧ decode 0x13270000 = .ok (.dmov 2 7) ∧
  decode 0x14040000 = .ok (.dlen 4) ∧ decode 0x15040000 = .ok (.drd 4) ∧
  decode 0x18312000 = .ok (.dadd 3 1 2) ∧ decode 0x19001000 = .ok (.dsub 0 0 1) ∧
  decode 0x1AFED000 = .ok (.dmul 15 14 13) ∧ decode 0x20100000 = .ok (.fibd 1) ∧
  decode 0x28010000 = .ok (.denc 1) ∧ decode 0x29000000 = .ok .ord ∧
  decode 0x30100000 = .ok (.lclr .l1) ∧ decode 0x31000000 = .ok (.lapp .l0) ∧
  decode 0x32010000 = .ok (.lacc .l0 .l1) ∧ decode 0x32100000 = .ok (.lacc .l1 .l0) ∧
  decode 0x33010000 = .ok (.lcnt .l1) ∧ decode 0x34000000 = .ok (.lrd .l0) ∧
  decode 0x35000000 = .ok .lfib ∧ decode 0x36010000 = .ok (.lstr .l1) ∧
  decode 0x00000000 = .ok .nop ∧ decode 0x01000000 = .ok .clrerr ∧
  decode 0x02000000 = .error .unknownOp ∧ decode 0x18312010 = .error .reservedBits ∧
  decode 0x30200000 = .error .listNumber ∧ decode 0x00000001 = .error .reservedBits ∧
  decode 0x14140000 = .error .reservedBits

/-! The step. -/

/-- R37: a host write of a command's word to `CMD` executes that command, on the state the write found. The queue of host
actions the step takes it from is the model's own (log entry 2). -/
def Obligations.StepRunsDecodedCommand : Prop :=
  ∀ (s : State) (w : Word) (rest : List HostAction) (i : Instr),
    s.pending = .writeCmd w :: rest → decode w = .ok i → step s = exec i { s with pending := rest }

/-- R75: executing a word that matches no row raises IllegalCommand, code 3, and changes nothing else. -/
def Obligations.IllegalWordRaisesIllegalCommand : Prop :=
  ∀ (s : State) (w : Word), (∀ o : Op, w &&& o.mask ≠ o.pattern) → issue w s = .next (faulted s 3)

/-- R36: the host writes `ARG`, a write of a read-only register has no effect, and a read returns the register (0 for `CMD`) and
changes nothing of the BNU. The field the value read is left in is the model's own (log entry 3). -/
def Obligations.HostAccessesControlRegisters : Prop :=
  ∀ s : State,
    (∀ v, perform (.writeArg v) s = .next { s with arg := v }) ∧
    (∀ r v, perform (.writeReadOnly r v) s = .next s) ∧
    (∀ r, ∃ v, perform (.read r) s = .next { s with busRead := some v } ∧
      (r = .cmd → v = 0) ∧ (r = .arg → v = s.arg) ∧ (r = .status .result → v = s.result) ∧
      (r = .status .cause → v.toNat = s.cause.toNat) ∧ (r = .status .esticky → v.toNat = s.esticky.toNat) ∧
      (r = .status .olen → v.toNat = s.olen.toNat) ∧ (r = .status .ocnt → v.toNat = s.ocnt.toNat))

/-- The BNU keeps all state while idle (60_exceptions.md section 3, R183). That idle is an empty queue of host actions is the
model's own (log entry 2). -/
def Obligations.IdleStepKeepsState : Prop :=
  ∀ s : State, s.pending = [] → step s = .next s

/-- R186: after reset, applied at any moment (R185), every digit register is EMPTY, every node free, both lists empty with `NIL`
pointers, every control register 0, and the output buffer unreadable: `ORD` raises IndexRange. -/
def Obligations.ResetEmptiesEverything : Prop :=
  ∀ s : State, ∃ t, perform .reset s = .next t ∧ (∀ r, t.dreg r = []) ∧
    t.store.nodes.length = s.params.nnode ∧ (∀ n ∈ t.store.nodes, n.used = false) ∧
    (∀ l, (t.store.desc l).head = 0xFFFF ∧ (t.store.desc l).tail = 0xFFFF ∧ (t.store.desc l).cnt = 0) ∧
    t.arg = 0 ∧ t.result = 0 ∧ t.cause = 0 ∧ t.esticky = 0 ∧ t.olen = 0 ∧ t.ocnt = 0 ∧
    (∀ v, exec .ord { t with arg := v } = .next (faulted { t with arg := v } 6))

/-! The whole machine. -/

/-- The invariants of 10_state.md hold after reset, for every choice of the parameters R7 allows. Which bytes of the output
buffer hold a value is the model's own (log entry 5). -/
def Obligations.ResetStatesAreWellFormed : Prop :=
  (∀ p : Params, p.Legal → (State.resetWith p).Inv) ∧ State.reset.Inv

/-- The invariants of 10_state.md, R22 and R29 and with them R21, R40 to R42 and R45: every command, and every other step, keeps
them. That a byte beyond `OLEN` holds no value, and the canonical form of the buffer, are the model's own (log entry 5). -/
def Obligations.EveryStepKeepsTheInvariants : Prop :=
  ∀ s t : State, s.Inv → step s = .next t → t.Inv

/-- No command can hang and no fault stalls the unit (60_exceptions.md section 2; R173, which the spec marks as derived): from a
state that satisfies the invariants every command, and every step, ends in a next state. -/
def Obligations.EveryCommandCompletesOrFaults : Prop :=
  ∀ s : State, s.Inv → (∀ i : Instr, ∃ t, exec i s = .next t) ∧ ∃ t, step s = .next t

/-- A run of any length from a state that satisfies the invariants never stops (60_exceptions.md sections 1 and 2; R165, and R173,
which the spec marks as derived). -/
def Obligations.RunsNeverStop : Prop :=
  ∀ (k : Nat) (s : State), s.Inv → ∃ t, core.run k s = .next t ∧ t.Inv

/-- R170: a command that ends with a fault changes `CAUSE` and `ESTICKY`, by the code of R166, and nothing else: every
command, and every word the host writes to `CMD`. -/
def Obligations.FaultChangesOnlyCauseAndSticky : Prop :=
  (∀ (i : Instr) (s t : State), exec i s = .next t → t.cause ≠ 0 →
    ∃ code, 1 ≤ code ∧ code ≤ 6 ∧ t = faulted s code) ∧
  (∀ (w : Word) (s t : State), issue w s = .next t → t.cause ≠ 0 →
    ∃ code, 1 ≤ code ∧ code ≤ 6 ∧ t = faulted s code)

/-- A fault changes nothing its condition depends on: the same command, issued again, faults again and leaves the state as it is
(60_exceptions.md section 2, a part of R172). -/
def Obligations.FaultingCommandFaultsAgain : Prop :=
  ∀ (i : Instr) (s t : State), exec i s = .next t → t.cause ≠ 0 → exec i t = .next t

/-- A command that completes leaves `CAUSE` 0 and does not change `ESTICKY`, except `CLRERR`, which clears it (60_exceptions.md
section 2, a part of R171). -/
def Obligations.CompletionKeepsSticky : Prop :=
  ∀ (i : Instr) (s t : State), exec i s = .next t → t.cause = 0 →
    (i ≠ .clrerr → t.esticky = s.esticky) ∧ (i = .clrerr → t.esticky = 0)

/-- A command ends with no fault its row of the table in 60_exceptions.md section 1 does not have (R167, which the spec marks as
derived). -/
def Obligations.FaultsOnlyAsTabled : Prop :=
  ∀ (i : Instr) (s t : State), s.Inv → exec i s = .next t → t.cause ≠ 0 → t.cause.toNat ∈ canRaise i

/-- R41: a bit of `ESTICKY` is set when a command ends with its code and stays set until `CLRERR` or reset, and bits 0 and 7
always read 0. -/
def Obligations.StickyBitsStaySet : Prop :=
  ∀ (a : HostAction) (s t : State), perform a s = .next t →
    (∀ w, a = .writeCmd w → t.cause ≠ 0 → t.esticky.getLsbD t.cause.toNat = true) ∧
    (a ≠ .reset → (∀ w, a = .writeCmd w → decode w ≠ .ok .clrerr) →
      ∀ b, s.esticky.getLsbD b = true → t.esticky.getLsbD b = true) ∧
    (s.Inv → t.esticky.getLsbD 0 = false ∧ t.esticky.getLsbD 7 = false)

/-- No command writes `ARG` (10_state.md section 3, a part of R38). That none touches the parameters, the pending host actions or
the value the host read last is said of three fields of the model's own (log entries 1, 2 and 3), of which the spec says nothing. -/
def Obligations.CommandsKeepArg : Prop :=
  ∀ (i : Instr) (s t : State), exec i s = .next t →
    t.arg = s.arg ∧ t.params = s.params ∧ t.pending = s.pending ∧ t.busRead = s.busRead

/-- R39: `RESULT` is written only by the commands R39 names, and only when they complete. -/
def Obligations.ResultWrittenOnlyByCompletedReads : Prop :=
  ∀ (i : Instr) (s t : State), exec i s = .next t → (writesResult i = false ∨ t.cause ≠ 0) → t.result = s.result

/-- Only `DENC` and `LSTR` write the output buffer, `OLEN` and `OCNT` (10_state.md sections 3 and 4): for every other command, and
for either of them when it faults, every byte reads as before. -/
def Obligations.OutputWrittenOnlyByEncoders : Prop :=
  ∀ (i : Instr) (s t : State), exec i s = .next t → (writesOutput i = false ∨ t.cause ≠ 0) →
    (∀ a, t.obuf.read a = s.obuf.read a) ∧ t.olen = s.olen ∧ t.ocnt = s.ocnt

/-- No command changes a digit register other than its destination (10_state.md section 1, 40_decimal_arith.md section 1). -/
def Obligations.OnlyTheDestinationRegisterChanges : Prop :=
  ∀ (i : Instr) (s t : State) (r : DReg), exec i s = .next t → writtenRegister i ≠ some r → t.dreg r = s.dreg r

/-- Only `LCLR`, `LAPP`, `LACC` and `LFIB` write the pool and the lists, and the first three leave the list they do not name as
their target as it was (42_limb_list.md, the table of its section 4). -/
def Obligations.OnlyTheTargetListChanges : Prop :=
  ∀ (i : Instr) (s t : State), exec i s = .next t →
    (writesLists i = false → t.store = s.store) ∧
    (s.Inv → ∀ lt l : ListId, l ≠ lt → (i = .lclr lt ∨ i = .lapp lt ∨ i = .lacc lt l) →
      t.store.seq l = s.store.seq l)

/-- No command makes a digit register EMPTY but `DFREE`, and none makes an EMPTY one valid but `DSET` and the commands whose
destination it is, `DPUSH` not among them (40_decimal_arith.md section 2; R90, which the spec marks as derived). -/
def Obligations.OnlyDfreeEmptiesARegister : Prop :=
  ∀ (i : Instr) (s t : State) (r : DReg), exec i s = .next t →
    (t.dreg r = [] → s.dreg r = [] ∨ i = .dfree r) ∧
    (s.dreg r = [] → t.dreg r ≠ [] →
      (∃ imm, i = .dset r imm) ∨ (∃ a, i = .dmov r a) ∨ (∃ a b, i = .dadd r a b) ∨ (∃ a b, i = .dsub r a b) ∨
        (∃ a b, i = .dmul r a b) ∨ i = .fibd r)

/-- `DLEN`, `DRD`, `LCNT`, `LRD` and `ORD`, where they complete, change only `RESULT` and `CAUSE`, and a second read gives the same;
a host read of a control register changes nothing of the BNU (20_memory.md section 3, R60). The field the value read is left in is
the model's own (log entry 3), and the second clause rests on it. -/
def Obligations.ReadsAreIdempotent : Prop :=
  (∀ (i : Instr) (s t : State), readOnly i = true → exec i s = .next t → t.cause = 0 →
    t = { s with result := t.result, cause := 0 } ∧ exec i t = .next t) ∧
  (∀ (r : CtrlReg) (s t : State), perform (.read r) s = .next t →
    t = { s with busRead := t.busRead } ∧ perform (.read r) t = .next t)

/-- What a command does depends on the lists as sequences only (10_state.md section 2; R30, which the spec marks as derived): from
two states that satisfy the invariants and differ in the pool's pointers alone, every command leaves two states that differ in
them alone. -/
def Obligations.PointersAreUnobservable : Prop :=
  ∀ (i : Instr) (s s' t t' : State), s.Inv → s'.Inv → Alike s s' →
    exec i s = .next t → exec i s' = .next t' → Alike t t'

/-! System commands. -/

/-- R158: `NOP` changes nothing but `CAUSE`. Beside it the effect of `CLRERR` (43_encoder_system.md section 2, the pseudocode of
R159). That no other command clears `ESTICKY` is in `CompletionKeepsSticky` and `StickyBitsStaySet`. -/
def Obligations.NopAndClrerrComplete : Prop :=
  ∀ s : State, exec .nop s = .next { s with cause := 0 } ∧ exec .clrerr s = .next { s with esticky := 0, cause := 0 }

/-! Digit registers. -/

/-- R89: the one digit imm, or IllegalOperand when imm is above 9. -/
def Obligations.DsetSetsOneDigit : Prop :=
  ∀ (s : State) (rd : DReg) (imm : Nat), imm < 16 →
    exec (.dset rd imm) s = .next (if 9 < imm then faulted s 5
      else { s with dregs := s.dregs.set rd [BitVec.ofNat 4 imm], cause := 0 })

/-- R91: the checks in their order, the digit appended at the most significant end, and the value after, val + imm * 10^n. -/
def Obligations.DpushAppendsTopDigit : Prop :=
  ∀ (s : State) (rd : DReg) (imm : Nat), imm < 16 →
    exec (.dpush rd imm) s = .next (if (s.dreg rd).length = 0 then faulted s 4
      else if 9 < imm then faulted s 5
      else if s.params.dcap < (s.dreg rd).length + 1 then faulted s 1
      else { s with dregs := s.dregs.set rd (s.dreg rd ++ [BitVec.ofNat 4 imm]), cause := 0 }) ∧
    (imm ≤ 9 → digitsVal (s.dreg rd ++ [BitVec.ofNat 4 imm]) =
      digitsVal (s.dreg rd) + imm * 10 ^ (s.dreg rd).length)

/-- R93: the register becomes EMPTY, whatever it held. -/
def Obligations.DfreeReleasesRegister : Prop :=
  ∀ (s : State) (rd : DReg), exec (.dfree rd) s = .next { s with dregs := s.dregs.set rd [], cause := 0 }

/-- R94: an exact copy, or EmptyOperand. -/
def Obligations.DmovCopiesRegister : Prop :=
  ∀ (s : State) (rd ra : DReg), exec (.dmov rd ra) s = .next (if (s.dreg ra).length = 0 then faulted s 4
    else { s with dregs := s.dregs.set rd (s.dreg ra), cause := 0 })

/-- R96: also of an EMPTY register, whose length is 0. -/
def Obligations.DlenReadsLength : Prop :=
  ∀ (s : State) (ra : DReg),
    exec (.dlen ra) s = .next { s with result := BitVec.ofNat 64 (s.dreg ra).length, cause := 0 }

/-- R97: the digit at position `ARG`, read as unsigned. -/
def Obligations.DrdReadsDigit : Prop :=
  ∀ (s : State) (ra : DReg),
    ((s.dreg ra).length = 0 → exec (.drd ra) s = .next (faulted s 4)) ∧
    (0 < (s.dreg ra).length → (s.dreg ra).length ≤ s.arg.toNat → exec (.drd ra) s = .next (faulted s 6)) ∧
    (∀ d, (s.dreg ra)[s.arg.toNat]? = some d →
      exec (.drd ra) s = .next { s with result := BitVec.ofNat 64 d.toNat, cause := 0 })

/-- R99, with the checks of R86 and R87 in their order: the exact sum with its length, for every choice of the three registers,
equal ones included (R88). -/
def Obligations.DaddAdds : Prop :=
  ∀ (s : State) (rd ra rb : DReg), DigitsOk (s.dreg ra) → DigitsOk (s.dreg rb) →
    let n := max (s.dreg ra).length (s.dreg rb).length
    ((s.dreg ra = [] ∨ s.dreg rb = []) → exec (.dadd rd ra rb) s = .next (faulted s 4)) ∧
    (s.dreg ra ≠ [] → s.dreg rb ≠ [] → s.params.dcap < n + 1 → exec (.dadd rd ra rb) s = .next (faulted s 1)) ∧
    (s.dreg ra ≠ [] → s.dreg rb ≠ [] → n + 1 ≤ s.params.dcap →
      ∃ c, exec (.dadd rd ra rb) s = .next { s with dregs := s.dregs.set rd c, cause := 0 } ∧
        digitsVal c = digitsVal (s.dreg ra) + digitsVal (s.dreg rb) ∧ DigitsOk c ∧
        c.length = n + (if 10 ^ n ≤ digitsVal (s.dreg ra) + digitsVal (s.dreg rb) then 1 else 0))

/-- Operand order does not change the result, in length as well as value, and adding the one-digit 0 gives the other operand digit
for digit (40_decimal_arith.md sections 3 and 6; R108, which the spec marks as derived). -/
def Obligations.DaddCommutesWithIdentityZero : Prop :=
  (∀ (s : State) (rd ra rb : DReg), exec (.dadd rd ra rb) s = exec (.dadd rd rb ra) s) ∧
  (∀ (s : State) (rd ra rb : DReg), DigitsOk (s.dreg ra) → s.dreg ra ≠ [] → s.dreg rb = [0] →
    (s.dreg ra).length + 1 ≤ s.params.dcap →
      exec (.dadd rd ra rb) s = .next { s with dregs := s.dregs.set rd (s.dreg ra), cause := 0 })

/-- What `DSUB` computes as a number (40_decimal_arith.md section 4; R103, which the spec marks as derived from R101): the
difference of the operand with the greater length and the other one, modulo 10^lx, lx digits long: the absolute difference where
the first is not the smaller value, the wrapped one otherwise. -/
def Obligations.DsubSubtracts : Prop :=
  ∀ (s : State) (rd ra rb : DReg), s.Inv →
    let a := s.dreg ra
    let b := s.dreg rb
    let x := if a.length < b.length then b else a
    let y := if a.length < b.length then a else b
    ((a = [] ∨ b = []) → exec (.dsub rd ra rb) s = .next (faulted s 4)) ∧
    (a ≠ [] → b ≠ [] →
      ∃ c, exec (.dsub rd ra rb) s = .next { s with dregs := s.dregs.set rd c, cause := 0 } ∧ DigitsOk c ∧
        c.length = max a.length b.length ∧
        (digitsVal c : Int) = ((digitsVal x : Int) - digitsVal y) % 10 ^ x.length ∧
        (digitsVal y ≤ digitsVal x → digitsVal c = digitsVal x - digitsVal y) ∧
        (digitsVal x < digitsVal y → digitsVal c = 10 ^ x.length - (digitsVal y - digitsVal x)))

/-- R104, with the checks of R86 and R87 in their order: the exact product, normalised. -/
def Obligations.DmulMultiplies : Prop :=
  ∀ (s : State) (rd ra rb : DReg), DigitsOk (s.dreg ra) → DigitsOk (s.dreg rb) →
    let n := (s.dreg ra).length + (s.dreg rb).length + 1
    ((s.dreg ra = [] ∨ s.dreg rb = []) → exec (.dmul rd ra rb) s = .next (faulted s 4)) ∧
    (s.dreg ra ≠ [] → s.dreg rb ≠ [] → s.params.dcap < n → exec (.dmul rd ra rb) s = .next (faulted s 1)) ∧
    (s.dreg ra ≠ [] → s.dreg rb ≠ [] → n ≤ s.params.dcap →
      ∃ c, exec (.dmul rd ra rb) s = .next { s with dregs := s.dregs.set rd c, cause := 0 } ∧
        digitsVal c = digitsVal (s.dreg ra) * digitsVal (s.dreg rb) ∧ DigitsOk c ∧ Normalised c)

/-- Operand order does not change the product, and a product with 0 is exactly "0" (40_decimal_arith.md sections 5 and 6; R108,
which the spec marks as derived). -/
def Obligations.DmulCommutesWithZero : Prop :=
  (∀ (s : State) (rd ra rb : DReg), DigitsOk (s.dreg ra) → DigitsOk (s.dreg rb) →
    exec (.dmul rd ra rb) s = exec (.dmul rd rb ra) s) ∧
  (∀ (s : State) (rd ra rb : DReg), DigitsOk (s.dreg ra) → DigitsOk (s.dreg rb) → s.dreg ra ≠ [] → s.dreg rb ≠ [] →
    digitsVal (s.dreg rb) = 0 → (s.dreg ra).length + (s.dreg rb).length + 1 ≤ s.params.dcap →
      exec (.dmul rd ra rb) s = .next { s with dregs := s.dregs.set rd [0], cause := 0 })

/-! The fast-doubling engine. -/

/-- A negative index raises InvalidIndex (R110, R176); otherwise the command raises AllocationFailure or leaves exactly F(n),
normalised, in its destination, and nothing else but `CAUSE` changes (R110, R111, and R115 and R119, which the spec marks as
derived). The last clause, a sufficient condition for completion, is the model's own inference from R112: the command completes
wherever twice the digits of F(n div 2 + 1), and two more, fit in `DCAP`. -/
def Obligations.FibdComputesFibonacci : Prop :=
  ∀ (s : State) (rd : DReg),
    (s.arg.toInt < 0 → exec (.fibd rd) s = .next (faulted s 2)) ∧
    (∀ n : Nat, s.arg.toInt = n →
      (exec (.fibd rd) s = .next (faulted s 1) ∨
        ∃ c, exec (.fibd rd) s = .next { s with dregs := s.dregs.set rd c, cause := 0 } ∧ DigitsOk c ∧
          Normalised c ∧ digitsVal c = Nat.fib n) ∧
      (∀ m, Nat.fib (n / 2 + 1) < 10 ^ m → 2 * m + 2 ≤ s.params.dcap →
        ∃ c, exec (.fibd rd) s = .next { s with dregs := s.dregs.set rd c, cause := 0 } ∧ DigitsOk c ∧
          Normalised c ∧ digitsVal c = Nat.fib n))

/-- Index 0 is no error: the single-digit value 0, whatever `DCAP` is (41_fast_doubling.md section 1, a part of R110). -/
def Obligations.FibdOfZeroIsZero : Prop :=
  ∀ (s : State) (rd : DReg), s.arg = 0 → exec (.fibd rd) s = .next { s with dregs := s.dregs.set rd [0], cause := 0 }

/-- R189: what `FIBD` and `LFIB` compute depends on `ARG` (and the parameters) only, on nothing left by earlier commands. -/
def Obligations.FibonacciEnginesReadOnlyArg : Prop :=
  ∀ (s s' t t' : State) (rd : DReg), s.arg = s'.arg → s.params = s'.params →
    (exec (.fibd rd) s = .next t → exec (.fibd rd) s' = .next t' →
      t.cause = t'.cause ∧ (t.cause = 0 → t.dreg rd = t'.dreg rd)) ∧
    (s.Inv → s'.Inv → exec .lfib s = .next t → exec .lfib s' = .next t' →
      t.cause = t'.cause ∧
      (t.cause = 0 → t.result = t'.result ∧ ∀ l, t.store.seq l = t'.store.seq l))

/-! The encoder and its read-out. -/

/-- R152, R153: two digits a byte, the even-indexed one low, pad nibble 0, `OLEN` and `OCNT`. The bytes stored are those at
addresses 0 to m - 1. -/
def Obligations.DencPacksDigits : Prop :=
  ∀ (s : State) (ra : DReg), s.Inv →
    let n := (s.dreg ra).length
    let m := (n + 1) / 2
    (s.dreg ra = [] → exec (.denc ra) s = .next (faulted s 4)) ∧
    (s.dreg ra ≠ [] →
      ∃ t, exec (.denc ra) s = .next t ∧ t.olen.toNat = m ∧ t.ocnt.toNat = n ∧
        t = { s with obuf := t.obuf, olen := t.olen, ocnt := t.ocnt, cause := 0 } ∧
        (∀ i, i < m → ∃ lo hi b, (s.dreg ra)[2 * i]? = some lo ∧
          hi = (if 2 * i + 1 < n then (s.dreg ra).getD (2 * i + 1) 0 else 0) ∧
          t.obuf.read i = some b ∧ b.toNat = lo.toNat + 16 * hi.toNat))

/-- After `DENC` and `LSTR` the bytes at and beyond `OLEN` become unspecified (42_limb_list.md section 4, 43_encoder_system.md
section 1). In this model they hold no value: the model's choice (log entry 5). -/
def Obligations.OutputEndsAtOlen : Prop :=
  ∀ (i : Instr) (s t : State), s.Inv → writesOutput i = true → exec i s = .next t → t.cause = 0 →
    ∀ a, t.olen.toNat ≤ a → t.obuf.read a = none

/-- Decoding what `DENC` left, by the decoding contract, gives exactly the register's digits (43_encoder_system.md section 1; R155,
which the spec marks as derived). -/
def Obligations.DecodingRecoversEncodedDigits : Prop :=
  ∀ (s t : State) (ra : DReg), s.Inv → s.dreg ra ≠ [] → exec (.denc ra) s = .next t →
    (List.range t.ocnt.toNat).map (decodedDigit t.obuf) = (s.dreg ra).map some

/-- R156: the byte at index `ARG`, or IndexRange at and beyond `OLEN`. -/
def Obligations.OrdReadsOutputByte : Prop :=
  ∀ s : State, s.Inv →
    (s.olen.toNat ≤ s.arg.toNat → exec .ord s = .next (faulted s 6)) ∧
    (s.arg.toNat < s.olen.toNat → ∃ b, s.obuf.read s.arg.toNat = some b ∧
      exec .ord s = .next { s with result := BitVec.ofNat 64 b.toNat, cause := 0 })

/-! Limb lists. -/

/-- R129: the list becomes empty, its nodes free, the other list as it was. -/
def Obligations.LclrReleasesList : Prop :=
  ∀ (s : State) (lt : ListId), s.Inv →
    ∃ st, exec (.lclr lt) s = .next { s with store := st, cause := 0 } ∧ st.seq lt = [] ∧ (st.desc lt).cnt = 0 ∧
      (∀ l, l ≠ lt → st.seq l = s.store.seq l) ∧ st.free = s.store.free + (s.store.desc lt).cnt

/-- R130: the order of the checks, and the limb of `ARG` appended as the most significant one. -/
def Obligations.LappAppendsLimb : Prop :=
  ∀ (s : State) (lt : ListId), s.Inv →
    (1000000000000000000 ≤ s.arg.toNat → exec (.lapp lt) s = .next (faulted s 5)) ∧
    (s.arg.toNat < 1000000000000000000 → s.store.free = 0 → exec (.lapp lt) s = .next (faulted s 1)) ∧
    (s.arg.toNat < 1000000000000000000 → 0 < s.store.free →
      ∃ st, exec (.lapp lt) s = .next { s with store := st, cause := 0 } ∧ st.seq lt = s.store.seq lt ++ [s.arg] ∧
        (∀ l, l ≠ lt → st.seq l = s.store.seq l) ∧ st.free + 1 = s.store.free)

/-- The same list twice is IllegalOperand; too few free nodes for the whole walk is AllocationFailure; otherwise the target reads
as the limb-wise sum, its value is the sum of the two values, and the source is unchanged (42_limb_list.md section 2: R132, and
R134, which the spec marks as derived from R133). -/
def Obligations.LaccAccumulates : Prop :=
  ∀ (s : State) (lt ls : ListId), s.Inv →
    (lt = ls → exec (.lacc lt ls) s = .next (faulted s 5)) ∧
    (lt ≠ ls → s.store.free < nodesNeeded (s.store.seq lt) (s.store.seq ls) →
      exec (.lacc lt ls) s = .next (faulted s 1)) ∧
    (lt ≠ ls → nodesNeeded (s.store.seq lt) (s.store.seq ls) ≤ s.store.free →
      ∃ st, exec (.lacc lt ls) s = .next { s with store := st, cause := 0 } ∧
        st.seq lt = seqSum (s.store.seq lt) (s.store.seq ls) ∧
        st.lval lt = s.store.lval lt + s.store.lval ls ∧
        (st.desc lt).cnt = max (s.store.desc lt).cnt (s.store.desc ls).cnt +
          sumCarry (s.store.seq lt) (s.store.seq ls) ∧
        st.seq ls = s.store.seq ls)

/-- R135: the limb count, 0 for an empty list. -/
def Obligations.LcntReadsCount : Prop :=
  ∀ (s : State) (ls : ListId),
    exec (.lcnt ls) s = .next { s with result := BitVec.ofNat 64 (s.store.desc ls).cnt, cause := 0 } ∧
    (s.Inv → (s.store.desc ls).cnt = (s.store.seq ls).length)

/-- R136: the limb at position `ARG` from the head, or IndexRange at and beyond the count. -/
def Obligations.LrdReadsLimb : Prop :=
  ∀ (s : State) (ls : ListId), s.Inv →
    ((s.store.desc ls).cnt ≤ s.arg.toNat → exec (.lrd ls) s = .next (faulted s 6)) ∧
    (s.arg.toNat < (s.store.desc ls).cnt → ∃ v, (s.store.seq ls)[s.arg.toNat]? = some v ∧
      exec (.lrd ls) s = .next { s with result := v, cause := 0 })

/-- A negative index raises InvalidIndex; AllocationFailure exactly when F(k) and F(k - 1) take more than `NNODE` nodes; otherwise
`L[parity(k)]` holds F(k), in as few limbs as it takes, the other list F(k - 1) (F(1) for k = 0), and `RESULT` is parity(k)
(42_limb_list.md section 3: R137, and R138 and R139, which the spec marks as derived). -/
def Obligations.LfibComputesFibonacci : Prop :=
  ∀ s : State, s.Inv →
    (s.arg.toInt < 0 → exec .lfib s = .next (faulted s 2)) ∧
    (∀ k : Nat, s.arg.toInt = k →
      (s.params.nnode < nodesForFib k → exec .lfib s = .next (faulted s 1)) ∧
      (nodesForFib k ≤ s.params.nnode →
        ∃ st, exec .lfib s = .next { s with store := st, result := BitVec.ofNat 64 (k % 2), cause := 0 } ∧
          st.lval (if k % 2 = 0 then .l0 else .l1) = Nat.fib k ∧
          st.lval (if k % 2 = 0 then .l1 else .l0) = (if k = 0 then 1 else Nat.fib (k - 1)) ∧
          (st.seq (if k % 2 = 0 then .l0 else .l1)).length = limbCount (Nat.fib k)))

/-- R145: every limb as 18 characters, the most significant limb and digit first, nothing stripped: the character for 10^j of
limb i stands at 18 (cnt - 1 - i) + 17 - j. `OLEN` = `OCNT` = 18 cnt. -/
def Obligations.LstrRendersList : Prop :=
  ∀ (s : State) (ls : ListId), s.Inv →
    ∃ t, exec (.lstr ls) s = .next t ∧
      t = { s with obuf := t.obuf, olen := t.olen, ocnt := t.ocnt, cause := 0 } ∧
      t.olen.toNat = 18 * (s.store.seq ls).length ∧ t.ocnt.toNat = 18 * (s.store.seq ls).length ∧
      (∀ i v, (s.store.seq ls)[i]? = some v → ∀ j, j < 18 →
        t.obuf.read (18 * ((s.store.seq ls).length - 1 - i) + (17 - j)) =
          some (BitVec.ofNat 8 (0x30 + v.toNat / 10 ^ j % 10)))

/-- With the default parameters of R7, `FIBD` completes for every index up to 2441 and raises AllocationFailure at 2442, and `LFIB`
completes for every index up to 2757 and raises AllocationFailure at 2758 (00_scope.md section 4; R9, which the spec marks as
derived). -/
def Obligations.LargestIndicesWithTheDefaults : Prop :=
  ∀ s : State, s.Inv → s.params = Params.default →
    (∀ (n : Nat) (rd : DReg), s.arg.toInt = n →
      (n ≤ 2441 → ∃ c, exec (.fibd rd) s = .next { s with dregs := s.dregs.set rd c, cause := 0 }) ∧
      (n = 2442 → exec (.fibd rd) s = .next (faulted s 1))) ∧
    (∀ k : Nat, s.arg.toInt = k →
      (k ≤ 2757 → ∃ st, exec .lfib s =
        .next { s with store := st, result := BitVec.ofNat 64 (k % 2), cause := 0 }) ∧
      (k = 2758 → exec .lfib s = .next (faulted s 1)))

/-- The two engines agree (42_limb_list.md section 4; R148, which the spec marks as derived): where both complete, the numeral of
the `FIBD` result is the text `LSTR` writes for the list `LFIB` names, with its leading zeros removed. -/
def Obligations.EnginesAgree : Prop :=
  ∀ (s t u v : State) (rd : DReg) (n : Nat), s.Inv → s.arg.toInt = n →
    exec (.fibd rd) s = .next t → t.cause = 0 →
    exec .lfib s = .next u → u.cause = 0 →
    exec (.lstr (if n % 2 = 0 then .l0 else .l1)) u = .next v →
      ∃ text : List Byte, outputBytes v = text.map some ∧ stripped text = numeral (t.dreg rd)
end

