-- ==== Sys2Proof/Laws/State.lean ====
section
/-! SUPPORT. One lemma per field per update of the state, each true by definition, and what reading a digit register gives
after each update. -/

namespace Sys2Proof.Machine

open Sys2Proof

variable (s : State)

/-! `State.setDreg` -/

@[simp] theorem setDreg_dregs (r : DReg) (ds : Digits) : (s.setDreg r ds).dregs = s.dregs.set r ds := rfl
@[simp] theorem setDreg_store (r : DReg) (ds : Digits) : (s.setDreg r ds).store = s.store := rfl
@[simp] theorem setDreg_obuf (r : DReg) (ds : Digits) : (s.setDreg r ds).obuf = s.obuf := rfl
@[simp] theorem setDreg_arg (r : DReg) (ds : Digits) : (s.setDreg r ds).arg = s.arg := rfl
@[simp] theorem setDreg_result (r : DReg) (ds : Digits) : (s.setDreg r ds).result = s.result := rfl
@[simp] theorem setDreg_cause (r : DReg) (ds : Digits) : (s.setDreg r ds).cause = s.cause := rfl
@[simp] theorem setDreg_esticky (r : DReg) (ds : Digits) : (s.setDreg r ds).esticky = s.esticky := rfl
@[simp] theorem setDreg_olen (r : DReg) (ds : Digits) : (s.setDreg r ds).olen = s.olen := rfl
@[simp] theorem setDreg_ocnt (r : DReg) (ds : Digits) : (s.setDreg r ds).ocnt = s.ocnt := rfl
@[simp] theorem setDreg_params (r : DReg) (ds : Digits) : (s.setDreg r ds).params = s.params := rfl
@[simp] theorem setDreg_pending (r : DReg) (ds : Digits) : (s.setDreg r ds).pending = s.pending := rfl
@[simp] theorem setDreg_busRead (r : DReg) (ds : Digits) : (s.setDreg r ds).busRead = s.busRead := rfl

/-! `State.setResult` -/

@[simp] theorem setResult_dregs (v : DWord) : (s.setResult v).dregs = s.dregs := rfl
@[simp] theorem setResult_store (v : DWord) : (s.setResult v).store = s.store := rfl
@[simp] theorem setResult_obuf (v : DWord) : (s.setResult v).obuf = s.obuf := rfl
@[simp] theorem setResult_arg (v : DWord) : (s.setResult v).arg = s.arg := rfl
@[simp] theorem setResult_result (v : DWord) : (s.setResult v).result = v := rfl
@[simp] theorem setResult_cause (v : DWord) : (s.setResult v).cause = s.cause := rfl
@[simp] theorem setResult_esticky (v : DWord) : (s.setResult v).esticky = s.esticky := rfl
@[simp] theorem setResult_olen (v : DWord) : (s.setResult v).olen = s.olen := rfl
@[simp] theorem setResult_ocnt (v : DWord) : (s.setResult v).ocnt = s.ocnt := rfl
@[simp] theorem setResult_params (v : DWord) : (s.setResult v).params = s.params := rfl
@[simp] theorem setResult_pending (v : DWord) : (s.setResult v).pending = s.pending := rfl
@[simp] theorem setResult_busRead (v : DWord) : (s.setResult v).busRead = s.busRead := rfl
@[simp] theorem setResult_dreg (v : DWord) (q : DReg) : (s.setResult v).dreg q = s.dreg q := rfl

/-! `State.setStore` -/

@[simp] theorem setStore_dregs (st : ListStore) : (s.setStore st).dregs = s.dregs := rfl
@[simp] theorem setStore_store (st : ListStore) : (s.setStore st).store = st := rfl
@[simp] theorem setStore_obuf (st : ListStore) : (s.setStore st).obuf = s.obuf := rfl
@[simp] theorem setStore_arg (st : ListStore) : (s.setStore st).arg = s.arg := rfl
@[simp] theorem setStore_result (st : ListStore) : (s.setStore st).result = s.result := rfl
@[simp] theorem setStore_cause (st : ListStore) : (s.setStore st).cause = s.cause := rfl
@[simp] theorem setStore_esticky (st : ListStore) : (s.setStore st).esticky = s.esticky := rfl
@[simp] theorem setStore_olen (st : ListStore) : (s.setStore st).olen = s.olen := rfl
@[simp] theorem setStore_ocnt (st : ListStore) : (s.setStore st).ocnt = s.ocnt := rfl
@[simp] theorem setStore_params (st : ListStore) : (s.setStore st).params = s.params := rfl
@[simp] theorem setStore_pending (st : ListStore) : (s.setStore st).pending = s.pending := rfl
@[simp] theorem setStore_busRead (st : ListStore) : (s.setStore st).busRead = s.busRead := rfl
@[simp] theorem setStore_dreg (st : ListStore) (q : DReg) : (s.setStore st).dreg q = s.dreg q := rfl

/-! `State.setOutput` -/

@[simp] theorem setOutput_dregs (bs : List Byte) (n : Nat) : (s.setOutput bs n).dregs = s.dregs := rfl
@[simp] theorem setOutput_store (bs : List Byte) (n : Nat) : (s.setOutput bs n).store = s.store := rfl
@[simp] theorem setOutput_obuf (bs : List Byte) (n : Nat) : (s.setOutput bs n).obuf = (s.obuf.writeBytes 0 bs).keepBelow bs.length := rfl
@[simp] theorem setOutput_arg (bs : List Byte) (n : Nat) : (s.setOutput bs n).arg = s.arg := rfl
@[simp] theorem setOutput_result (bs : List Byte) (n : Nat) : (s.setOutput bs n).result = s.result := rfl
@[simp] theorem setOutput_cause (bs : List Byte) (n : Nat) : (s.setOutput bs n).cause = s.cause := rfl
@[simp] theorem setOutput_esticky (bs : List Byte) (n : Nat) : (s.setOutput bs n).esticky = s.esticky := rfl
@[simp] theorem setOutput_olen (bs : List Byte) (n : Nat) : (s.setOutput bs n).olen = BitVec.ofNat 32 bs.length := rfl
@[simp] theorem setOutput_ocnt (bs : List Byte) (n : Nat) : (s.setOutput bs n).ocnt = BitVec.ofNat 32 n := rfl
@[simp] theorem setOutput_params (bs : List Byte) (n : Nat) : (s.setOutput bs n).params = s.params := rfl
@[simp] theorem setOutput_pending (bs : List Byte) (n : Nat) : (s.setOutput bs n).pending = s.pending := rfl
@[simp] theorem setOutput_busRead (bs : List Byte) (n : Nat) : (s.setOutput bs n).busRead = s.busRead := rfl
@[simp] theorem setOutput_dreg (bs : List Byte) (n : Nat) (q : DReg) : (s.setOutput bs n).dreg q = s.dreg q := rfl

/-! `State.clearSticky` -/

@[simp] theorem clearSticky_dregs : (s.clearSticky).dregs = s.dregs := rfl
@[simp] theorem clearSticky_store : (s.clearSticky).store = s.store := rfl
@[simp] theorem clearSticky_obuf : (s.clearSticky).obuf = s.obuf := rfl
@[simp] theorem clearSticky_arg : (s.clearSticky).arg = s.arg := rfl
@[simp] theorem clearSticky_result : (s.clearSticky).result = s.result := rfl
@[simp] theorem clearSticky_cause : (s.clearSticky).cause = s.cause := rfl
@[simp] theorem clearSticky_esticky : (s.clearSticky).esticky = 0 := rfl
@[simp] theorem clearSticky_olen : (s.clearSticky).olen = s.olen := rfl
@[simp] theorem clearSticky_ocnt : (s.clearSticky).ocnt = s.ocnt := rfl
@[simp] theorem clearSticky_params : (s.clearSticky).params = s.params := rfl
@[simp] theorem clearSticky_pending : (s.clearSticky).pending = s.pending := rfl
@[simp] theorem clearSticky_busRead : (s.clearSticky).busRead = s.busRead := rfl
@[simp] theorem clearSticky_dreg (q : DReg) : (s.clearSticky).dreg q = s.dreg q := rfl

/-! `State.raise` -/

@[simp] theorem raise_dregs (c : FaultCode) : (s.raise c).dregs = s.dregs := rfl
@[simp] theorem raise_store (c : FaultCode) : (s.raise c).store = s.store := rfl
@[simp] theorem raise_obuf (c : FaultCode) : (s.raise c).obuf = s.obuf := rfl
@[simp] theorem raise_arg (c : FaultCode) : (s.raise c).arg = s.arg := rfl
@[simp] theorem raise_result (c : FaultCode) : (s.raise c).result = s.result := rfl
@[simp] theorem raise_cause (c : FaultCode) : (s.raise c).cause = BitVec.ofNat 8 c.number := rfl
@[simp] theorem raise_esticky (c : FaultCode) : (s.raise c).esticky = s.esticky ||| BitVec.ofNat 8 (2 ^ c.number) := rfl
@[simp] theorem raise_olen (c : FaultCode) : (s.raise c).olen = s.olen := rfl
@[simp] theorem raise_ocnt (c : FaultCode) : (s.raise c).ocnt = s.ocnt := rfl
@[simp] theorem raise_params (c : FaultCode) : (s.raise c).params = s.params := rfl
@[simp] theorem raise_pending (c : FaultCode) : (s.raise c).pending = s.pending := rfl
@[simp] theorem raise_busRead (c : FaultCode) : (s.raise c).busRead = s.busRead := rfl
@[simp] theorem raise_dreg (c : FaultCode) (q : DReg) : (s.raise c).dreg q = s.dreg q := rfl

/-! `State.complete` -/

@[simp] theorem complete_dregs : (s.complete).dregs = s.dregs := rfl
@[simp] theorem complete_store : (s.complete).store = s.store := rfl
@[simp] theorem complete_obuf : (s.complete).obuf = s.obuf := rfl
@[simp] theorem complete_arg : (s.complete).arg = s.arg := rfl
@[simp] theorem complete_result : (s.complete).result = s.result := rfl
@[simp] theorem complete_cause : (s.complete).cause = 0 := rfl
@[simp] theorem complete_esticky : (s.complete).esticky = s.esticky := rfl
@[simp] theorem complete_olen : (s.complete).olen = s.olen := rfl
@[simp] theorem complete_ocnt : (s.complete).ocnt = s.ocnt := rfl
@[simp] theorem complete_params : (s.complete).params = s.params := rfl
@[simp] theorem complete_pending : (s.complete).pending = s.pending := rfl
@[simp] theorem complete_busRead : (s.complete).busRead = s.busRead := rfl
@[simp] theorem complete_dreg (q : DReg) : (s.complete).dreg q = s.dreg q := rfl

/-! `State.hostRead` -/

@[simp] theorem hostRead_dregs (r : CtrlReg) : (s.hostRead r).dregs = s.dregs := rfl
@[simp] theorem hostRead_store (r : CtrlReg) : (s.hostRead r).store = s.store := rfl
@[simp] theorem hostRead_obuf (r : CtrlReg) : (s.hostRead r).obuf = s.obuf := rfl
@[simp] theorem hostRead_arg (r : CtrlReg) : (s.hostRead r).arg = s.arg := rfl
@[simp] theorem hostRead_result (r : CtrlReg) : (s.hostRead r).result = s.result := rfl
@[simp] theorem hostRead_cause (r : CtrlReg) : (s.hostRead r).cause = s.cause := rfl
@[simp] theorem hostRead_esticky (r : CtrlReg) : (s.hostRead r).esticky = s.esticky := rfl
@[simp] theorem hostRead_olen (r : CtrlReg) : (s.hostRead r).olen = s.olen := rfl
@[simp] theorem hostRead_ocnt (r : CtrlReg) : (s.hostRead r).ocnt = s.ocnt := rfl
@[simp] theorem hostRead_params (r : CtrlReg) : (s.hostRead r).params = s.params := rfl
@[simp] theorem hostRead_pending (r : CtrlReg) : (s.hostRead r).pending = s.pending := rfl
@[simp] theorem hostRead_busRead (r : CtrlReg) : (s.hostRead r).busRead = some (s.readCtrl r) := rfl
@[simp] theorem hostRead_dreg (r : CtrlReg) (q : DReg) : (s.hostRead r).dreg q = s.dreg q := rfl

/-! `State.hostWriteArg` -/

@[simp] theorem hostWriteArg_dregs (v : DWord) : (s.hostWriteArg v).dregs = s.dregs := rfl
@[simp] theorem hostWriteArg_store (v : DWord) : (s.hostWriteArg v).store = s.store := rfl
@[simp] theorem hostWriteArg_obuf (v : DWord) : (s.hostWriteArg v).obuf = s.obuf := rfl
@[simp] theorem hostWriteArg_arg (v : DWord) : (s.hostWriteArg v).arg = v := rfl
@[simp] theorem hostWriteArg_result (v : DWord) : (s.hostWriteArg v).result = s.result := rfl
@[simp] theorem hostWriteArg_cause (v : DWord) : (s.hostWriteArg v).cause = s.cause := rfl
@[simp] theorem hostWriteArg_esticky (v : DWord) : (s.hostWriteArg v).esticky = s.esticky := rfl
@[simp] theorem hostWriteArg_olen (v : DWord) : (s.hostWriteArg v).olen = s.olen := rfl
@[simp] theorem hostWriteArg_ocnt (v : DWord) : (s.hostWriteArg v).ocnt = s.ocnt := rfl
@[simp] theorem hostWriteArg_params (v : DWord) : (s.hostWriteArg v).params = s.params := rfl
@[simp] theorem hostWriteArg_pending (v : DWord) : (s.hostWriteArg v).pending = s.pending := rfl
@[simp] theorem hostWriteArg_busRead (v : DWord) : (s.hostWriteArg v).busRead = s.busRead := rfl
@[simp] theorem hostWriteArg_dreg (v : DWord) (q : DReg) : (s.hostWriteArg v).dreg q = s.dreg q := rfl

/-! Reading a digit register after writing one. -/

@[simp] theorem setDreg_dreg_same (r : DReg) (ds : Digits) : (s.setDreg r ds).dreg r = ds := by
  simp [State.dreg, State.setDreg]

theorem setDreg_dreg_other {r q : DReg} (h : q ≠ r) (ds : Digits) : (s.setDreg r ds).dreg q = s.dreg q := by
  have : (r : Nat) ≠ q := fun e => h (Fin.ext e.symm)
  simp [State.dreg, State.setDreg, this]

theorem setDreg_dreg (r q : DReg) (ds : Digits) :
    (s.setDreg r ds).dreg q = if q = r then ds else s.dreg q := by
  split
  · next h => subst h; exact setDreg_dreg_same s q ds
  · next h => exact setDreg_dreg_other s h ds

/-! The two lists of a storage. -/

variable (st : ListStore)

@[simp] theorem setDesc_nodes (l : ListId) (d : ListDesc) : (st.setDesc l d).nodes = st.nodes := by cases l <;> rfl
@[simp] theorem setDesc_desc_same (l : ListId) (d : ListDesc) : (st.setDesc l d).desc l = d := by cases l <;> rfl
theorem setDesc_desc_other {st : ListStore} {l q : ListId} (h : q ≠ l) (d : ListDesc) :
    (st.setDesc l d).desc q = st.desc q := by
  cases l <;> cases q <;> first | rfl | exact absurd rfl h
@[simp] theorem setNode_nodes (p : Ptr) (n : Node) : (st.setNode p n).nodes = st.nodes.set p.toNat n := rfl
@[simp] theorem setNode_desc (p : Ptr) (n : Node) (l : ListId) : (st.setNode p n).desc l = st.desc l := by cases l <;> rfl

/-! How a command ends (R170, R171). -/

@[simp] theorem settle_ok (t : State) : s.settle (.ok t) = .next t.complete := rfl
@[simp] theorem settle_outcome (c : FaultCode) : s.settle (.error (.outcome c)) = .next (s.raise c) := rfl
@[simp] theorem settle_broken (f : Fault) : s.settle (.error (.broken f)) = .fault f := rfl

/-- Everything `settle` can do when it answers a next state. -/
theorem settle_next {s t : State} {r : Except Stop State} (h : s.settle r = .next t) :
    (∃ u, r = .ok u ∧ t = u.complete) ∨ (∃ c, r = .error (.outcome c) ∧ t = s.raise c) := by
  unfold State.settle at h
  split at h
  · next u => exact .inl ⟨u, rfl, by cases h; rfl⟩
  · next c => exact .inr ⟨c, rfl, by cases h; rfl⟩
  · cases h

/-- `settle` never refuses. -/
theorem settle_not_refused {s : State} {r : Except Stop State} {q : Refusal} : s.settle r ≠ .refused q := by
  unfold State.settle
  split <;> exact fun h => nomatch h

/-! The small lemmas of `Except`, with which the body of a meaning is read. -/

@[simp] theorem except_ok_bind {α β : Type} (a : α) (f : α → Except Stop β) : (Except.ok a >>= f) = f a := rfl
@[simp] theorem except_error_bind {α β : Type} (e : Stop) (f : α → Except Stop β) :
    ((Except.error e : Except Stop α) >>= f) = .error e := rfl
@[simp] theorem except_pure {α : Type} (a : α) : (pure a : Except Stop α) = .ok a := rfl

/-- A sequence of two parts answers exactly when both do. -/
theorem bind_eq_ok {α β : Type} {x : Except Stop α} {f : α → Except Stop β} {b : β} :
    (x >>= f) = .ok b ↔ ∃ a, x = .ok a ∧ f a = .ok b := by
  cases x <;> simp

/-- A sequence of two parts stops with the first part's stop, or with the second's. -/
theorem bind_eq_error {α β : Type} {x : Except Stop α} {f : α → Except Stop β} {e : Stop} :
    (x >>= f) = .error e ↔ x = .error e ∨ ∃ a, x = .ok a ∧ f a = .error e := by
  cases x <;> simp

end Sys2Proof.Machine
end

