-- ==== Sys2Proof/Laws/Decimal.lean ====
section
/-! SUPPORT. What the digit-sequence functions compute (R99, R101, R104, R106), once for each: the value, the length, that
every digit stays a decimal digit, and that a product is normalised. -/

namespace Sys2Proof.Machine

open Sys2Proof

/-! Values of digit sequences (R12). -/

@[simp] theorem digitsVal_nil : digitsVal [] = 0 := rfl
@[simp] theorem digitsVal_cons (d : Digit) (ds : Digits) : digitsVal (d :: ds) = d.toNat + 10 * digitsVal ds := rfl

theorem digitsVal_append (xs ys : Digits) : digitsVal (xs ++ ys) = digitsVal xs + 10 ^ xs.length * digitsVal ys := by
  induction xs with
  | nil => simp
  | cons x xs ih => simp [ih, pow_succ]; ring

theorem digitsOk_cons {d : Digit} {ds : Digits} : DigitsOk (d :: ds) ↔ d.toNat ≤ 9 ∧ DigitsOk ds := by
  simp [DigitsOk]

theorem digitsOk_nil : DigitsOk [] := by intro d hd; simp at hd

theorem digitsOk_one {d : Digit} (h : d.toNat ≤ 9) : DigitsOk [d] := by
  intro e he; rw [List.mem_singleton.mp he]; exact h

theorem digitsOk_tail {ds : Digits} (h : DigitsOk ds) : DigitsOk ds.tail :=
  fun d hd => h d (List.mem_of_mem_tail hd)

theorem digitsOk_headD {ds : Digits} (h : DigitsOk ds) : (ds.headD 0).toNat ≤ 9 := by
  cases ds with
  | nil => simp
  | cons d ds => exact h d (by simp)

theorem digitsVal_headD_tail (ds : Digits) : (ds.headD 0).toNat + 10 * digitsVal ds.tail = digitsVal ds := by
  cases ds <;> simp

theorem digitsVal_lt {ds : Digits} (h : DigitsOk ds) : digitsVal ds < 10 ^ ds.length := by
  induction ds with
  | nil => simp
  | cons d ds ih =>
    obtain ⟨h1, h2⟩ := digitsOk_cons.mp h
    have := ih h2
    simp only [digitsVal_cons, List.length_cons, pow_succ]
    omega

theorem digitsOk_replicate_zero (n : Nat) : DigitsOk (List.replicate n 0) := by
  intro d hd; rw [List.eq_of_mem_replicate hd]; simp

theorem digitsVal_replicate_zero (n : Nat) : digitsVal (List.replicate n 0) = 0 := by
  induction n with
  | zero => rfl
  | succ n ih => rw [List.replicate_succ, digitsVal_cons, ih]; rfl

/-! Addition (R99). -/

theorem addPosition_spec {x y : Digit} {c : Nat} (hx : x.toNat ≤ 9) (hy : y.toNat ≤ 9) (hc : c ≤ 1) :
    (addPosition x y c).1.toNat ≤ 9 ∧ (addPosition x y c).2 ≤ 1 ∧
      (addPosition x y c).1.toNat + 10 * (addPosition x y c).2 = x.toNat + y.toNat + c := by
  simp only [addPosition, BitVec.toNat_ofNat]
  omega

/-- The positions of an addition: the exact sum, decimal digits, and a length that counts the final carry. -/
theorem addPositions_spec (m : Nat) (a b : Digits) (c : Nat) (ha : DigitsOk a) (hb : DigitsOk b) (hc : c ≤ 1)
    (hla : a.length ≤ m) (hlb : b.length ≤ m) :
    digitsVal (addPositions m a b c) = digitsVal a + digitsVal b + c ∧ DigitsOk (addPositions m a b c) ∧
      (addPositions m a b c).length = if 10 ^ m ≤ digitsVal a + digitsVal b + c then m + 1 else m := by
  induction m generalizing a b c with
  | zero =>
    have ea : a = [] := List.length_eq_zero_iff.mp (by omega)
    have eb : b = [] := List.length_eq_zero_iff.mp (by omega)
    subst ea eb
    have : c = 0 ∨ c = 1 := by omega
    rcases this with rfl | rfl
    · exact ⟨rfl, digitsOk_nil, rfl⟩
    · exact ⟨rfl, digitsOk_one (by simp), rfl⟩
  | succ m ih =>
    have hp := addPosition_spec (digitsOk_headD ha) (digitsOk_headD hb) hc
    obtain ⟨i1, i2, i3⟩ := ih a.tail b.tail (addPosition (a.headD 0) (b.headD 0) c).2 (digitsOk_tail ha)
      (digitsOk_tail hb) hp.2.1 (by simp only [List.length_tail]; omega) (by simp only [List.length_tail]; omega)
    have va := digitsVal_headD_tail a
    have vb := digitsVal_headD_tail b
    simp only [addPositions]
    refine ⟨?_, digitsOk_cons.mpr ⟨hp.1, i2⟩, ?_⟩
    · rw [digitsVal_cons, i1]; omega
    · rw [List.length_cons, i3]
      have e : (10 ^ (m + 1) ≤ digitsVal a + digitsVal b + c) ↔
          (10 ^ m ≤ digitsVal a.tail + digitsVal b.tail + (addPosition (a.headD 0) (b.headD 0) c).2) := by
        rw [pow_succ]; omega
      simp only [e]
      split <;> rfl

theorem addPosition_comm (x y : Digit) (c : Nat) : addPosition x y c = addPosition y x c := by
  simp [addPosition, Nat.add_comm x.toNat]

theorem addPositions_comm (m : Nat) (a b : Digits) (c : Nat) : addPositions m a b c = addPositions m b a c := by
  induction m generalizing a b c with
  | zero => rfl
  | succ m ih => simp only [addPositions, addPosition_comm (a.headD 0)]; rw [ih]

/-- `dadd` (R99): the sum, or AllocationFailure when max(la, lb) + 1 exceeds `DCAP` (R87). -/
theorem dadd_spec {dcap : Nat} {a b : Digits} (ha : DigitsOk a) (hb : DigitsOk b) :
    (dcap < max a.length b.length + 1 ∧ dadd dcap a b = .error (.outcome .allocationFailure)) ∨
    (max a.length b.length + 1 ≤ dcap ∧ ∃ r, dadd dcap a b = .ok r ∧ digitsVal r = digitsVal a + digitsVal b ∧
      DigitsOk r ∧ r.length = max a.length b.length +
        (if 10 ^ max a.length b.length ≤ digitsVal a + digitsVal b then 1 else 0)) := by
  by_cases h : dcap < max a.length b.length + 1
  · exact .inl ⟨h, by simp only [dadd, allocCheck, if_pos h]; rfl⟩
  · have key := addPositions_spec (max a.length b.length) a b 0 ha hb (by simp) (by omega) (by omega)
    refine .inr ⟨by omega, _, ?_, by simpa using key.1, key.2.1, ?_⟩
    · simp only [dadd, allocCheck, if_neg h, except_ok_bind, except_pure]
    · rw [key.2.2]; simp only [Nat.add_zero]; split <;> rfl

/-- `dadd` is symmetric, digits and fault alike (R100). -/
theorem dadd_comm (dcap : Nat) (a b : Digits) : dadd dcap a b = dadd dcap b a := by
  simp [dadd, Nat.max_comm a.length, addPositions_comm _ a b]

/-! Subtraction (R101). -/

theorem subPosition_spec {x y : Digit} {b : Nat} (hx : x.toNat ≤ 9) (hy : y.toNat ≤ 9) (hb : b ≤ 1) :
    (subPosition x y b).1.toNat ≤ 9 ∧ (subPosition x y b).2 ≤ 1 ∧
      (subPosition x y b).1.toNat + y.toNat + b = x.toNat + 10 * (subPosition x y b).2 := by
  simp only [subPosition]
  split
  · simp only [BitVec.toNat_ofInt]; omega
  · simp only [BitVec.toNat_ofInt]; omega

/-- The positions of a subtraction: the difference up to one final borrow, which is dropped. -/
theorem subPositions_spec (m : Nat) (x y : Digits) (b : Nat) (hx : DigitsOk x) (hy : DigitsOk y) (hb : b ≤ 1)
    (hlx : x.length ≤ m) (hly : y.length ≤ m) :
    (subPositions m x y b).length = m ∧ DigitsOk (subPositions m x y b) ∧
      ∃ k ≤ 1, digitsVal (subPositions m x y b) + digitsVal y + b = digitsVal x + 10 ^ m * k := by
  induction m generalizing x y b with
  | zero =>
    have ex : x = [] := List.length_eq_zero_iff.mp (by omega)
    have ey : y = [] := List.length_eq_zero_iff.mp (by omega)
    subst ex ey
    exact ⟨rfl, digitsOk_nil, b, hb, by simp [subPositions]⟩
  | succ m ih =>
    have hp := subPosition_spec (digitsOk_headD hx) (digitsOk_headD hy) hb
    obtain ⟨i1, i2, k, i3, i4⟩ := ih x.tail y.tail (subPosition (x.headD 0) (y.headD 0) b).2 (digitsOk_tail hx)
      (digitsOk_tail hy) hp.2.1 (by simp only [List.length_tail]; omega) (by simp only [List.length_tail]; omega)
    have vx := digitsVal_headD_tail x
    have vy := digitsVal_headD_tail y
    simp only [subPositions]
    refine ⟨by rw [List.length_cons, i1], digitsOk_cons.mpr ⟨hp.1, i2⟩, k, i3, ?_⟩
    rw [digitsVal_cons, pow_succ]
    have : 10 ^ m * 10 * k = 10 * (10 ^ m * k) := by ring
    omega

theorem minuend_subtrahend_length (a b : Digits) :
    (minuend a b).length = max a.length b.length ∧ (subtrahend a b).length ≤ (minuend a b).length := by
  unfold minuend subtrahend; split <;> omega

/-- `dsub` (R101, R103): the difference of the longer operand and the other one modulo 10^lx, lx digits long. -/
theorem dsub_spec {dcap : Nat} {a b : Digits} (ha : DigitsOk a) (hb : DigitsOk b) (hla : a.length ≤ dcap)
    (hlb : b.length ≤ dcap) :
    ∃ r, dsub dcap a b = .ok r ∧ DigitsOk r ∧ r.length = max a.length b.length ∧
      (digitsVal r : Int) =
        ((digitsVal (minuend a b) : Int) - digitsVal (subtrahend a b)) % 10 ^ (minuend a b).length := by
  obtain ⟨hm, hs⟩ := minuend_subtrahend_length a b
  have hx : DigitsOk (minuend a b) := by unfold minuend; split <;> assumption
  have hy : DigitsOk (subtrahend a b) := by unfold subtrahend; split <;> assumption
  obtain ⟨k1, k2, k, k3, k4⟩ := subPositions_spec (minuend a b).length (minuend a b) (subtrahend a b) 0 hx hy
    (by simp) (Nat.le_refl _) hs
  refine ⟨_, ?_, k2, k1.trans hm, ?_⟩
  · have : ¬ dcap < (minuend a b).length := by omega
    simp only [dsub, allocCheck, if_neg this, except_ok_bind, except_pure]
  · have hlt := digitsVal_lt k2
    rw [k1] at hlt
    have e : (digitsVal (minuend a b) : Int) - digitsVal (subtrahend a b) =
        digitsVal (subPositions (minuend a b).length (minuend a b) (subtrahend a b) 0) +
          10 ^ (minuend a b).length * (-(k : Int)) := by
      have : (digitsVal (subPositions (minuend a b).length (minuend a b) (subtrahend a b) 0) : Int) +
          digitsVal (subtrahend a b) = digitsVal (minuend a b) + 10 ^ (minuend a b).length * k := by exact_mod_cast k4
      linarith
    rw [e, Int.add_mul_emod_self_left, Int.emod_eq_of_lt (by positivity) (by exact_mod_cast hlt)]

/-- Where the minuend's value is not the smaller one, the result is the difference itself (R103). -/
theorem dsub_exact {dcap : Nat} {a b : Digits} (ha : DigitsOk a) (hb : DigitsOk b) (hla : a.length ≤ dcap)
    (hlb : b.length ≤ dcap) (hle : digitsVal (subtrahend a b) ≤ digitsVal (minuend a b)) :
    ∃ r, dsub dcap a b = .ok r ∧ DigitsOk r ∧ r.length = max a.length b.length ∧
      digitsVal r = digitsVal (minuend a b) - digitsVal (subtrahend a b) := by
  obtain ⟨r, h1, h2, h3, h4⟩ := dsub_spec ha hb hla hlb
  refine ⟨r, h1, h2, h3, ?_⟩
  have hx : DigitsOk (minuend a b) := by unfold minuend; split <;> assumption
  have hlt : (digitsVal (minuend a b) : Int) < 10 ^ (minuend a b).length := by exact_mod_cast digitsVal_lt hx
  rw [Int.emod_eq_of_lt (by omega) (by omega)] at h4
  omega

/-! Multiplication (R104, R106). -/

theorem injectPosition_spec {cell : Digit} {v c : Nat} (hd : cell.toNat ≤ 9) (hc : c ≤ 1) :
    (injectPosition cell v c).1.toNat ≤ 9 ∧ (injectPosition cell v c).2 ≤ 1 ∧
      (injectPosition cell v c).1.toNat + 10 * (injectPosition cell v c).2 = cell.toNat + v % 10 + c := by
  simp only [injectPosition, BitVec.toNat_ofNat]
  omega

/-- The rippling of R106 where the buffer has room for the sum. -/
theorem injectHere_spec (buf : Digits) (v c : Nat) (hb : DigitsOk buf) (hc : c ≤ 1)
    (hroom : digitsVal buf + v + c < 10 ^ buf.length) :
    digitsVal (injectHere buf v c) = digitsVal buf + v + c ∧ DigitsOk (injectHere buf v c) ∧
      (injectHere buf v c).length = buf.length := by
  induction buf generalizing v c with
  | nil =>
    simp at hroom
    exact ⟨by simp [injectHere, hroom.1, hroom.2], digitsOk_nil, rfl⟩
  | cons d ds ih =>
    obtain ⟨hd, hds⟩ := digitsOk_cons.mp hb
    unfold injectHere
    split
    · next h => exact ⟨by rw [h.1, h.2]; rfl, hb, rfl⟩
    · have hp := injectPosition_spec (v := v) hd hc
      have hroom' : digitsVal ds + v / 10 + (injectPosition d v c).2 < 10 ^ ds.length := by
        simp only [digitsVal_cons, List.length_cons, pow_succ] at hroom
        omega
      obtain ⟨i1, i2, i3⟩ := ih (v / 10) (injectPosition d v c).2 hds hp.2.1 hroom'
      refine ⟨?_, digitsOk_cons.mpr ⟨hp.1, i2⟩, by simp [i3]⟩
      simp only [digitsVal_cons, i1]
      omega

/-- `inject(buf, k, v)` adds v * 10^k to the number the buffer denotes (R106). -/
theorem inject_spec (buf : Digits) (k v : Nat) (hb : DigitsOk buf) (hk : k < buf.length)
    (hroom : digitsVal buf + v * 10 ^ k < 10 ^ buf.length) :
    digitsVal (inject buf k v) = digitsVal buf + v * 10 ^ k ∧ DigitsOk (inject buf k v) ∧
      (inject buf k v).length = buf.length := by
  induction k generalizing buf with
  | zero =>
    have := injectHere_spec buf v 0 hb (by simp) (by simpa using hroom)
    cases buf <;> simpa [inject] using this
  | succ k ih =>
    cases buf with
    | nil => simp at hk
    | cons d ds =>
      obtain ⟨hd, hds⟩ := digitsOk_cons.mp hb
      have e : v * 10 ^ (k + 1) = 10 * (v * 10 ^ k) := by ring
      have hroom' : digitsVal ds + v * 10 ^ k < 10 ^ ds.length := by
        rw [e, digitsVal_cons, List.length_cons, pow_succ] at hroom
        omega
      obtain ⟨i1, i2, i3⟩ := ih ds hds (by simpa using hk) hroom'
      refine ⟨?_, digitsOk_cons.mpr ⟨hd, i2⟩, by simp [inject, i3]⟩
      simp only [inject, digitsVal_cons, i1, e]
      ring

/-- The inner loop of R104. -/
theorem mulRow_spec (bs : Digits) (buf : Digits) (k : Nat) (ai : Digit) (hb : DigitsOk buf)
    (hk : k + bs.length < buf.length)
    (hroom : digitsVal buf + ai.toNat * digitsVal bs * 10 ^ k < 10 ^ buf.length) :
    digitsVal (mulRow buf k ai bs) = digitsVal buf + ai.toNat * digitsVal bs * 10 ^ k ∧
      DigitsOk (mulRow buf k ai bs) ∧ (mulRow buf k ai bs).length = buf.length := by
  induction bs generalizing buf k with
  | nil => simpa [mulRow] using hb
  | cons b bs ih =>
    have e : ai.toNat * digitsVal (b :: bs) * 10 ^ k =
        ai.toNat * b.toNat * 10 ^ k + ai.toNat * digitsVal bs * 10 ^ (k + 1) := by
      rw [digitsVal_cons, pow_succ]; ring
    rw [e] at hroom ⊢
    obtain ⟨j1, j2, j3⟩ := inject_spec buf k (ai.toNat * b.toNat) hb (by omega)
      (Nat.lt_of_le_of_lt (by omega) hroom)
    obtain ⟨i1, i2, i3⟩ := ih (inject buf k (ai.toNat * b.toNat)) (k + 1) j2
      (by rw [j3]; simp at hk; omega) (by rw [j1, j3]; omega)
    exact ⟨by rw [mulRow, i1, j1]; omega, i2, by rw [mulRow, i3, j3]⟩

/-- The outer loop of R104. -/
theorem mulRows_spec (as : Digits) (b : Digits) (buf : Digits) (i : Nat) (hb : DigitsOk buf)
    (hi : i + as.length + b.length < buf.length + 1)
    (hroom : digitsVal buf + digitsVal as * digitsVal b * 10 ^ i < 10 ^ buf.length) :
    digitsVal (mulRows buf i as b) = digitsVal buf + digitsVal as * digitsVal b * 10 ^ i ∧
      DigitsOk (mulRows buf i as b) ∧ (mulRows buf i as b).length = buf.length := by
  induction as generalizing buf i with
  | nil => simpa [mulRows] using hb
  | cons a as ih =>
    have e : digitsVal (a :: as) * digitsVal b * 10 ^ i =
        a.toNat * digitsVal b * 10 ^ i + digitsVal as * digitsVal b * 10 ^ (i + 1) := by
      rw [digitsVal_cons, pow_succ]; ring
    rw [e] at hroom ⊢
    simp only [List.length_cons] at hi
    obtain ⟨j1, j2, j3⟩ := mulRow_spec b buf i a hb (by omega) (Nat.lt_of_le_of_lt (by omega) hroom)
    obtain ⟨i1, i2, i3⟩ := ih (mulRow buf i a b) (i + 1) j2 (by rw [j3]; omega) (by rw [j1, j3]; omega)
    exact ⟨by rw [mulRows, i1, j1]; omega, i2, by rw [mulRows, i3, j3]⟩

/-! Normalised sequences (R18, R104). -/

theorem trimZeros_val (ds : Digits) : digitsVal (trimZeros ds) = digitsVal ds := by
  induction ds with
  | nil => rfl
  | cons d ds ih =>
    unfold trimZeros
    split
    · next h =>
      rw [h, digitsVal_nil] at ih
      split
      · next e => rw [e, digitsVal_cons, ← ih]; rfl
      · rw [digitsVal_cons, digitsVal_cons, ← ih]; rfl
    · next h => rw [h] at ih; rw [digitsVal_cons, ih, digitsVal_cons]

theorem trimZeros_mem {ds : Digits} {d : Digit} (h : d ∈ trimZeros ds) : d ∈ ds := by
  induction ds with
  | nil => exact h
  | cons e es ih =>
    unfold trimZeros at h
    split at h
    · split at h
      · simp at h
      · simp at h; simp [h]
    · next g =>
      rw [g] at ih
      rcases List.mem_cons.mp h with h | h
      · simp [h]
      · exact List.mem_cons_of_mem _ (ih h)

theorem trimZeros_last (ds : Digits) : trimZeros ds = [] ∨ ∃ d, (trimZeros ds).getLast? = some d ∧ d ≠ 0 := by
  induction ds with
  | nil => exact .inl rfl
  | cons d ds ih =>
    unfold trimZeros
    split
    · split
      · exact .inl rfl
      · next h => exact .inr ⟨d, rfl, h⟩
    · next h =>
      rw [h] at ih
      rcases ih with h' | ⟨e, h1, h2⟩
      · cases h'
      · exact .inr ⟨e, by rw [List.getLast?_cons_cons]; exact h1, h2⟩

theorem normalise_val (ds : Digits) : digitsVal (normalise ds) = digitsVal ds := by
  have := trimZeros_val ds
  unfold normalise
  split
  · next h => rw [h] at this; simpa using this
  · next h => rw [h] at this; exact this

theorem normalise_ok {ds : Digits} (h : DigitsOk ds) : DigitsOk (normalise ds) := by
  unfold normalise
  split
  · intro d hd; rw [List.mem_singleton.mp hd]; simp
  · next g => intro d hd; exact h d (trimZeros_mem (g ▸ hd))

theorem normalise_normalised (ds : Digits) : Normalised (normalise ds) := by
  rcases trimZeros_last ds with h | ⟨d, h1, h2⟩
  · exact .inl (by simp [normalise, h])
  · refine .inr ⟨d, ?_, h2⟩
    unfold normalise
    split
    · next h => rw [h] at h1; simp at h1
    · next h => rw [h] at h1; exact h1

theorem Normalised.ne_nil {ds : Digits} (h : Normalised ds) : ds ≠ [] := by
  rcases h with h | ⟨d, h, _⟩
  · simp [h]
  · rintro rfl; simp at h

/-- A normalised sequence of more than one digit is at least the power of ten of its top position. -/
theorem Normalised.pow_le {ds : Digits} (h : Normalised ds) : ds.length = 1 ∨ 10 ^ (ds.length - 1) ≤ digitsVal ds := by
  rcases h with h | ⟨d, h, hd⟩
  · exact .inl (by simp [h])
  · right
    obtain ⟨es, rfl⟩ := List.getLast?_eq_some_iff.mp h
    have hd' : 1 ≤ d.toNat := by
      rcases Nat.eq_zero_or_pos d.toNat with e | e
      · exact absurd (BitVec.eq_of_toNat_eq (by simpa using e)) hd
      · exact e
    rw [digitsVal_append]
    simp only [List.length_append, List.length_singleton, Nat.add_sub_cancel, digitsVal_cons, digitsVal_nil]
    have : 10 ^ es.length * 1 ≤ 10 ^ es.length * (d.toNat + 10 * 0) := Nat.mul_le_mul_left _ (by omega)
    omega

/-- A normalised sequence is as short as its value allows. -/
theorem Normalised.length_le {ds : Digits} (h : Normalised ds) {m : Nat} (hm : 0 < m) (hv : digitsVal ds < 10 ^ m) :
    ds.length ≤ m := by
  rcases h.pow_le with e | e
  · omega
  · by_contra hlt
    have : 10 ^ m ≤ 10 ^ (ds.length - 1) := Nat.pow_le_pow_right (by simp) (by omega)
    omega

theorem digits_ext {xs ys : Digits} (hx : DigitsOk xs) (hy : DigitsOk ys) (hl : xs.length = ys.length)
    (hv : digitsVal xs = digitsVal ys) : xs = ys := by
  induction xs generalizing ys with
  | nil => exact (List.length_eq_zero_iff.mp hl.symm).symm
  | cons x xs ih =>
    cases ys with
    | nil => simp at hl
    | cons y ys =>
      obtain ⟨hx1, hx2⟩ := digitsOk_cons.mp hx
      obtain ⟨hy1, hy2⟩ := digitsOk_cons.mp hy
      simp only [digitsVal_cons] at hv
      rw [ih hx2 hy2 (by simpa using hl) (by omega), BitVec.eq_of_toNat_eq (x := x) (y := y) (by omega)]

/-- A number has one normalised sequence. -/
theorem Normalised.ext {xs ys : Digits} (hx : Normalised xs) (hy : Normalised ys) (hxo : DigitsOk xs)
    (hyo : DigitsOk ys) (hv : digitsVal xs = digitsVal ys) : xs = ys := by
  have px := List.length_pos_iff.mpr hx.ne_nil
  have py := List.length_pos_iff.mpr hy.ne_nil
  have h1 := hx.length_le py (by rw [hv]; exact digitsVal_lt hyo)
  have h2 := hy.length_le px (by rw [← hv]; exact digitsVal_lt hxo)
  exact digits_ext hxo hyo (by omega) hv

/-- A sequence whose value needs its top position is normalised. -/
theorem normalised_of_pow_le {ds : Digits} (h : DigitsOk ds) (hne : ds ≠ [])
    (hv : ds.length = 1 ∨ 10 ^ (ds.length - 1) ≤ digitsVal ds) : Normalised ds := by
  obtain ⟨es, d, rfl⟩ := (List.eq_nil_or_concat ds).resolve_left hne
  simp only [List.concat_eq_append] at *
  by_cases hd : d = 0
  · subst hd
    have hes : DigitsOk es := fun e he => h e (by simp [he])
    have := digitsVal_lt hes
    rw [digitsVal_append] at hv
    simp at hv
    rcases hv with e | e
    · subst e; exact .inl rfl
    · omega
  · exact .inr ⟨d, by simp, hd⟩

/-- The sum of two normalised sequences is normalised (R100, R118). -/
theorem sum_normalised {a b r : Digits} (ha : Normalised a) (hb : Normalised b) (hr : DigitsOk r)
    (hv : digitsVal r = digitsVal a + digitsVal b)
    (hl : r.length = max a.length b.length +
      (if 10 ^ max a.length b.length ≤ digitsVal a + digitsVal b then 1 else 0)) : Normalised r := by
  have pa := List.length_pos_iff.mpr ha.ne_nil
  have pb := List.length_pos_iff.mpr hb.ne_nil
  refine normalised_of_pow_le hr (fun e => by subst e; simp at hl; omega) ?_
  split at hl
  · next h => right; rw [hl, hv, Nat.add_sub_cancel]; exact h
  · rcases Nat.le_total a.length b.length with h | h
    · rw [Nat.add_zero, Nat.max_eq_right h] at hl
      rw [hl]
      exact hb.pow_le.imp id (fun g => by omega)
    · rw [Nat.add_zero, Nat.max_eq_left h] at hl
      rw [hl]
      exact ha.pow_le.imp id (fun g => by omega)

/-- `dmul` (R104): the product, normalised, or AllocationFailure when la + lb + 1 exceeds `DCAP` (R87). -/
theorem dmul_spec {dcap : Nat} {a b : Digits} (ha : DigitsOk a) (hb : DigitsOk b) :
    (dcap < a.length + b.length + 1 ∧ dmul dcap a b = .error (.outcome .allocationFailure)) ∨
    (a.length + b.length + 1 ≤ dcap ∧ ∃ r, dmul dcap a b = .ok r ∧ digitsVal r = digitsVal a * digitsVal b ∧
      DigitsOk r ∧ Normalised r) := by
  by_cases h : dcap < a.length + b.length + 1
  · exact .inl ⟨h, by simp only [dmul, allocCheck, if_pos h]; rfl⟩
  · have hlt : digitsVal a * digitsVal b < 10 ^ (a.length + b.length + 1) := by
      have h1 := digitsVal_lt ha
      have h2 := digitsVal_lt hb
      have h3 : digitsVal a * digitsVal b ≤ 10 ^ a.length * 10 ^ b.length := Nat.mul_le_mul h1.le h2.le
      have h4 : 10 ^ a.length * 10 ^ b.length < 10 ^ (a.length + b.length + 1) := by
        rw [← pow_add]; exact Nat.pow_lt_pow_right (by simp) (by omega)
      omega
    obtain ⟨i1, i2, _⟩ := mulRows_spec a b (List.replicate (a.length + b.length + 1) 0) 0
      (digitsOk_replicate_zero _) (by simp)
      (by rw [digitsVal_replicate_zero, List.length_replicate]; simpa using hlt)
    refine .inr ⟨by omega, _, ?_, ?_, normalise_ok i2, normalise_normalised _⟩
    · simp only [dmul, allocCheck, if_neg h, except_ok_bind, except_pure]
    · rw [normalise_val, i1, digitsVal_replicate_zero]; simp

/-- The length of a product: no more than the two lengths together. -/
theorem product_length_le {a b r : Digits} (ha : DigitsOk a) (hb : DigitsOk b) (hna : a ≠ []) (hr : Normalised r)
    (hv : digitsVal r = digitsVal a * digitsVal b) : r.length ≤ a.length + b.length := by
  have pa := List.length_pos_iff.mpr hna
  refine hr.length_le (by omega) ?_
  rw [hv, pow_add]
  have h1 := digitsVal_lt ha
  have h2 := digitsVal_lt hb
  rcases Nat.eq_zero_or_pos (digitsVal b) with e | e
  · rw [e]; positivity
  · exact Nat.lt_of_lt_of_le (Nat.mul_lt_mul_of_pos_right h1 e) (Nat.mul_le_mul_left _ h2.le)

end Sys2Proof.Machine
end

