-- ==== Sys2Proof/Laws/Encoding.lean ====
section
/-! SUPPORT. The fields of a word laid out as R66 has them, the masks of the table as fields (R73), and that a row is hit by
its own words only (R72, R74). -/

namespace Sys2Proof

/-- A word from its six fields (R66). -/
def fields (op : BitVec 8) (rd ra rb : BitVec 4) (z : BitVec 8) (imm : BitVec 4) : Word :=
  op ++ rd ++ ra ++ rb ++ z ++ imm

theorem layout_eq_fields (o : Op) (rd ra rb imm : BitVec 4) : layout o rd ra rb imm = fields o.code rd ra rb 0 imm := rfl

section
variable (op z : BitVec 8) (rd ra rb imm : BitVec 4)

theorem opField_fields : opField (fields op rd ra rb z imm) = op := by
  rw [opField, fields, BitVec.extractLsb'_append_eq_of_le (by omega), BitVec.extractLsb'_append_eq_of_le (by omega),
    BitVec.extractLsb'_append_eq_of_le (by omega), BitVec.extractLsb'_append_eq_of_le (by omega),
    BitVec.extractLsb'_append_eq_of_le (by omega)]
  simp

theorem rdBits_fields : (fields op rd ra rb z imm).extractLsb' 20 4 = rd := by
  rw [fields, BitVec.extractLsb'_append_eq_of_le (by omega), BitVec.extractLsb'_append_eq_of_le (by omega),
    BitVec.extractLsb'_append_eq_of_le (by omega), BitVec.extractLsb'_append_eq_of_le (by omega),
    BitVec.extractLsb'_append_eq_of_add_le (by omega)]
  simp

theorem raBits_fields : (fields op rd ra rb z imm).extractLsb' 16 4 = ra := by
  rw [fields, BitVec.extractLsb'_append_eq_of_le (by omega), BitVec.extractLsb'_append_eq_of_le (by omega),
    BitVec.extractLsb'_append_eq_of_le (by omega), BitVec.extractLsb'_append_eq_of_add_le (by omega)]
  simp

theorem rbBits_fields : (fields op rd ra rb z imm).extractLsb' 12 4 = rb := by
  rw [fields, BitVec.extractLsb'_append_eq_of_le (by omega), BitVec.extractLsb'_append_eq_of_le (by omega),
    BitVec.extractLsb'_append_eq_of_add_le (by omega)]
  simp

theorem zBits_fields : (fields op rd ra rb z imm).extractLsb' 4 8 = z := by
  rw [fields, BitVec.extractLsb'_append_eq_of_le (by omega), BitVec.extractLsb'_append_eq_of_add_le (by omega)]
  simp

theorem immBits_fields : (fields op rd ra rb z imm).extractLsb' 0 4 = imm := by
  rw [fields, BitVec.extractLsb'_append_eq_of_add_le (by omega)]
  simp

theorem ltBit_fields : (fields op rd ra rb z imm).getLsbD 20 = rd.getLsbD 0 := by
  rw [fields, BitVec.getLsbD_append, BitVec.getLsbD_append, BitVec.getLsbD_append, BitVec.getLsbD_append,
    BitVec.getLsbD_append]
  rfl

theorem lsBit_fields : (fields op rd ra rb z imm).getLsbD 16 = ra.getLsbD 0 := by
  rw [fields, BitVec.getLsbD_append, BitVec.getLsbD_append, BitVec.getLsbD_append, BitVec.getLsbD_append]
  rfl

theorem rdField_fields : rdField (fields op rd ra rb z imm) = rd.toFin := by rw [rdField, rdBits_fields]
theorem raField_fields : raField (fields op rd ra rb z imm) = ra.toFin := by rw [raField, raBits_fields]
theorem rbField_fields : rbField (fields op rd ra rb z imm) = rb.toFin := by rw [rbField, rbBits_fields]
theorem immField_fields : immField (fields op rd ra rb z imm) = imm.toNat := by rw [immField, immBits_fields]
theorem ltField_fields : ltField (fields op rd ra rb z imm) = listOfBit (rd.getLsbD 0) := by rw [ltField, ltBit_fields]
theorem lsField_fields : lsField (fields op rd ra rb z imm) = listOfBit (ra.getLsbD 0) := by rw [lsField, lsBit_fields]

theorem fields_and (op' z' : BitVec 8) (rd' ra' rb' imm' : BitVec 4) :
    fields op rd ra rb z imm &&& fields op' rd' ra' rb' z' imm' =
      fields (op &&& op') (rd &&& rd') (ra &&& ra') (rb &&& rb') (z &&& z') (imm &&& imm') := by
  simp only [fields]
  rw [BitVec.and_append, BitVec.and_append, BitVec.and_append, BitVec.and_append, BitVec.and_append]

/-- A word is its six fields and nothing else. -/
theorem fields_inj {op' z' : BitVec 8} {rd' ra' rb' imm' : BitVec 4} :
    fields op rd ra rb z imm = fields op' rd' ra' rb' z' imm' ↔
      op = op' ∧ rd = rd' ∧ ra = ra' ∧ rb = rb' ∧ z = z' ∧ imm = imm' := by
  constructor
  · intro h
    refine ⟨?_, ?_, ?_, ?_, ?_, ?_⟩
    · rw [← opField_fields op z rd ra rb imm, h, opField_fields]
    · rw [← rdBits_fields op z rd ra rb imm, h, rdBits_fields]
    · rw [← raBits_fields op z rd ra rb imm, h, raBits_fields]
    · rw [← rbBits_fields op z rd ra rb imm, h, rbBits_fields]
    · rw [← zBits_fields op z rd ra rb imm, h, zBits_fields]
    · rw [← immBits_fields op z rd ra rb imm, h, immBits_fields]
  · rintro ⟨rfl, rfl, rfl, rfl, rfl, rfl⟩; rfl

end

/-- Every word is six fields. -/
theorem exists_fields (w : Word) : ∃ op rd ra rb z imm, w = fields op rd ra rb z imm := by
  refine ⟨w.extractLsb' 24 8, w.extractLsb' 20 4, w.extractLsb' 16 4, w.extractLsb' 12 4, w.extractLsb' 4 8,
    w.extractLsb' 0 4, ?_⟩
  refine BitVec.eq_of_getLsbD_eq fun i hi => ?_
  simp only [fields, BitVec.getLsbD_append, BitVec.getLsbD_extractLsb']
  by_cases h0 : i < 4
  · simp [h0]
  by_cases h1 : i < 12
  · simp [h0, show i - 4 < 8 by omega, show 4 + (i - 4) = i by omega]
  by_cases h2 : i < 16
  · simp [h0, show ¬ i - 4 < 8 by omega, show i - 4 - 8 < 4 by omega, show 12 + (i - 4 - 8) = i by omega]
  by_cases h3 : i < 20
  · simp [h0, show ¬ i - 4 < 8 by omega, show ¬ i - 4 - 8 < 4 by omega, show i - 4 - 8 - 4 < 4 by omega,
      show 16 + (i - 4 - 8 - 4) = i by omega]
  by_cases h4 : i < 24
  · simp [h0, show ¬ i - 4 < 8 by omega, show ¬ i - 4 - 8 < 4 by omega, show ¬ i - 4 - 8 - 4 < 4 by omega,
      show i - 4 - 8 - 4 - 4 < 4 by omega, show 20 + (i - 4 - 8 - 4 - 4) = i by omega]
  · simp [h0, show ¬ i - 4 < 8 by omega, show ¬ i - 4 - 8 < 4 by omega, show ¬ i - 4 - 8 - 4 < 4 by omega,
      show ¬ i - 4 - 8 - 4 - 4 < 4 by omega, show i - 4 - 8 - 4 - 4 - 4 < 8 by omega,
      show 24 + (i - 4 - 8 - 4 - 4 - 4) = i by omega]

/-! The masks of the table as fields (R73). -/

/-- The mask of a format, field by field. -/
def Format.maskFields : Format → BitVec 4 × BitVec 4 × BitVec 4 × BitVec 4
  | .z => (0xF, 0xF, 0xF, 0xF)
  | .d => (0, 0xF, 0xF, 0xF)
  | .a => (0xF, 0, 0xF, 0xF)
  | .di => (0, 0xF, 0xF, 0)
  | .da => (0, 0, 0xF, 0xF)
  | .dab => (0, 0, 0, 0xF)
  | .t => (0xE, 0xF, 0xF, 0xF)
  | .s => (0xF, 0xE, 0xF, 0xF)
  | .ts => (0xE, 0xE, 0xF, 0xF)

theorem mask_eq_fields (o : Op) : o.mask =
    fields 0xFF o.format.maskFields.1 o.format.maskFields.2.1 o.format.maskFields.2.2.1 0xFF
      o.format.maskFields.2.2.2 := by
  cases o <;> rfl

theorem pattern_eq_fields (o : Op) : o.pattern = fields o.code 0 0 0 0 0 := by
  cases o <;> rfl

/-- What hitting a row says of a word, field by field (R67, R72, R73). -/
theorem hits_fields (o : Op) (op z : BitVec 8) (rd ra rb imm : BitVec 4) :
    o.hits (fields op rd ra rb z imm) = true ↔
      op = o.code ∧ rd &&& o.format.maskFields.1 = 0 ∧ ra &&& o.format.maskFields.2.1 = 0 ∧
        rb &&& o.format.maskFields.2.2.1 = 0 ∧ z = 0 ∧ imm &&& o.format.maskFields.2.2.2 = 0 := by
  have h1 : ∀ x : BitVec 8, x &&& 0xFF = x := fun x => BitVec.and_allOnes
  rw [Op.hits, beq_iff_eq, mask_eq_fields, pattern_eq_fields, fields_and, fields_inj, h1, h1]

theorem mem_all (o : Op) : o ∈ Op.all := by cases o <;> decide

theorem op_code_injective {o o' : Op} (h : o.code = o'.code) : o = o' := by
  have key : ∀ o ∈ Op.all, ∀ o' ∈ Op.all, o.code = o'.code → o = o' := by decide
  exact key o (mem_all o) o' (mem_all o') h

/-- At most one row is hit by a word (R74). -/
theorem hits_unique {o o' : Op} {w : Word} (h : o.hits w = true) (h' : o'.hits w = true) : o = o' := by
  obtain ⟨op, rd, ra, rb, z, imm, rfl⟩ := exists_fields w
  exact op_code_injective ((((hits_fields ..).mp h).1).symm.trans ((hits_fields ..).mp h').1)

/-- The row a word hits is the one the decoder finds. -/
theorem find_of_hits {o : Op} {w : Word} (h : o.hits w = true) : Op.all.find? (fun o => o.hits w) = some o := by
  cases hf : Op.all.find? (fun o => o.hits w) with
  | none => exact absurd h (by simpa using List.find?_eq_none.mp hf o (mem_all o))
  | some o' =>
    have h' : o'.hits w = true := by simpa using List.find?_some hf
    rw [hits_unique h' h]

theorem decode_of_hits {o : Op} {w : Word} (h : o.hits w = true) : decode w = .ok (o.build w) := by
  simp [decode, find_of_hits h]

/-- A word decodes exactly when it hits a row, and then to what that row builds (R74). -/
theorem decode_eq_ok {w : Word} {i : Instr} : decode w = .ok i ↔ ∃ o, Op.hits o w = true ∧ o.build w = i := by
  constructor
  · intro h
    unfold decode at h
    split at h
    · next o hf => exact ⟨o, by simpa using List.find?_some hf, by cases h; rfl⟩
    · cases h
  · rintro ⟨o, h, rfl⟩; exact decode_of_hits h

/-! Registers and lists through their fields (R70). -/

theorem regBits_toFin (r : DReg) : (regBits r).toFin = r := rfl
theorem regBits_of_toFin (x : BitVec 4) : regBits x.toFin = x := rfl
theorem listBits_bit (l : ListId) : listOfBit ((listBits l).getLsbD 0) = l := by cases l <;> rfl
theorem listBits_high (l : ListId) : listBits l &&& 0xE = 0 := by cases l <;> rfl
theorem listBits_of_bit {x : BitVec 4} (h : x &&& 0xE = 0) : listBits (listOfBit (x.getLsbD 0)) = x := by
  revert h; revert x; decide
theorem and_ones_eq_zero {x : BitVec 4} (h : x &&& 0xF = 0) : x = 0 := by
  revert h; revert x; decide

end Sys2Proof
end

