-- ==== Sys2Proof/Laws/Operands.lean ====
section
/-! SUPPORT. What each operand form can do: the operand, or the one fault its check raises. -/

namespace Sys2Proof.Machine

open Sys2Proof

variable (s : State)

theorem operand_spec (r : DReg) :
    (s.dreg r = [] ∧ operand s r = .error (.outcome .emptyOperand)) ∨
    (s.dreg r ≠ [] ∧ operand s r = .ok (s.dreg r)) := by
  unfold operand
  cases s.dreg r <;> simp

theorem operand_ok {s : State} {r : DReg} (h : s.dreg r ≠ []) : operand s r = .ok (s.dreg r) := by
  rcases operand_spec s r with ⟨e, _⟩ | ⟨_, e⟩
  · exact absurd e h
  · exact e

theorem operand_empty {s : State} {r : DReg} (h : s.dreg r = []) : operand s r = .error (.outcome .emptyOperand) := by
  rcases operand_spec s r with ⟨_, e⟩ | ⟨e, _⟩
  · exact e
  · exact absurd h e

theorem digitImm_spec (imm : Nat) :
    (9 < imm ∧ digitImm imm = .error (.outcome .illegalOperand)) ∨
    (imm ≤ 9 ∧ digitImm imm = .ok (BitVec.ofNat 4 imm)) := by
  unfold digitImm
  split
  · next h => exact .inl ⟨h, rfl⟩
  · next h => exact .inr ⟨Nat.le_of_not_lt h, rfl⟩

theorem elementIndex_spec (n : Nat) :
    (n ≤ s.arg.toNat ∧ elementIndex s n = .error (.outcome .indexRange)) ∨
    (s.arg.toNat < n ∧ elementIndex s n = .ok s.arg.toNat) := by
  unfold elementIndex
  split
  · next h => exact .inr ⟨h, rfl⟩
  · next h => exact .inl ⟨Nat.le_of_not_lt h, rfl⟩

theorem limbValue_spec :
    (limbBase ≤ s.arg.toNat ∧ limbValue s = .error (.outcome .illegalOperand)) ∨
    (s.arg.toNat < limbBase ∧ limbValue s = .ok s.arg) := by
  unfold limbValue
  split
  · next h => exact .inl ⟨h, rfl⟩
  · next h => exact .inr ⟨Nat.lt_of_not_le h, rfl⟩

theorem fibIndex_spec :
    (s.arg.toInt < 0 ∧ fibIndex s = .error (.outcome .invalidIndex)) ∨
    (∃ n : Nat, s.arg.toInt = n ∧ fibIndex s = .ok n) := by
  unfold fibIndex
  split
  · next h => exact .inl ⟨h, rfl⟩
  · next h => exact .inr ⟨s.arg.toInt.toNat, by omega, rfl⟩

theorem fibIndex_ok {s : State} {n : Nat} (h : s.arg.toInt = n) : fibIndex s = .ok n := by
  rcases fibIndex_spec s with ⟨e, _⟩ | ⟨m, e, e'⟩
  · omega
  · have : m = n := by omega
    rw [e', this]

theorem fibIndex_negative {s : State} (h : s.arg.toInt < 0) : fibIndex s = .error (.outcome .invalidIndex) := by
  simp [fibIndex, h]

theorem allocCheck_spec (dcap n : Nat) :
    (dcap < n ∧ allocCheck dcap n = .error (.outcome .allocationFailure)) ∨
    (n ≤ dcap ∧ allocCheck dcap n = .ok ()) := by
  unfold allocCheck
  split
  · next h => exact .inl ⟨h, rfl⟩
  · next h => exact .inr ⟨Nat.le_of_not_lt h, rfl⟩

end Sys2Proof.Machine
end

