-- ==== Sys2Proof/Laws/Exec.lean ====
section
/-! SUPPORT. What a command can do, said once: it stops with a fault of the spec and leaves the state `State.raise` gives,
or it completes with the writes `Wrote` lists for it. -/

namespace Sys2Proof.Machine

open Sys2Proof

/-- The writes of each command that completes: u is the state it leaves, before `CAUSE` is cleared. -/
def Wrote (i : Instr) (s u : State) : Prop :=
  match i with
  | .nop => u = s
  | .clrerr => u = s.clearSticky
  | .dset rd imm => imm ≤ 9 ∧ u = s.setDreg rd [BitVec.ofNat 4 imm]
  | .dpush rd imm => s.dreg rd ≠ [] ∧ imm ≤ 9 ∧ (s.dreg rd).length + 1 ≤ s.params.dcap ∧
      u = s.setDreg rd (s.dreg rd ++ [BitVec.ofNat 4 imm])
  | .dfree rd => u = s.setDreg rd []
  | .dmov rd ra => s.dreg ra ≠ [] ∧ u = s.setDreg rd (s.dreg ra)
  | .dlen ra => u = s.setResult (BitVec.ofNat 64 (s.dreg ra).length)
  | .drd ra => s.arg.toNat < (s.dreg ra).length ∧ u = s.setResult (((s.dreg ra).getD s.arg.toNat 0).setWidth 64)
  | .dadd rd ra rb => s.dreg ra ≠ [] ∧ s.dreg rb ≠ [] ∧
      ∃ r, dadd s.params.dcap (s.dreg ra) (s.dreg rb) = .ok r ∧ u = s.setDreg rd r
  | .dsub rd ra rb => s.dreg ra ≠ [] ∧ s.dreg rb ≠ [] ∧
      ∃ r, dsub s.params.dcap (s.dreg ra) (s.dreg rb) = .ok r ∧ u = s.setDreg rd r
  | .dmul rd ra rb => s.dreg ra ≠ [] ∧ s.dreg rb ≠ [] ∧
      ∃ r, dmul s.params.dcap (s.dreg ra) (s.dreg rb) = .ok r ∧ u = s.setDreg rd r
  | .fibd rd => ∃ (n : Nat) (r : Digits), s.arg.toInt = n ∧ fibDigits s.params.dcap n = .ok r ∧ u = s.setDreg rd r
  | .denc ra => s.dreg ra ≠ [] ∧ u = s.setOutput (packDigits (s.dreg ra)) (s.dreg ra).length
  | .ord => s.arg.toNat < s.olen.toNat ∧ ∃ v, s.obuf.read s.arg.toNat = some v ∧ u = s.setResult (v.setWidth 64)
  | .lclr lt => ∃ st, s.store.clear lt = .ok st ∧ u = s.setStore st
  | .lapp lt => s.arg.toNat < limbBase ∧ ∃ p st, s.store.append lt s.arg = .ok (p, st) ∧ u = s.setStore st
  | .lacc lt ls => lt ≠ ls ∧ ∃ st, s.store.accumulate lt ls = .ok st ∧ u = s.setStore st
  | .lcnt ls => u = s.setResult (BitVec.ofNat 64 (s.store.desc ls).cnt)
  | .lrd ls => s.arg.toNat < (s.store.desc ls).cnt ∧
      ∃ v, ListStore.limbFrom s.store.nodes s.arg.toNat (s.store.desc ls).head = .ok v ∧ u = s.setResult v
  | .lfib => ∃ (k : Nat) (st : ListStore), s.arg.toInt = k ∧ s.store.fib k = .ok st ∧
      u = (s.setStore st).setResult (BitVec.ofNat 64 (k % 2))
  | .lstr ls => ∃ bytes, s.store.chars ls = .ok bytes ∧ u = s.setOutput bytes bytes.length

theorem operand_eq_ok {s : State} {r : DReg} {a : Digits} : operand s r = .ok a ↔ s.dreg r ≠ [] ∧ a = s.dreg r := by
  rcases operand_spec s r with ⟨e, h⟩ | ⟨e, h⟩
  · simp [h, e]
  · simp [h, e, eq_comm]

theorem digitImm_eq_ok {imm : Nat} {d : Digit} : digitImm imm = .ok d ↔ imm ≤ 9 ∧ d = BitVec.ofNat 4 imm := by
  rcases digitImm_spec imm with ⟨e, h⟩ | ⟨e, h⟩
  · simp [h]; omega
  · simp [h, e, eq_comm]

theorem elementIndex_eq_ok {s : State} {n k : Nat} : elementIndex s n = .ok k ↔ s.arg.toNat < n ∧ k = s.arg.toNat := by
  rcases elementIndex_spec s n with ⟨e, h⟩ | ⟨e, h⟩
  · simp [h]; omega
  · simp [h, e, eq_comm]

theorem limbValue_eq_ok {s : State} {v : DWord} : limbValue s = .ok v ↔ s.arg.toNat < limbBase ∧ v = s.arg := by
  rcases limbValue_spec s with ⟨e, h⟩ | ⟨e, h⟩
  · simp [h]; omega
  · simp [h, e, eq_comm]

theorem fibIndex_eq_ok {s : State} {n : Nat} : fibIndex s = .ok n ↔ s.arg.toInt = n := by
  rcases fibIndex_spec s with ⟨e, h⟩ | ⟨m, e, h⟩
  · simp [h]; omega
  · simp [h, e]

theorem allocCheck_eq_ok {dcap n : Nat} {x : Unit} : allocCheck dcap n = .ok x ↔ n ≤ dcap := by
  rcases allocCheck_spec dcap n with ⟨e, h⟩ | ⟨e, h⟩
  · simp [h]; omega
  · simp [h, e]

theorem distinctLists_eq_ok {lt ls : ListId} {x : Unit} : distinctLists lt ls = .ok x ↔ lt ≠ ls := by
  unfold distinctLists; split <;> simp [*]

theorem heldByte_eq_ok {m : Memory} {a : Nat} {v : Byte} : heldByte m a = .ok v ↔ m.read a = some v := by
  unfold heldByte; cases m.read a <;> simp

/-- Everything a command can do when it answers a next state. -/
theorem exec_next {i : Instr} {s t : State} (h : exec i s = .next t) :
    (∃ u, Wrote i s u ∧ t = u.complete) ∨ (∃ c, t = s.raise c) := by
  have key : ∀ r : Except Stop State, exec i s = s.settle r → (∀ u, r = .ok u → Wrote i s u) →
      (∃ u, Wrote i s u ∧ t = u.complete) ∨ (∃ c, t = s.raise c) := by
    intro r hr hw
    rw [hr] at h
    rcases settle_next h with ⟨u, e, e'⟩ | ⟨c, _, e'⟩
    · exact .inl ⟨u, hw u e, e'⟩
    · exact .inr ⟨c, e'⟩
  cases i <;> first
    | refine key (.ok _) rfl fun u hu => ?_
    | refine key _ rfl fun u hu => ?_
  all_goals
    simp only [bind_eq_ok, operand_eq_ok, digitImm_eq_ok, elementIndex_eq_ok, limbValue_eq_ok, fibIndex_eq_ok,
      allocCheck_eq_ok, distinctLists_eq_ok, heldByte_eq_ok, except_pure, Except.ok.injEq, Prod.exists] at hu
    simp only [Wrote]
  case nop => exact hu.symm
  case clrerr => exact hu.symm
  case dset => obtain ⟨d, ⟨h1, rfl⟩, rfl⟩ := hu; exact ⟨h1, rfl⟩
  case dpush => obtain ⟨a, ⟨h1, rfl⟩, d, ⟨h2, rfl⟩, _, h3, rfl⟩ := hu; exact ⟨h1, h2, h3, rfl⟩
  case dfree => exact hu.symm
  case dmov => obtain ⟨a, ⟨h1, rfl⟩, rfl⟩ := hu; exact ⟨h1, rfl⟩
  case dlen => exact hu.symm
  case drd => obtain ⟨a, ⟨h1, rfl⟩, k, ⟨h2, rfl⟩, rfl⟩ := hu; exact ⟨h2, rfl⟩
  case dadd => obtain ⟨a, ⟨h1, rfl⟩, b, ⟨h2, rfl⟩, r, h3, rfl⟩ := hu; exact ⟨h1, h2, r, h3, rfl⟩
  case dsub => obtain ⟨a, ⟨h1, rfl⟩, b, ⟨h2, rfl⟩, r, h3, rfl⟩ := hu; exact ⟨h1, h2, r, h3, rfl⟩
  case dmul => obtain ⟨a, ⟨h1, rfl⟩, b, ⟨h2, rfl⟩, r, h3, rfl⟩ := hu; exact ⟨h1, h2, r, h3, rfl⟩
  case fibd => obtain ⟨n, h1, r, h2, rfl⟩ := hu; exact ⟨n, r, h1, h2, rfl⟩
  case denc => obtain ⟨a, ⟨h1, rfl⟩, rfl⟩ := hu; exact ⟨h1, rfl⟩
  case ord => obtain ⟨a, ⟨h1, rfl⟩, v, h2, rfl⟩ := hu; exact ⟨h1, v, h2, rfl⟩
  case lclr => obtain ⟨st, h1, rfl⟩ := hu; exact ⟨st, h1, rfl⟩
  case lapp => obtain ⟨v, ⟨h1, rfl⟩, p, st, h2, rfl⟩ := hu; exact ⟨h1, p, st, h2, rfl⟩
  case lacc => obtain ⟨_, h1, st, h2, rfl⟩ := hu; exact ⟨h1, st, h2, rfl⟩
  case lcnt => exact hu.symm
  case lrd => obtain ⟨i, ⟨h1, rfl⟩, v, h2, rfl⟩ := hu; exact ⟨h1, v, h2, rfl⟩
  case lfib => obtain ⟨k, h1, st, h2, rfl⟩ := hu; exact ⟨k, st, h1, h2, rfl⟩
  case lstr => obtain ⟨b, h1, rfl⟩ := hu; exact ⟨b, h1, rfl⟩

end Sys2Proof.Machine
end

