-- ==== Sys2Proof/Laws/Lists.lean ====
section
/-! SUPPORT. What the operations on nodes and pointers do to lists that satisfy R29, once for each operation: allocation,
tail insertion, release, the walks, and what a sequence of limbs reads as. -/

namespace Sys2Proof.Machine

open Sys2Proof

/-! Pointers and indices. -/

theorem ptrOf_toNat {p : Nat} (h : p < 65535) : (ptrOf p).toNat = p := by
  simp [ptrOf]; omega

theorem ptrOf_ne_nil {p : Nat} (h : p < 65535) : ptrOf p ≠ nilPtr := by
  intro e
  have := congrArg BitVec.toNat e
  rw [ptrOf_toNat h] at this
  simp [nilPtr] at this
  omega

theorem nodeAt_some {nodes : List Node} {p : Nat} {n : Node} (h : nodes[p]? = some n) (hp : p < 65535) :
    nodeAt nodes (ptrOf p) = .ok n := by
  simp [nodeAt, ptrOf_toNat hp, h]

theorem lt_length_of_getElem? {nodes : List Node} {p : Nat} {n : Node} (h : nodes[p]? = some n) :
    p < nodes.length := by
  obtain ⟨h', _⟩ := List.getElem?_eq_some_iff.mp h
  exact h'

/-- The limb of the node with this index. -/
def limbAt (nodes : List Node) (p : Nat) : DWord := ((nodes[p]?).map Node.val).getD 0

/-- The limbs of the nodes with these indices. -/
def limbsAt (nodes : List Node) (ps : List Nat) : List DWord := ps.map (limbAt nodes)

@[simp] theorem limbsAt_nil (nodes : List Node) : limbsAt nodes [] = [] := rfl
@[simp] theorem limbsAt_cons (nodes : List Node) (p : Nat) (ps : List Nat) :
    limbsAt nodes (p :: ps) = limbAt nodes p :: limbsAt nodes ps := rfl
@[simp] theorem limbsAt_append (nodes : List Node) (ps qs : List Nat) :
    limbsAt nodes (ps ++ qs) = limbsAt nodes ps ++ limbsAt nodes qs := by simp [limbsAt]
@[simp] theorem limbsAt_length (nodes : List Node) (ps : List Nat) : (limbsAt nodes ps).length = ps.length := by
  simp [limbsAt]

theorem limbAt_some {nodes : List Node} {p : Nat} {n : Node} (h : nodes[p]? = some n) : limbAt nodes p = n.val := by
  simp [limbAt, h]

theorem limbAt_set_same {nodes : List Node} {p : Nat} (n : Node) (h : p < nodes.length) :
    limbAt (nodes.set p n) p = n.val := by
  simp [limbAt, h]

theorem limbAt_set_other {nodes : List Node} {p q : Nat} (n : Node) (h : q ≠ p) :
    limbAt (nodes.set p n) q = limbAt nodes q := by
  simp [limbAt, Ne.symm h]

theorem limbsAt_congr {nodes nodes' : List Node} {ps : List Nat}
    (h : ∀ p ∈ ps, limbAt nodes' p = limbAt nodes p) : limbsAt nodes' ps = limbsAt nodes ps :=
  List.map_congr_left h

/-! Linked runs of nodes. -/

theorem lastPtr_append (before : Ptr) (ps qs : List Nat) :
    lastPtr before (ps ++ qs) = lastPtr (lastPtr before ps) qs := by
  induction ps generalizing before with
  | nil => rfl
  | cons p ps ih => exact ih _

@[simp] theorem lastPtr_snoc (before : Ptr) (ps : List Nat) (p : Nat) : lastPtr before (ps ++ [p]) = ptrOf p := by
  simp [lastPtr_append, lastPtr]

/-- The pointer a run is followed by: its continuation's first node, or `after`. -/
def nextPtr (after : Ptr) : List Nat → Ptr
  | [] => after
  | q :: _ => ptrOf q

theorem firstPtr_eq_nextPtr (ps : List Nat) : firstPtr ps = nextPtr nilPtr ps := by cases ps <;> rfl

theorem linked_cons {nodes : List Node} {before after : Ptr} {p : Nat} {ps : List Nat} :
    Linked nodes before after (p :: ps) ↔
      ∃ n, nodes[p]? = some n ∧ n.used = true ∧ n.prev = before ∧ n.val.toNat < limbBase ∧
        n.next = nextPtr after ps ∧ Linked nodes (ptrOf p) after ps := by
  cases ps <;> rfl

theorem linked_append {nodes : List Node} {before after : Ptr} {ps qs : List Nat} :
    Linked nodes before after (ps ++ qs) ↔
      Linked nodes before (nextPtr after qs) ps ∧ Linked nodes (lastPtr before ps) after qs := by
  induction ps generalizing before with
  | nil => simp [Linked, lastPtr]
  | cons p ps ih =>
    have hn : nextPtr after (ps ++ qs) = nextPtr (nextPtr after qs) ps := by cases ps <;> rfl
    simp only [List.cons_append, linked_cons, ih, lastPtr, hn]
    constructor
    · rintro ⟨n, h1, h2, h3, h4, h5, h6, h7⟩
      exact ⟨⟨n, h1, h2, h3, h4, h5, h6⟩, h7⟩
    · rintro ⟨⟨n, h1, h2, h3, h4, h5, h6⟩, h7⟩
      exact ⟨n, h1, h2, h3, h4, h5, h6, h7⟩

theorem linked_congr {nodes nodes' : List Node} {before after : Ptr} {ps : List Nat}
    (h : ∀ p ∈ ps, nodes'[p]? = nodes[p]?) (hl : Linked nodes before after ps) : Linked nodes' before after ps := by
  induction ps generalizing before with
  | nil => trivial
  | cons p ps ih =>
    obtain ⟨n, h1, h2, h3, h4, h5, h6⟩ := linked_cons.mp hl
    exact linked_cons.mpr ⟨n, by rw [h p (by simp), h1], h2, h3, h4, h5,
      ih (fun q hq => h q (by simp [hq])) h6⟩

/-- Writing a limb below 10^18 into a node changes no link. -/
theorem linked_set_val {nodes : List Node} {before after : Ptr} {ps : List Nat} {p : Nat} {n : Node} {v : DWord}
    (hn : nodes[p]? = some n) (hv : v.toNat < limbBase) (hl : Linked nodes before after ps) :
    Linked (nodes.set p { n with val := v }) before after ps := by
  induction ps generalizing before with
  | nil => trivial
  | cons q qs ih =>
    obtain ⟨m, h1, h2, h3, h4, h5, h6⟩ := linked_cons.mp hl
    have hp := lt_length_of_getElem? hn
    by_cases e : q = p
    · subst e
      cases h1.symm.trans hn
      exact linked_cons.mpr ⟨{ n with val := v }, by simp [hp], h2, h3, hv, h5, ih h6⟩
    · exact linked_cons.mpr ⟨m, by simp [Ne.symm e, h1], h2, h3, h4, h5, ih h6⟩

theorem linked_lt {nodes : List Node} {before after : Ptr} {ps : List Nat} (hl : Linked nodes before after ps) :
    ∀ p ∈ ps, p < nodes.length := by
  induction ps generalizing before with
  | nil => simp
  | cons q qs ih =>
    obtain ⟨m, h1, _, _, _, _, h6⟩ := linked_cons.mp hl
    intro p hp
    rcases List.mem_cons.mp hp with e | hp
    · rw [e]; exact lt_length_of_getElem? h1
    · exact ih h6 p hp

theorem linked_used {nodes : List Node} {before after : Ptr} {ps : List Nat} (hl : Linked nodes before after ps) :
    ∀ p ∈ ps, ∃ n, nodes[p]? = some n ∧ n.used = true ∧ n.val.toNat < limbBase := by
  induction ps generalizing before with
  | nil => simp
  | cons q qs ih =>
    obtain ⟨m, h1, h2, _, h4, _, h6⟩ := linked_cons.mp hl
    intro p hp
    rcases List.mem_cons.mp hp with e | hp
    · exact ⟨m, by rw [e]; exact h1, h2, h4⟩
    · exact ih h6 p hp

/-- The limbs of a linked run are below 10^18. -/
theorem linked_limbs_lt {nodes : List Node} {before after : Ptr} {ps : List Nat} (hl : Linked nodes before after ps) :
    ∀ v ∈ limbsAt nodes ps, v.toNat < limbBase := by
  intro v hv
  obtain ⟨p, hp, rfl⟩ := List.mem_map.mp hv
  obtain ⟨n, h1, _, h3⟩ := linked_used hl p hp
  rw [limbAt_some h1]; exact h3

/-! Storages that satisfy R29. -/

/-- The nodes of the two lists, one list's replaced. -/
def withNodes (ps : ListId → List Nat) (l : ListId) (qs : List Nat) : ListId → List Nat :=
  fun q => if q = l then qs else ps q

@[simp] theorem withNodes_same (ps : ListId → List Nat) (l : ListId) (qs : List Nat) : withNodes ps l qs l = qs := by
  simp [withNodes]
theorem withNodes_other {ps : ListId → List Nat} {l q : ListId} (h : q ≠ l) (qs : List Nat) :
    withNodes ps l qs q = ps q := by simp [withNodes, h]
@[simp] theorem withNodes_withNodes (ps : ListId → List Nat) (l : ListId) (qs rs : List Nat) :
    withNodes (withNodes ps l qs) l rs = withNodes ps l rs := by
  funext q; by_cases h : q = l <;> simp [withNodes, h]
@[simp] theorem withNodes_self (ps : ListId → List Nat) (l : ListId) : withNodes ps l (ps l) = ps := by
  funext q; by_cases h : q = l <;> simp [withNodes, h]

namespace StoreAt

variable {n : Nat} {st : ListStore} {ps : ListId → List Nat}

theorem mem_lt (h : StoreAt n st ps) {l : ListId} {p : Nat} (hp : p ∈ ps l) : p < st.nodes.length :=
  linked_lt (h.lists l).linked p hp

theorem disjoint (h : StoreAt n st ps) {l q : ListId} (hlq : l ≠ q) {p : Nat} (h1 : p ∈ ps l) (h2 : p ∈ ps q) :
    False := by
  cases l <;> cases q
  · exact hlq rfl
  · exact h.apart p h1 h2
  · exact h.apart p h2 h1
  · exact hlq rfl

/-- The nodes of the two lists together are different nodes of the pool. -/
theorem length_le (h : StoreAt n st ps) : (ps .l0).length + (ps .l1).length ≤ n := by
  have hd : (ps .l0 ++ ps .l1).Nodup :=
    List.nodup_append.mpr ⟨(h.lists .l0).nodup, (h.lists .l1).nodup, fun a h0 b h1 e => h.apart a h0 (e ▸ h1)⟩
  have hs : (ps .l0 ++ ps .l1) ⊆ List.range n := by
    intro p hp
    rw [List.mem_range, ← h.size]
    rcases List.mem_append.mp hp with hp | hp
    · exact h.mem_lt hp
    · exact h.mem_lt hp
  have := (List.subperm_of_subset hd hs).length_le
  simpa using this

/-- A node on no list leaves room: the two lists do not fill the pool. -/
theorem length_lt (h : StoreAt n st ps) {p : Nat} (hp : p < n) (h0 : p ∉ ps .l0) (h1 : p ∉ ps .l1) :
    (ps .l0).length + (ps .l1).length < n := by
  have hd : (p :: (ps .l0 ++ ps .l1)).Nodup := by
    refine List.nodup_cons.mpr ⟨by simp [h0, h1], ?_⟩
    exact List.nodup_append.mpr
      ⟨(h.lists .l0).nodup, (h.lists .l1).nodup, fun a h0 b h1 e => h.apart a h0 (e ▸ h1)⟩
  have hs : (p :: (ps .l0 ++ ps .l1)) ⊆ List.range n := by
    intro q hq
    rw [List.mem_range]
    rcases List.mem_cons.mp hq with e | hq
    · rw [e]; exact hp
    · rw [← h.size]
      rcases List.mem_append.mp hq with hq | hq
      · exact h.mem_lt hq
      · exact h.mem_lt hq
  have := (List.subperm_of_subset hd hs).length_le
  simp at this
  omega

/-- The pool is full exactly when the two lists fill it. -/
theorem full (h : StoreAt n st ps) (hf : st.nodes.findIdx? (fun n => !n.used) = none) :
    (ps .l0).length + (ps .l1).length = n := by
  refine Nat.le_antisymm h.length_le ?_
  have hs : List.range n ⊆ (ps .l0 ++ ps .l1) := by
    intro p hp
    rw [List.mem_range, ← h.size] at hp
    have hu : st.nodes[p].used = true := by
      have := List.findIdx?_eq_none_iff.mp hf st.nodes[p] (List.getElem_mem hp)
      simpa using this
    exact List.mem_append.mpr (h.used p st.nodes[p] (List.getElem?_eq_getElem hp) hu)
  have := (List.subperm_of_subset List.nodup_range hs).length_le
  simpa using this

/-- `cnt` of a list is the number of its nodes. -/
theorem cnt_eq (h : StoreAt n st ps) (l : ListId) : (st.desc l).cnt = (ps l).length := (h.lists l).cnt

/-- `free` (R126) is what the two lists leave of the pool. -/
theorem free_eq (h : StoreAt n st ps) : st.free = n - ((ps .l0).length + (ps .l1).length) := by
  have h0 := h.cnt_eq .l0
  have h1 := h.cnt_eq .l1
  simp only [ListStore.desc] at h0 h1
  simp [ListStore.free, h.size, h0, h1, Nat.sub_sub]

end StoreAt

/-! Walking a list forward (R13, R136) and backward (R145). -/

theorem limbsFrom_linked {nodes : List Node} {before : Ptr} {ps : List Nat} (hsz : nodes.length ≤ 65535)
    (hl : Linked nodes before nilPtr ps) (fuel : Nat) (hf : ps.length ≤ fuel) :
    limbsFrom nodes fuel (firstPtr ps) = limbsAt nodes ps := by
  induction ps generalizing before fuel with
  | nil => cases fuel <;> simp [limbsFrom, firstPtr]
  | cons p ps ih =>
    obtain ⟨n, h1, _, _, _, h5, h6⟩ := linked_cons.mp hl
    have hp : p < 65535 := Nat.lt_of_lt_of_le (lt_length_of_getElem? h1) hsz
    cases fuel with
    | zero => simp at hf
    | succ fuel =>
      rw [limbsFrom, if_neg (by simpa [firstPtr] using ptrOf_ne_nil hp)]
      simp only [firstPtr, ptrOf_toNat hp, h1, h5, limbsAt_cons, limbAt_some h1]
      rw [← firstPtr_eq_nextPtr, ih h6 fuel (by simpa using hf)]

theorem limbFrom_linked {nodes : List Node} {before : Ptr} {ps : List Nat} (hsz : nodes.length ≤ 65535)
    (hl : Linked nodes before nilPtr ps) (i : Nat) (hi : i < ps.length) :
    ListStore.limbFrom nodes i (firstPtr ps) = .ok ((limbsAt nodes ps).getD i 0) := by
  induction ps generalizing before i with
  | nil => simp at hi
  | cons p ps ih =>
    obtain ⟨n, h1, _, _, _, h5, h6⟩ := linked_cons.mp hl
    have hp : p < 65535 := Nat.lt_of_lt_of_le (lt_length_of_getElem? h1) hsz
    cases i with
    | zero => simp [ListStore.limbFrom, firstPtr, nodeAt_some h1 hp, limbAt_some h1]
    | succ i =>
      simp only [ListStore.limbFrom, firstPtr, nodeAt_some h1 hp, except_ok_bind, h5]
      rw [← firstPtr_eq_nextPtr, ih h6 i (by simpa using hi)]
      simp

theorem limbsBack_linked {nodes : List Node} {ps : List Nat} (hsz : nodes.length ≤ 65535)
    (after : Ptr) (hl : Linked nodes nilPtr after ps) (fuel : Nat) (hf : ps.length ≤ fuel) :
    ListStore.limbsBack nodes fuel (lastPtr nilPtr ps) = .ok (limbsAt nodes ps).reverse := by
  induction ps using List.reverseRecOn generalizing after fuel with
  | nil => cases fuel <;> simp [ListStore.limbsBack, lastPtr]
  | append_singleton ps p ih =>
    obtain ⟨hl1, hl2⟩ := linked_append.mp hl
    obtain ⟨n, h1, _, h3, _, _, _⟩ := linked_cons.mp hl2
    have hp : p < 65535 := Nat.lt_of_lt_of_le (lt_length_of_getElem? h1) hsz
    cases fuel with
    | zero => simp at hf
    | succ fuel =>
      rw [lastPtr_snoc, ListStore.limbsBack, if_neg (ptrOf_ne_nil hp), nodeAt_some h1 hp, except_ok_bind, h3,
        ih _ hl1 fuel (by simpa using hf)]
      simp [limbAt_some h1]

/-- `seq(l)` of a storage that satisfies R29. -/
theorem StoreAt.seq_eq {n : Nat} {st : ListStore} {ps : ListId → List Nat} (h : StoreAt n st ps) (hn : n ≤ 65535)
    (l : ListId) : st.seq l = limbsAt st.nodes (ps l) := by
  have hl := h.lists l
  have hle : (ps l).length ≤ st.nodes.length := by
    have := h.length_le
    rw [h.size]
    cases l <;> omega
  rw [ListStore.seq, hl.head]
  exact limbsFrom_linked (by rw [h.size]; exact hn) hl.linked _ hle

/-! Allocation and tail insertion (R126, R127). -/

/-- Everything `append` can do on a storage that satisfies R29: with no free node it stops with AllocationFailure, and
otherwise the list has one more node, its last one, holding the limb, and nothing else has changed. -/
theorem append_spec {n : Nat} {st : ListStore} {ps : ListId → List Nat} (h : StoreAt n st ps) (hn : n ≤ 65535)
    (l : ListId) (v : DWord) (hv : v.toNat < limbBase) :
    (st.append l v = .error (.outcome .allocationFailure) ∧ (ps .l0).length + (ps .l1).length = n) ∨
    (∃ p st', st.append l v = .ok (ptrOf p, st') ∧ (ps .l0).length + (ps .l1).length < n ∧
      p ∉ ps .l0 ∧ p ∉ ps .l1 ∧ p < n ∧ StoreAt n st' (withNodes ps l (ps l ++ [p])) ∧
      st'.nodes[p]? = some ⟨v, nilPtr, lastPtr nilPtr (ps l), true⟩ ∧
      ∀ q, q ≠ p → limbAt st'.nodes q = limbAt st.nodes q) := by
  cases hf : st.nodes.findIdx? (fun n => !n.used) with
  | none =>
    exact .inl ⟨by simp [ListStore.append, ListStore.allocNode, hf], h.full hf⟩
  | some p =>
    right
    obtain ⟨hp, hfree, _⟩ := List.findIdx?_eq_some_iff_getElem.mp hf
    have hfree' : st.nodes[p].used = false := by simpa using hfree
    have hpn : p < n := h.size ▸ hp
    have hp' : p < 65535 := Nat.lt_of_lt_of_le hpn hn
    have hpn0 : ∀ q, p ∉ ps q := by
      intro q hq
      obtain ⟨m, h1, h2, _⟩ := linked_used (h.lists q).linked p hq
      rw [List.getElem?_eq_getElem hp] at h1
      cases h1
      simp [hfree'] at h2
    have hroom := h.length_lt hpn (hpn0 .l0) (hpn0 .l1)
    have hget : st.nodes[p]? = some st.nodes[p] := List.getElem?_eq_getElem hp
    have halloc : st.allocNode = .ok (ptrOf p, st.setNode (ptrOf p) { st.nodes[p] with used := true }) := by
      simp [ListStore.allocNode, hf, nodeAt_some hget hp']
    -- the storage with the new node in place, before any link to it
    let nd : Node := ⟨v, nilPtr, (st.desc l).tail, true⟩
    let st2 : ListStore := (st.setNode (ptrOf p) { st.nodes[p] with used := true }).setNode (ptrOf p) nd
    have hst2n : st2.nodes = st.nodes.set p nd := by
      simp [st2, ptrOf_toNat hp']
    have hst2d : ∀ q, st2.desc q = st.desc q := by intro q; simp [st2]
    have htail : (st.desc l).tail = lastPtr nilPtr (ps l) := (h.lists l).tail
    have hlinked := (h.lists l).linked
    -- nodes of the lists are untouched by writing node p
    have hother : ∀ q r, r ∈ ps q → st2.nodes[r]? = st.nodes[r]? := by
      intro q r hr
      have hne : p ≠ r := fun e => hpn0 q (e ▸ hr)
      rw [hst2n, List.getElem?_set_ne hne]
    have hst2p : st2.nodes[p]? = some nd := by rw [hst2n]; simp [hp]
    -- the link from the old tail
    obtain ⟨st3, hlink, hst3d, hst3p, hst3len, hst3link, hst3other, hst3limb, hst3used⟩ :
        ∃ st3, st2.linkTail l (ptrOf p) = .ok st3 ∧
          (st3.desc l).head = firstPtr (ps l ++ [p]) ∧ st3.nodes[p]? = some nd ∧
          st3.nodes.length = st.nodes.length ∧ Linked st3.nodes nilPtr (ptrOf p) (ps l) ∧
          (∀ q, q ≠ l → st3.desc q = st.desc q ∧ ∀ r ∈ ps q, st3.nodes[r]? = st.nodes[r]?) ∧
          (∀ q, limbAt st3.nodes q = limbAt st2.nodes q) ∧
          (∀ q m, st3.nodes[q]? = some m → m.used = true → q = p ∨ ∃ m', st.nodes[q]? = some m' ∧ m'.used = true) ∧
          (st3.desc l).cnt = (st.desc l).cnt := by
      rcases List.eq_nil_or_concat (ps l) with e | ⟨qs, t, e⟩
      · -- the list was empty
        refine ⟨st2.setDesc l { st2.desc l with head := ptrOf p }, ?_, ?_, ?_, ?_, ?_, ?_, ?_, ?_, ?_⟩
        · have ht : (st2.desc l).tail = nilPtr := by rw [hst2d, htail, e]; rfl
          simp [ListStore.linkTail, ht]
        · simp [e, firstPtr]
        · simpa using hst2p
        · simp [hst2n]
        · rw [e]; trivial
        · intro q hq
          refine ⟨by rw [setDesc_desc_other hq, hst2d], fun r hr => ?_⟩
          rw [setDesc_nodes]; exact hother q r hr
        · intro q; simp
        · intro q m hm hu
          by_cases e : q = p
          · exact .inl e
          · refine .inr ⟨m, ?_, hu⟩
            rw [setDesc_nodes, hst2n, List.getElem?_set_ne (Ne.symm e)] at hm
            exact hm
        · simp [hst2d]
      · -- the list had a last node t
        have e' : ps l = qs ++ [t] := by simpa using e
        have htm : t ∈ ps l := by rw [e']; simp
        have htn : t < 65535 := Nat.lt_of_lt_of_le (h.mem_lt htm) (by rw [h.size]; exact hn)
        have htp : t ≠ p := fun e => hpn0 l (e ▸ htm)
        rw [e'] at hlinked
        obtain ⟨hl1, hl2⟩ := linked_append.mp hlinked
        obtain ⟨m, m1, m2, m3, m4, m5, _⟩ := linked_cons.mp hl2
        have htl : (st2.desc l).tail = ptrOf t := by rw [hst2d, htail, e', lastPtr_snoc]
        have m1' : st2.nodes[t]? = some m := by rw [hother l t htm, m1]
        have htlen : t < st2.nodes.length := by rw [hst2n]; simpa using h.mem_lt htm
        have hnot : t ∉ qs := by
          have hd := (h.lists l).nodup
          rw [e'] at hd
          have := (List.nodup_append.mp hd).2.2
          intro hq
          exact this t hq t (by simp) rfl
        refine ⟨st2.setNode (ptrOf t) { m with next := ptrOf p }, ?_, ?_, ?_, ?_, ?_, ?_, ?_, ?_, ?_⟩
        · simp [ListStore.linkTail, htl, ptrOf_ne_nil htn, nodeAt_some m1' htn]
        · rw [setNode_desc, hst2d, (h.lists l).head, e']
          cases qs <;> rfl
        · rw [setNode_nodes, ptrOf_toNat htn, List.getElem?_set_ne htp]; exact hst2p
        · simp [hst2n]
        · rw [setNode_nodes, ptrOf_toNat htn, e']
          refine linked_append.mpr ⟨?_, ?_⟩
          · refine linked_congr (fun r hr => ?_) hl1
            have hrt : t ≠ r := fun e => hnot (e ▸ hr)
            rw [List.getElem?_set_ne hrt, hother l r (by rw [e']; simp [hr])]
          · exact linked_cons.mpr ⟨{ m with next := ptrOf p }, by simp [htlen], m2, m3, m4, rfl, trivial⟩
        · intro q hq
          refine ⟨by rw [setNode_desc, hst2d], fun r hr => ?_⟩
          have hrt : t ≠ r := fun e => h.disjoint hq hr (e ▸ htm)
          rw [setNode_nodes, ptrOf_toNat htn, List.getElem?_set_ne hrt, hother q r hr]
        · intro q
          rw [setNode_nodes, ptrOf_toNat htn]
          by_cases e : q = t
          · subst e
            rw [limbAt_set_same _ htlen, limbAt_some m1']
          · rw [limbAt_set_other _ e]
        · intro q m' hm hu
          by_cases e : q = p
          · exact .inl e
          · refine .inr ?_
            by_cases e2 : q = t
            · subst e2; exact ⟨m, m1, m2⟩
            · rw [setNode_nodes, ptrOf_toNat htn, List.getElem?_set_ne (Ne.symm e2), hst2n,
                List.getElem?_set_ne (Ne.symm e)] at hm
              exact ⟨m', hm, hu⟩
        · rw [setNode_desc, hst2d]
    obtain ⟨hst3used, hst3cnt⟩ := hst3used
    refine ⟨p, st3.setDesc l { st3.desc l with tail := ptrOf p, cnt := (st3.desc l).cnt + 1 }, ?_, hroom, hpn0 .l0,
      hpn0 .l1, hpn, ?_, ?_, ?_⟩
    · have hd : ((st.setNode (ptrOf p) { st.nodes[p] with used := true }).desc l).tail = (st.desc l).tail := by
        rw [setNode_desc]
      simp only [ListStore.append, halloc, except_ok_bind, hd]
      change (st2.linkTail l (ptrOf p) >>= _) = _
      rw [hlink]
      rfl
    · have hnd : nd = ⟨v, nilPtr, lastPtr nilPtr (ps l), true⟩ := by simp [nd, htail]
      have hlnew : Linked st3.nodes nilPtr nilPtr (ps l ++ [p]) :=
        linked_append.mpr ⟨hst3link, linked_cons.mpr ⟨nd, hst3p, rfl, by rw [hnd], hv, rfl, trivial⟩⟩
      refine ⟨by simp [hst3len, h.size], ?_, ?_, ?_⟩
      · intro q
        by_cases e : q = l
        · subst e
          rw [withNodes_same, setDesc_nodes, setDesc_desc_same]
          refine ⟨hst3d, (lastPtr_snoc _ _ _).symm, ?_, ?_, hlnew⟩
          · simp [hst3cnt, h.cnt_eq q]
          · refine List.nodup_append.mpr ⟨(h.lists q).nodup, by simp, ?_⟩
            intro a ha b hb e
            rw [List.mem_singleton.mp hb] at e
            exact hpn0 q (e ▸ ha)
        · rw [withNodes_other e, setDesc_nodes, setDesc_desc_other e, (hst3other q e).1]
          have hq := h.lists q
          exact ⟨hq.head, hq.tail, hq.cnt, hq.nodup, linked_congr (hst3other q e).2 hq.linked⟩
      · intro q h0 h1
        have key : ∀ l', q ∈ withNodes ps l (ps l ++ [p]) l' → q = p ∨ q ∈ ps l' := by
          intro l' hq
          by_cases e : l' = l
          · subst e
            rw [withNodes_same] at hq
            rcases List.mem_append.mp hq with hq | hq
            · exact .inr hq
            · exact .inl (List.mem_singleton.mp hq)
          · rw [withNodes_other e] at hq; exact .inr hq
        have pnot : ∀ l', l' ≠ l → p ∉ withNodes ps l (ps l ++ [p]) l' := by
          intro l' e; rw [withNodes_other e]; exact hpn0 l'
        rcases key .l0 h0 with e | g0
        · subst e
          cases l
          · exact pnot .l1 (by simp) h1
          · exact pnot .l0 (by simp) h0
        · rcases key .l1 h1 with e | g1
          · subst e; exact hpn0 _ g0
          · exact h.apart q g0 g1
      · intro q m hm hu
        rw [setDesc_nodes] at hm
        have key : ∀ l', q ∈ ps l' → q ∈ withNodes ps l (ps l ++ [p]) l' := by
          intro l' hq
          by_cases e : l' = l
          · subst e; rw [withNodes_same]; simp [hq]
          · rw [withNodes_other e]; exact hq
        rcases hst3used q m hm hu with e | ⟨m', g1, g2⟩
        · subst e
          have : q ∈ withNodes ps l (ps l ++ [q]) l := by rw [withNodes_same]; simp
          cases l
          · exact .inl this
          · exact .inr this
        · rcases h.used q m' g1 g2 with g | g
          · exact .inl (key .l0 g)
          · exact .inr (key .l1 g)
    · rw [setDesc_nodes, hst3p]; simp [nd, htail]
    · intro q hq
      rw [setDesc_nodes, hst3limb, hst2n, limbAt_set_other _ hq]

end Sys2Proof.Machine
end

