-- ==== Sys2Proof/Laws/Walks.lean ====
section
/-! SUPPORT. What clearing a list (R129) and the accumulating walk (R133, R134) do to a storage that satisfies R29. -/

namespace Sys2Proof.Machine

open Sys2Proof

/-! One position of the limb walk (R133, R141). -/

theorem limbPosition_fst {tv sv : DWord} {carry : Nat} (ht : tv.toNat < limbBase) (hs : sv.toNat < limbBase)
    (hc : carry ≤ 1) : (limbPosition tv sv carry).1.toNat = (tv.toNat + sv.toNat + carry) % limbBase := by
  unfold limbPosition limbBase at *
  by_cases h : 1000000000000000000 ≤ tv.toNat + sv.toNat + carry
  · simp only [h, if_true, BitVec.toNat_ofNat]; omega
  · simp only [h, if_false, BitVec.toNat_ofNat]; omega

theorem limbPosition_snd {tv sv : DWord} {carry : Nat} (ht : tv.toNat < limbBase) (hs : sv.toNat < limbBase)
    (hc : carry ≤ 1) : (limbPosition tv sv carry).2 = (tv.toNat + sv.toNat + carry) / limbBase := by
  unfold limbPosition limbBase at *
  by_cases h : 1000000000000000000 ≤ tv.toNat + sv.toNat + carry
  · simp only [h, if_true]; omega
  · simp only [h, if_false]; omega

theorem limbPosition_lt {tv sv : DWord} {carry : Nat} (ht : tv.toNat < limbBase) (hs : sv.toNat < limbBase)
    (hc : carry ≤ 1) : (limbPosition tv sv carry).1.toNat < limbBase := by
  rw [limbPosition_fst ht hs hc]; exact Nat.mod_lt _ (by simp [limbBase])

theorem limbPosition_carry (tv sv : DWord) (carry : Nat) : (limbPosition tv sv carry).2 ≤ 1 := by
  simp only [limbPosition]; split <;> simp

theorem sumLimbs_carry (m : Nat) (ts ss : List DWord) {carry : Nat} (h : carry ≤ 1) :
    (sumLimbs m ts ss carry).2 ≤ 1 := by
  induction m generalizing ts ss carry with
  | zero => simpa [sumLimbs]
  | succ m ih => simp only [sumLimbs]; exact ih _ _ (limbPosition_carry _ _ _)

@[simp] theorem sumLimbs_length (m : Nat) (ts ss : List DWord) (carry : Nat) :
    (sumLimbs m ts ss carry).1.length = m := by
  induction m generalizing ts ss carry with
  | zero => rfl
  | succ m ih => simp [sumLimbs, ih]

/-- Writing a limb below 10^18 into a node of a list keeps R29. -/
theorem StoreAt.setVal {n : Nat} {st : ListStore} {ps : ListId → List Nat} (h : StoreAt n st ps) (hn : n ≤ 65535)
    {p : Nat} {nd : Node} {v : DWord} (hp : st.nodes[p]? = some nd) (hv : v.toNat < limbBase) :
    StoreAt n (st.setNode (ptrOf p) { nd with val := v }) ps := by
  have hlt := lt_length_of_getElem? hp
  have hp' : p < 65535 := Nat.lt_of_lt_of_le hlt (h.size ▸ hn)
  refine ⟨by simp [h.size], fun l => ?_, h.apart, ?_⟩
  · have hl := h.lists l
    rw [setNode_desc, setNode_nodes, ptrOf_toNat hp']
    exact ⟨hl.head, hl.tail, hl.cnt, hl.nodup, linked_set_val hp hv hl.linked⟩
  · intro q m hm hu
    rw [setNode_nodes, ptrOf_toNat hp'] at hm
    by_cases e : q = p
    · subst e
      have : m = { nd with val := v } := by simpa [hlt] using hm.symm
      exact h.used q nd hp (by simpa [this] using hu)
    · rw [List.getElem?_set_ne (Ne.symm e)] at hm
      exact h.used q m hm hu

/-- The source's part of one turn (R133). -/
theorem sourceLimb_linked {st : ListStore} {before : Ptr} {ss : List Nat} (hsz : st.nodes.length ≤ 65535)
    (hl : Linked st.nodes before nilPtr ss) :
    st.sourceLimb (firstPtr ss) = .ok ((limbsAt st.nodes ss).headD 0, firstPtr ss.tail) := by
  cases ss with
  | nil => simp [ListStore.sourceLimb, firstPtr]
  | cons p ss =>
    obtain ⟨m, h1, _, _, _, h5, _⟩ := linked_cons.mp hl
    have hp : p < 65535 := Nat.lt_of_lt_of_le (lt_length_of_getElem? h1) hsz
    simp [ListStore.sourceLimb, firstPtr, ptrOf_ne_nil hp, nodeAt_some h1 hp, limbAt_some h1, h5,
      ← firstPtr_eq_nextPtr]

/-- What is left of a list from some node on is linked. -/
theorem ListAt.linked_right {nodes : List Node} {d : ListDesc} {ps qs : List Nat} (h : ListAt nodes d (ps ++ qs)) :
    Linked nodes (lastPtr nilPtr ps) nilPtr qs := (linked_append.mp h.linked).2

/-- What the walk needs and leaves behind, from the point where `ts` of the target and `ss` of the source are left. -/
def WalkEnds (n : Nat) (st : ListStore) (ps : ListId → List Nat) (t : ListId) (ts ss : List Nat) (carry : Nat)
    (r : Except Stop ListStore) : Prop :=
  let q := sumLimbs (max ts.length ss.length) (limbsAt st.nodes ts) (limbsAt st.nodes ss) carry
  let need := (ss.length - ts.length) + q.2
  (n < (ps .l0).length + (ps .l1).length + need ∧ r = .error (.outcome .allocationFailure)) ∨
  ((ps .l0).length + (ps .l1).length + need ≤ n ∧ ∃ st' new, r = .ok st' ∧ new.length = need ∧
    StoreAt n st' (withNodes ps t (ps t ++ new)) ∧
    limbsAt st'.nodes (ts ++ new) = q.1 ++ (if q.2 = 1 then [1] else []) ∧
    ∀ p, p ∉ ts → p ∉ new → limbAt st'.nodes p = limbAt st.nodes p)

theorem withNodes_total (ps : ListId → List Nat) (t : ListId) (qs : List Nat) :
    (withNodes ps t (ps t ++ qs) .l0).length + (withNodes ps t (ps t ++ qs) .l1).length =
      (ps .l0).length + (ps .l1).length + qs.length := by
  cases t <;> simp [withNodes] <;> omega

theorem finalCarry_spec {n : Nat} {st : ListStore} {ps : ListId → List Nat} (h : StoreAt n st ps) (hn : n ≤ 65535)
    (t : ListId) {carry : Nat} (hc : carry ≤ 1) : WalkEnds n st ps t [] [] carry (st.finalCarry t carry) := by
  unfold WalkEnds
  rcases Nat.le_one_iff_eq_zero_or_eq_one.mp hc with e | e
  · subst e
    have hfit : (ps .l0).length + (ps .l1).length ≤ n := h.length_le
    exact .inr ⟨by simpa [sumLimbs] using hfit, st, [], by simp [ListStore.finalCarry], by simp [sumLimbs],
      by simpa using h, by simp [sumLimbs], fun _ _ _ => rfl⟩
  · subst e
    rcases append_spec h hn t 1 (by simp [limbBase]) with ⟨he, hfull⟩ | ⟨p, st', he, hroom, _, _, _, hst, hp, ho⟩
    · exact .inl ⟨by simp [sumLimbs]; omega, by rw [ListStore.finalCarry, if_pos rfl, he]; rfl⟩
    · refine .inr ⟨by simp [sumLimbs]; omega, st', [p], by rw [ListStore.finalCarry, if_pos rfl, he]; rfl,
        by simp [sumLimbs], hst,
        by simp [sumLimbs, limbAt_some hp], fun q _ hq => ho q (by simpa using hq)⟩

theorem accumulateFrom_nil (fuel : Nat) (st : ListStore) (t : ListId) (carry : Nat) :
    ListStore.accumulateFrom fuel st t (firstPtr []) (firstPtr []) carry = st.finalCarry t carry := by
  cases fuel <;> simp [ListStore.accumulateFrom, firstPtr]

/-- One turn of the walk where the target has a node left: its limb is replaced by the sum's, and the walk goes on. -/
theorem turn_spec {n : Nat} {st : ListStore} {ps : ListId → List Nat} {t s : ListId} (h : StoreAt n st ps)
    (hn : n ≤ 65535) (hts : t ≠ s) {done ts sdone ss : List Nat} {p : Nat} (ht : ps t = done ++ p :: ts)
    (hs : ps s = sdone ++ ss) {carry : Nat} (hc : carry ≤ 1) :
    ∃ nd st2, nodeAt st.nodes (ptrOf p) = .ok nd ∧ nd.next = firstPtr ts ∧ nd.val = limbAt st.nodes p ∧
      st.sourceLimb (firstPtr ss) = .ok ((limbsAt st.nodes ss).headD 0, firstPtr ss.tail) ∧
      st.setNode (ptrOf p)
        { nd with val := (limbPosition nd.val ((limbsAt st.nodes ss).headD 0) carry).1 } = st2 ∧
      StoreAt n st2 ps ∧
      limbAt st2.nodes p = (limbPosition (limbAt st.nodes p) ((limbsAt st.nodes ss).headD 0) carry).1 ∧
      (∀ q, q ≠ p → limbAt st2.nodes q = limbAt st.nodes q) ∧
      limbsAt st2.nodes ts = limbsAt st.nodes ts ∧ limbsAt st2.nodes ss.tail = limbsAt st.nodes ss.tail := by
  have hsz : st.nodes.length ≤ 65535 := by rw [h.size]; exact hn
  have hlt := h.lists t
  rw [ht] at hlt
  have hls := h.lists s
  rw [hs] at hls
  obtain ⟨nd, h1, _, _, h4, h5, _⟩ := linked_cons.mp hlt.linked_right
  have hplt := lt_length_of_getElem? h1
  have hp : p < 65535 := Nat.lt_of_lt_of_le hplt hsz
  have hsv : ((limbsAt st.nodes ss).headD 0).toNat < limbBase := by
    have hl := linked_limbs_lt hls.linked_right
    cases hss : limbsAt st.nodes ss with
    | nil => simp [limbBase]
    | cons v vs => exact hl v (by simp [hss])
  have hv : (limbPosition nd.val ((limbsAt st.nodes ss).headD 0) carry).1.toNat < limbBase :=
    limbPosition_lt h4 hsv hc
  have hpts : p ∉ ts := by
    have := hlt.nodup
    have := (List.nodup_append.mp this).2.1
    exact (List.nodup_cons.mp this).1
  have hps : p ∉ ss.tail := fun hq =>
    h.disjoint hts (l := t) (q := s) (p := p) (by rw [ht]; simp)
      (by rw [hs]; exact List.mem_append.mpr (.inr (List.mem_of_mem_tail hq)))
  refine ⟨nd, _, nodeAt_some h1 hp, by rw [h5, ← firstPtr_eq_nextPtr], (limbAt_some h1).symm,
    sourceLimb_linked hsz hls.linked_right, rfl, h.setVal hn h1 hv, ?_, ?_, ?_, ?_⟩
  · rw [setNode_nodes, ptrOf_toNat hp, limbAt_set_same _ hplt, limbAt_some h1]
  · intro q hq
    rw [setNode_nodes, ptrOf_toNat hp, limbAt_set_other _ hq]
  · refine limbsAt_congr fun q hq => ?_
    rw [setNode_nodes, ptrOf_toNat hp, limbAt_set_other _ (by rintro rfl; exact hpts hq)]
  · refine limbsAt_congr fun q hq => ?_
    rw [setNode_nodes, ptrOf_toNat hp, limbAt_set_other _ (by rintro rfl; exact hps hq)]

/-- The walk of R133 ends as R134 says, from any point of it on. -/
theorem accumulateFrom_spec {n : Nat} (hn : n ≤ 65535) {t s : ListId} (hts : t ≠ s) (fuel : Nat) :
    ∀ (st : ListStore) (ps : ListId → List Nat) (done ts sdone ss : List Nat) (carry : Nat),
      StoreAt n st ps → ps t = done ++ ts → ps s = sdone ++ ss → carry ≤ 1 → max ts.length ss.length ≤ fuel →
      WalkEnds n st ps t ts ss carry
        (ListStore.accumulateFrom fuel st t (firstPtr ts) (firstPtr ss) carry) := by
  induction fuel with
  | zero =>
    intro st ps done ts sdone ss carry h ht hs hc hf
    have e1 : ts = [] := List.length_eq_zero_iff.mp (by omega)
    have e2 : ss = [] := List.length_eq_zero_iff.mp (by omega)
    subst e1 e2
    rw [accumulateFrom_nil]
    exact finalCarry_spec h hn t hc
  | succ fuel ih =>
    -- a turn with a node left in the target
    have turn : ∀ (st : ListStore) (ps : ListId → List Nat) (done ts sdone ss : List Nat) (p carry : Nat),
        StoreAt n st ps → ps t = done ++ p :: ts → ps s = sdone ++ ss → carry ≤ 1 →
        max (ts.length + 1) ss.length ≤ fuel + 1 →
        WalkEnds n st ps t (p :: ts) ss carry (do
          let (sv, ps') ← st.sourceLimb (firstPtr ss)
          let nd ← nodeAt st.nodes (ptrOf p)
          let r := limbPosition nd.val sv carry
          ListStore.accumulateFrom fuel (st.setNode (ptrOf p) { nd with val := r.1 }) t nd.next ps' r.2) := by
      intro st ps done ts sdone ss p carry h ht hs hc hf
      obtain ⟨nd, st2, g1, g2, g3, g4, g5, g6, g7, g8, g9, g10⟩ := turn_spec h hn hts ht hs hc
      have ht2 : ps t = (done ++ [p]) ++ ts := by simp [ht]
      obtain ⟨sdone2, hs2⟩ : ∃ sdone2, ps s = sdone2 ++ ss.tail := by
        cases ss with
        | nil => exact ⟨sdone, by simpa using hs⟩
        | cons q ss => exact ⟨sdone ++ [q], by simpa using hs⟩
      have hpts : p ∉ ts := by
        have := (h.lists t).nodup
        rw [ht] at this
        exact (List.nodup_cons.mp (List.nodup_append.mp this).2.1).1
      have hmax : max (p :: ts).length ss.length = max ts.length ss.tail.length + 1 := by
        simp only [List.length_cons, List.length_tail]; omega
      have key := ih st2 ps (done ++ [p]) ts sdone2 ss.tail
        (limbPosition nd.val ((limbsAt st.nodes ss).headD 0) carry).2 g6 ht2 hs2 (limbPosition_carry _ _ _)
        (by simp only [List.length_tail]; omega)
      have hval : (do
          let (sv, ps') ← st.sourceLimb (firstPtr ss)
          let nd ← nodeAt st.nodes (ptrOf p)
          let r := limbPosition nd.val sv carry
          ListStore.accumulateFrom fuel (st.setNode (ptrOf p) { nd with val := r.1 }) t nd.next ps' r.2) =
          ListStore.accumulateFrom fuel st2 t (firstPtr ts) (firstPtr ss.tail)
            (limbPosition nd.val ((limbsAt st.nodes ss).headD 0) carry).2 := by
        simp only [g4, g1, except_ok_bind]
        rw [g5, g2]
      rw [hval, g3]
      have hneed : ss.length - (p :: ts).length = ss.tail.length - ts.length := by
        simp only [List.length_cons, List.length_tail]; omega
      have htail : (limbsAt st.nodes ss).tail = limbsAt st.nodes ss.tail := by cases ss <;> rfl
      unfold WalkEnds at key ⊢
      simp only [hmax, sumLimbs, limbsAt_cons, List.headD_cons, List.tail_cons, hneed, htail]
      rw [g9, g10, g3] at key
      simp only at key ⊢
      rcases key with ⟨k1, k2⟩ | ⟨k1, st', new, k2, k3, k4, k5, k6⟩
      · exact .inl ⟨k1, k2⟩
      · refine .inr ⟨k1, st', new, k2, k3, k4, ?_, ?_⟩
        · have hpnew : p ∉ new := by
            intro hp
            have := (k4.lists t).nodup
            rw [withNodes_same, ht] at this
            exact (List.nodup_append.mp this).2.2 p (by simp) p hp rfl
          rw [List.cons_append, limbsAt_cons, k5, k6 p hpts hpnew, g7]
          rfl
        · intro q hq hqn
          rw [List.mem_cons, not_or] at hq
          rw [k6 q hq.2 hqn, g8 q hq.1]
    intro st ps done ts sdone ss carry h ht hs hc hf
    have hsz : st.nodes.length ≤ 65535 := by rw [h.size]; exact hn
    cases ts with
    | cons p ts =>
      have hplt : p < 65535 := Nat.lt_of_lt_of_le (h.mem_lt (l := t) (by rw [ht]; simp)) hsz
      have := turn st ps done ts sdone ss p carry h ht hs hc (by simpa using hf)
      have hstep : ListStore.accumulateFrom (fuel + 1) st t (firstPtr (p :: ts)) (firstPtr ss) carry = (do
          let (sv, ps') ← st.sourceLimb (firstPtr ss)
          let nd ← nodeAt st.nodes (ptrOf p)
          let r := limbPosition nd.val sv carry
          ListStore.accumulateFrom fuel (st.setNode (ptrOf p) { nd with val := r.1 }) t nd.next ps' r.2) := by
        simp [ListStore.accumulateFrom, firstPtr, ptrOf_ne_nil hplt, ListStore.targetNode]
      rw [hstep]
      exact this
    | nil =>
      cases ss with
      | nil => rw [accumulateFrom_nil]; exact finalCarry_spec h hn t hc
      | cons q ss =>
        have hqlt : q < 65535 := Nat.lt_of_lt_of_le (h.mem_lt (l := s) (by rw [hs]; simp)) hsz
        have hstep : ListStore.accumulateFrom (fuel + 1) st t (firstPtr []) (firstPtr (q :: ss)) carry = (do
            let (pt', st1) ← st.append t 0
            let (sv, ps') ← st1.sourceLimb (firstPtr (q :: ss))
            let nd ← nodeAt st1.nodes pt'
            let r := limbPosition nd.val sv carry
            ListStore.accumulateFrom fuel (st1.setNode pt' { nd with val := r.1 }) t nd.next ps' r.2) := by
          simp [ListStore.accumulateFrom, firstPtr, ptrOf_ne_nil hqlt, ListStore.targetNode]
        rw [hstep]
        rcases append_spec h hn t 0 (by simp [limbBase]) with
          ⟨he, hfull⟩ | ⟨p, st1, he, hroom, hp0, hp1, _, hst, hp, ho⟩
        · rw [he]
          exact .inl ⟨by simp; omega, rfl⟩
        · rw [he]
          simp only [except_ok_bind]
          have hpq : ∀ l, p ∉ ps l := by intro l; cases l <;> assumption
          have hss : limbsAt st1.nodes (q :: ss) = limbsAt st.nodes (q :: ss) := by
            refine limbsAt_congr fun r hr => ho r (fun e => hpq s (e ▸ ?_))
            rw [hs]; exact List.mem_append.mpr (.inr hr)
          have key := turn st1 (withNodes ps t (ps t ++ [p])) (ps t) [] sdone (q :: ss) p carry hst
            (by simp) (by rw [withNodes_other (Ne.symm hts), hs]) hc (by simpa using hf)
          have hlimb0 : limbAt st1.nodes p = 0 := by simpa using limbAt_some hp
          unfold WalkEnds at key ⊢
          rw [withNodes_total] at key
          have hmax : max [p].length (q :: ss).length = ss.length + 1 := by simp
          have hmax' : max ([] : List Nat).length (q :: ss).length = ss.length + 1 := by simp
          rw [hmax, hss] at key
          rw [hmax']
          simp only [limbsAt_cons, limbsAt_nil, hlimb0, sumLimbs, List.headD_cons, List.headD_nil, List.tail_cons,
            List.tail_nil, withNodes_same, withNodes_withNodes, List.length_cons, List.length_nil] at key ⊢
          rcases key with ⟨k1, k2⟩ | ⟨k1, st', new, k2, k3, k4, k5, k6⟩
          · exact .inl ⟨by omega, k2⟩
          · refine .inr ⟨by omega, st', p :: new, k2, by simp [k3]; omega, by simpa using k4, k5, ?_⟩
            intro r _ hr
            rw [List.mem_cons, not_or] at hr
            rw [k6 r (by simpa using hr.1) hr.2, ho r hr.1]

/-- `accumulate(t, s)` on a storage that satisfies R29 (R134): with too few free nodes it stops with AllocationFailure;
otherwise the target reads as the sum, the source as before, and R29 still holds. -/
theorem accumulate_spec {n : Nat} {st : ListStore} (hn : n ≤ 65535) (h : StoreOk n st) {t s : ListId} (hts : t ≠ s) :
    (st.free < nodesNeeded (st.seq t) (st.seq s) ∧
      st.accumulate t s = .error (.outcome .allocationFailure)) ∨
    (nodesNeeded (st.seq t) (st.seq s) ≤ st.free ∧ ∃ st', st.accumulate t s = .ok st' ∧ StoreOk n st' ∧
      st'.seq t = seqSum (st.seq t) (st.seq s) ∧ st'.seq s = st.seq s) := by
  obtain ⟨ps, h⟩ := h
  have hlen := h.length_le
  have hmax : max (ps t).length (ps s).length ≤ st.nodes.length := by
    rw [h.size]; cases t <;> cases s <;> omega
  have key := accumulateFrom_spec hn hts st.nodes.length st ps [] (ps t) [] (ps s) 0 h rfl rfl (by simp) hmax
  have hseq := h.seq_eq hn
  have hneed : nodesNeeded (st.seq t) (st.seq s) = ((ps s).length - (ps t).length) +
      (sumLimbs (max (ps t).length (ps s).length) (limbsAt st.nodes (ps t)) (limbsAt st.nodes (ps s)) 0).2 := by
    simp [nodesNeeded, sumCarry, hseq]
  unfold WalkEnds at key
  simp only [← hneed] at key
  rw [h.free_eq, ListStore.accumulate, (h.lists t).head, (h.lists s).head]
  rcases key with ⟨k1, k2⟩ | ⟨k1, st', new, k2, _, k4, k5, k6⟩
  · exact .inl ⟨by omega, k2⟩
  · have hseq' := k4.seq_eq hn
    refine .inr ⟨by omega, st', k2, ⟨_, k4⟩, ?_, ?_⟩
    · rw [hseq', withNodes_same, k5, hseq t, hseq s]
      simp [seqSum, sumCarry]
    · rw [hseq', withNodes_other (Ne.symm hts), hseq s]
      refine limbsAt_congr fun r hr => k6 r (fun hq => h.disjoint hts hq hr) (fun hq => ?_)
      exact k4.disjoint hts (p := r) (by rw [withNodes_same]; exact List.mem_append.mpr (.inr hq))
        (by rw [withNodes_other (Ne.symm hts)]; exact hr)

/-! Clearing a list (R129). -/

/-- The nodes after those with these indices have been released. -/
def released (nodes : List Node) (ps : List Nat) : List Node :=
  ps.foldl (fun ns p => match ns[p]? with | some n => ns.set p { n with used := false } | none => ns) nodes

theorem released_get (nodes : List Node) (ps : List Nat) (q : Nat) :
    (released nodes ps)[q]? = if q ∈ ps then (nodes[q]?).map (fun n => { n with used := false }) else nodes[q]? := by
  induction ps generalizing nodes with
  | nil => simp [released]
  | cons p ps ih =>
    rw [released, List.foldl_cons, ← released, ih]
    cases hp : nodes[p]? with
    | none =>
      by_cases e : q = p
      · subst e; simp [hp]
      · simp [e]
    | some n =>
      have hlt := lt_length_of_getElem? hp
      by_cases e : q = p
      · subst e
        have hs : (nodes.set q { n with used := false })[q]? = some { n with used := false } := by simp [hlt]
        simp only [hs]
        by_cases hq : q ∈ ps <;> simp [hq, hp]
      · simp [e, List.getElem?_set_ne (Ne.symm e)]

theorem released_length (nodes : List Node) (ps : List Nat) : (released nodes ps).length = nodes.length := by
  induction ps generalizing nodes with
  | nil => rfl
  | cons p ps ih =>
    rw [released, List.foldl_cons, ← released, ih]
    cases nodes[p]? <;> simp

theorem releaseFrom_linked {ps : List Nat} (fuel : Nat) (nodes : List Node) (before : Ptr)
    (hsz : nodes.length ≤ 65535) (hd : ps.Nodup) (hf : ps.length ≤ fuel) (hl : Linked nodes before nilPtr ps) :
    ListStore.releaseFrom fuel nodes (firstPtr ps) = .ok (released nodes ps) := by
  induction ps generalizing fuel nodes before with
  | nil => cases fuel <;> simp [ListStore.releaseFrom, firstPtr, released]
  | cons p ps ih =>
    obtain ⟨m, h1, _, _, _, h5, h6⟩ := linked_cons.mp hl
    have hp : p < 65535 := Nat.lt_of_lt_of_le (lt_length_of_getElem? h1) hsz
    cases fuel with
    | zero => simp at hf
    | succ fuel =>
      have hnot := (List.nodup_cons.mp hd).1
      have hl' : Linked (nodes.set p { m with used := false }) (ptrOf p) nilPtr ps :=
        linked_congr (fun q hq => List.getElem?_set_ne (by rintro rfl; exact hnot hq)) h6
      have rest := ih fuel _ _ (by simpa using hsz) (List.nodup_cons.mp hd).2 (by simpa using hf) hl'
      rw [firstPtr_eq_nextPtr, ← h5] at rest
      rw [ListStore.releaseFrom, firstPtr, if_neg (ptrOf_ne_nil hp), nodeAt_some h1 hp, except_ok_bind, ptrOf_toNat hp,
        rest]
      simp [released, h1]

/-- Everything `clear` does on a storage that satisfies R29: the list is empty, its nodes are free, and the other list
is as it was. -/
theorem clear_at {n : Nat} {st : ListStore} {ps : ListId → List Nat} (h : StoreAt n st ps) (hn : n ≤ 65535)
    (l : ListId) : ∃ st', st.clear l = .ok st' ∧ StoreAt n st' (withNodes ps l []) ∧
      ∀ q, limbAt st'.nodes q = limbAt st.nodes q := by
  have hl := h.lists l
  have hlen : (ps l).length ≤ st.nodes.length := by
    have := h.length_le
    rw [h.size]; cases l <;> omega
  have hrel := releaseFrom_linked st.nodes.length st.nodes nilPtr (by rw [h.size]; exact hn) hl.nodup hlen hl.linked
  refine ⟨({ st with nodes := released st.nodes (ps l) } : ListStore).setDesc l ListDesc.empty, ?_, ?_, ?_⟩
  · rw [ListStore.clear, hl.head, hrel]; rfl
  · refine ⟨by simp [released_length, h.size], ?_, ?_, ?_⟩
    · intro q
      by_cases e : q = l
      · subst e
        rw [withNodes_same, setDesc_desc_same]
        exact ⟨rfl, rfl, rfl, List.nodup_nil, trivial⟩
      · rw [withNodes_other e, setDesc_desc_other e]
        have hq := h.lists q
        refine ⟨?_, ?_, ?_, hq.nodup, ?_⟩
        · rw [← hq.head]; cases q <;> rfl
        · rw [← hq.tail]; cases q <;> rfl
        · rw [← hq.cnt]; cases q <;> rfl
        · refine linked_congr (fun p hp => ?_) hq.linked
          rw [setDesc_nodes, released_get, if_neg (fun hpl => h.disjoint e hp hpl)]
    · intro p h0 h1
      cases l
      · simp [withNodes] at h0
      · simp [withNodes] at h1
    · intro p m hm hu
      rw [setDesc_nodes, released_get] at hm
      by_cases hp : p ∈ ps l
      · rw [if_pos hp] at hm
        obtain ⟨m', _, rfl⟩ := Option.map_eq_some_iff.mp hm
        simp at hu
      · rw [if_neg hp] at hm
        have := h.used p m hm hu
        cases l <;> simp_all [withNodes]
  · intro q
    rw [setDesc_nodes]
    simp only [limbAt, released_get]
    by_cases hq : q ∈ ps l
    · simp only [hq, if_true]; cases st.nodes[q]? <;> rfl
    · simp [hq]

/-- `clear` at sequence level (R129). -/
theorem clear_spec {n : Nat} {st : ListStore} (hn : n ≤ 65535) (h : StoreOk n st) (l : ListId) :
    ∃ st', st.clear l = .ok st' ∧ StoreOk n st' ∧ st'.seq l = [] ∧
      (∀ q, q ≠ l → st'.seq q = st.seq q) ∧ st'.free = st.free + (st.seq l).length := by
  obtain ⟨ps, h⟩ := h
  obtain ⟨st', h1, h2, h3⟩ := clear_at h hn l
  have hle := h.length_le
  refine ⟨st', h1, ⟨_, h2⟩, ?_, ?_, ?_⟩
  · rw [h2.seq_eq hn, withNodes_same]; rfl
  · intro q hq
    rw [h2.seq_eq hn, h.seq_eq hn, withNodes_other hq]
    exact limbsAt_congr fun p _ => h3 p
  · rw [h2.free_eq, h.free_eq, h.seq_eq hn, limbsAt_length]
    cases l <;> simp [withNodes] <;> omega

/-- `append` at sequence level (R127, R130). -/
theorem append_seq {n : Nat} {st : ListStore} (hn : n ≤ 65535) (h : StoreOk n st) (l : ListId) (v : DWord)
    (hv : v.toNat < limbBase) :
    (st.free = 0 ∧ st.append l v = .error (.outcome .allocationFailure)) ∨
    (0 < st.free ∧ ∃ p st', st.append l v = .ok (p, st') ∧ StoreOk n st' ∧ st'.seq l = st.seq l ++ [v] ∧
      (∀ q, q ≠ l → st'.seq q = st.seq q) ∧ st'.free + 1 = st.free) := by
  obtain ⟨ps, h⟩ := h
  rw [h.free_eq]
  rcases append_spec h hn l v hv with ⟨he, hfull⟩ | ⟨p, st', he, hroom, hp0, hp1, _, hst, hp, ho⟩
  · exact .inl ⟨by omega, he⟩
  · have hpn : ∀ q, p ∉ ps q := by intro q; cases q <;> assumption
    have hkeep : ∀ q, limbsAt st'.nodes (ps q) = limbsAt st.nodes (ps q) := fun q =>
      limbsAt_congr fun r hr => ho r (fun e => hpn q (e ▸ hr))
    refine .inr ⟨by omega, ptrOf p, st', he, ⟨_, hst⟩, ?_, ?_, ?_⟩
    · rw [hst.seq_eq hn, withNodes_same, h.seq_eq hn, limbsAt_append, hkeep]
      simp [limbAt_some hp]
    · intro q hq
      rw [hst.seq_eq hn, withNodes_other hq, h.seq_eq hn, hkeep]
    · have := withNodes_total ps l [p]
      simp only [List.length_singleton] at this
      rw [hst.free_eq]
      omega

end Sys2Proof.Machine
end

