-- ==== Sys2Proof/Laws/Fibonacci.lean ====
section
/-! SUPPORT. The two Fibonacci engines: what one iteration of the fast-doubling scan does (R113, R115), what one turn of the
additive loop does (R137, R138), and how many limbs a number takes (R139). -/

namespace Sys2Proof.Machine

open Sys2Proof

/-! Fast doubling (R113). -/

/-- The pair the engine carries: F(k) and F(k+1), normalised (R115, R118). -/
structure FibPair (k : Nat) (a b : Digits) : Prop where
  aOk : DigitsOk a
  bOk : DigitsOk b
  aNorm : Normalised a
  bNorm : Normalised b
  aVal : digitsVal a = Nat.fib k
  bVal : digitsVal b = Nat.fib (k + 1)

theorem FibPair.start : FibPair 0 [0] [1] :=
  ⟨by decide, by decide, .inl rfl, .inr ⟨1, rfl, by decide⟩, rfl, rfl⟩

/-- F(k) is never longer than F(k+1). -/
theorem FibPair.length_le {k : Nat} {a b : Digits} (h : FibPair k a b) : a.length ≤ b.length := by
  have hb := List.length_pos_iff.mpr h.bNorm.ne_nil
  refine h.aNorm.length_le hb ?_
  have := digitsVal_lt h.bOk
  rw [h.bVal] at this
  rw [h.aVal]
  exact Nat.lt_of_le_of_lt Nat.fib_le_fib_succ this

/-- One digit 2. -/
theorem two_ok : DigitsOk [2] ∧ digitsVal [2] = 2 := ⟨by decide, rfl⟩

/-- The new index after a bit (R115). -/
theorem fib_bit (k : Nat) (bit : Bool) : (2 * k + bit.toNat) = if bit then 2 * k + 1 else 2 * k := by
  cases bit <;> rfl

/-- Every result of one iteration, where it does not stop: the pair for 2k + bit. Where it stops, it stops with
AllocationFailure, and with two more digits than twice the length of b it does not stop (R112, R115). -/
theorem fibIteration_spec {dcap k : Nat} {a b : Digits} (h : FibPair k a b) (bit : Bool) :
    (fibIteration dcap bit a b = .error (.outcome .allocationFailure) ∧ dcap < 2 * b.length + 2) ∨
    ∃ c d, fibIteration dcap bit a b = .ok (c, d) ∧ FibPair (2 * k + bit.toNat) c d := by
  have hab := h.length_le
  have hna := h.aNorm.ne_nil
  have pa := List.length_pos_iff.mpr hna
  have pb := List.length_pos_iff.mpr h.bNorm.ne_nil
  -- t1 = 2b
  rcases dmul_spec (dcap := dcap) two_ok.1 h.bOk with ⟨e, m1⟩ | ⟨e1, t1, m1, v1, o1, n1⟩
  · exact .inl ⟨by simp only [fibIteration, m1, except_error_bind], by simp at e; omega⟩
  have hl1 : t1.length ≤ b.length + 1 := by
    have := product_length_le two_ok.1 h.bOk (by simp) n1 v1
    simp at this; omega
  rw [two_ok.2, h.bVal] at v1
  have hle1 : Nat.fib k ≤ 2 * Nat.fib (k + 1) := Nat.le_trans Nat.fib_le_fib_succ (by omega)
  have hlen1 : a.length ≤ t1.length := by
    refine h.aNorm.length_le (List.length_pos_iff.mpr n1.ne_nil) ?_
    have := digitsVal_lt o1
    rw [h.aVal]; omega
  -- t2 = t1 - a, without a wrap (R118)
  have hmin : minuend t1 a = t1 := by unfold minuend; rw [if_neg (by omega)]
  have hsub : subtrahend t1 a = a := by unfold subtrahend; rw [if_neg (by omega)]
  have hcap1 : t1.length ≤ dcap := by simp at e1; omega
  obtain ⟨t2, m2, o2, l2, v2⟩ := dsub_exact (dcap := dcap) o1 h.aOk hcap1 (by omega)
    (by rw [hmin, hsub, v1, h.aVal]; exact hle1)
  rw [hmin, hsub, v1, h.aVal] at v2
  have hl2 : t2.length = t1.length := by omega
  -- c = a t2
  rcases dmul_spec (dcap := dcap) h.aOk o2 with ⟨e, m3⟩ | ⟨e3, c, m3, v3, o3, n3⟩
  · exact .inl ⟨by simp only [fibIteration, m1, m2, m3, except_ok_bind, except_error_bind], by omega⟩
  have hl3 := product_length_le h.aOk o2 hna n3 v3
  have hc : digitsVal c = Nat.fib (2 * k) := by rw [v3, h.aVal, v2, Nat.fib_two_mul]
  -- t3 = a^2, t4 = b^2, d = t3 + t4
  rcases dmul_spec (dcap := dcap) h.aOk h.aOk with ⟨e, m4⟩ | ⟨e4, t3, m4, v4, o4, n4⟩
  · exact .inl ⟨by simp only [fibIteration, m1, m2, m3, m4, except_ok_bind, except_error_bind], by omega⟩
  have hl4 := product_length_le h.aOk h.aOk hna n4 v4
  rcases dmul_spec (dcap := dcap) h.bOk h.bOk with ⟨e, m5⟩ | ⟨e5, t4, m5, v5, o5, n5⟩
  · exact .inl ⟨by simp only [fibIteration, m1, m2, m3, m4, m5, except_ok_bind, except_error_bind], by omega⟩
  have hl5 := product_length_le h.bOk h.bOk h.bNorm.ne_nil n5 v5
  rcases dadd_spec (dcap := dcap) o4 o5 with ⟨e, m6⟩ | ⟨e6, d, m6, v6, o6, l6⟩
  · exact .inl ⟨by simp only [fibIteration, m1, m2, m3, m4, m5, m6, except_ok_bind, except_error_bind], by omega⟩
  have hd : digitsVal d = Nat.fib (2 * k + 1) := by
    rw [v6, v4, v5, h.aVal, h.bVal, Nat.fib_two_mul_add_one]; ring
  have hbpos : 0 < Nat.fib (k + 1) := Nat.fib_pos.mpr (by omega)
  have nd : Normalised d := sum_normalised n4 n5 o6 v6 l6
  have hl6 : d.length ≤ 2 * b.length + 1 := by rw [l6]; split <;> omega
  cases bit with
  | false =>
    refine .inr ⟨c, d, by simp only [fibIteration, m1, m2, m3, m4, m5, m6, except_ok_bind, except_pure]; rfl, ?_⟩
    exact ⟨o3, o6, n3, nd, by simpa using hc, by simpa using hd⟩
  | true =>
    rcases dadd_spec (dcap := dcap) o3 o6 with ⟨e, m7⟩ | ⟨e7, f, m7, v7, o7, l7⟩
    · refine .inl ⟨?_, by omega⟩
      simp only [fibIteration, m1, m2, m3, m4, m5, m6, except_ok_bind, if_true, m7, except_error_bind]
    · refine .inr ⟨d, f, ?_, ?_⟩
      · simp only [fibIteration, m1, m2, m3, m4, m5, m6, except_ok_bind, if_true, m7, except_pure]
      · refine ⟨o6, o7, nd, sum_normalised n3 nd o7 v7 l7, by simpa using hd, ?_⟩
        rw [v7, hc, hd]
        exact Nat.fib_add_two.symm

/-- The scan of R113 from bit position i - 1 on, the pair being the one for n div 2^i: where it ends it ends with F(n), and
where it stops it stops with AllocationFailure. With twice the digits of F(n/2 + 1) and two more it ends (R112, R115). -/
theorem fibScan_spec {dcap n : Nat} (i : Nat) : ∀ a b : Digits, FibPair (n / 2 ^ i) a b →
    (fibScan dcap n i a b = .error (.outcome .allocationFailure) ∧
      ∀ m, Nat.fib (n / 2 + 1) < 10 ^ m → dcap < 2 * m + 2) ∨
    ∃ r, fibScan dcap n i a b = .ok r ∧ DigitsOk r ∧ Normalised r ∧ digitsVal r = Nat.fib n := by
  induction i with
  | zero => exact fun a b h => .inr ⟨a, rfl, h.aOk, h.aNorm, by simpa using h.aVal⟩
  | succ i ih =>
    intro a b h
    have hk : 2 * (n / 2 ^ (i + 1)) + (n.testBit i).toNat = n / 2 ^ i := by
      rw [Nat.testBit_eq_decide_div_mod_eq, pow_succ, ← Nat.div_div_eq_div_mul]
      have : n / 2 ^ i % 2 = 0 ∨ n / 2 ^ i % 2 = 1 := by omega
      rcases this with e | e <;> simp [e] <;> omega
    have hle : n / 2 ^ (i + 1) ≤ n / 2 := by
      rw [pow_succ, Nat.mul_comm, ← Nat.div_div_eq_div_mul]; exact Nat.div_le_self _ _
    rcases fibIteration_spec (dcap := dcap) h (n.testBit i) with ⟨e, hlt⟩ | ⟨c, d, e, hp⟩
    · refine .inl ⟨by simp only [fibScan, e, except_error_bind], fun m hm => ?_⟩
      have hm' : digitsVal b < 10 ^ m := by
        rw [h.bVal]; exact Nat.lt_of_le_of_lt (Nat.fib_mono (by omega)) hm
      have hm0 : 0 < m := by
        rcases Nat.eq_zero_or_pos m with e0 | e0
        · subst e0
          have : 0 < Nat.fib (n / 2 + 1) := Nat.fib_pos.mpr (by omega)
          simp at hm
        · exact e0
      have := h.bNorm.length_le hm0 hm'
      omega
    · rw [hk] at hp
      have := ih c d hp
      simpa only [fibScan, e, except_ok_bind] using this

/-- The result of `FIBD` (R110, R112, R119): F(n), normalised, or AllocationFailure. -/
theorem fibDigits_spec (dcap n : Nat) :
    (fibDigits dcap n = .error (.outcome .allocationFailure) ∧
      ∀ m, Nat.fib (n / 2 + 1) < 10 ^ m → dcap < 2 * m + 2) ∨
    ∃ r, fibDigits dcap n = .ok r ∧ DigitsOk r ∧ Normalised r ∧ digitsVal r = Nat.fib n := by
  unfold fibDigits
  split
  · next e => subst e; exact .inr ⟨[0], rfl, by decide, .inl rfl, rfl⟩
  · have h0 : n / 2 ^ bitlen n = 0 := by
      rw [Nat.div_eq_zero_iff]; right; exact Nat.lt_log2_self
    exact fibScan_spec (bitlen n) [0] [1] (by rw [h0]; exact FibPair.start)

/-! How many limbs a number takes (R139). -/

theorem lt_pow_limbCountWithin (fuel x : Nat) (h : x ≤ fuel) : x < limbBase ^ limbCountWithin fuel x := by
  induction fuel generalizing x with
  | zero => simp [limbCountWithin, limbBase]; omega
  | succ fuel ih =>
    unfold limbCountWithin
    split
    · simpa
    · next hx =>
      have h1 : x / limbBase ≤ fuel := by
        have h0 : 0 < limbBase := by simp [limbBase]
        have : x / limbBase < x := Nat.div_lt_self (by omega) (by simp [limbBase])
        omega
      have h2 := ih (x / limbBase) h1
      rw [Nat.add_comm 1, pow_succ]
      exact (Nat.div_lt_iff_lt_mul (by simp [limbBase])).mp h2

theorem limbCountWithin_le (fuel x m : Nat) (h : x < limbBase ^ (m + 1)) : limbCountWithin fuel x ≤ m + 1 := by
  induction fuel generalizing x m with
  | zero => simp [limbCountWithin]
  | succ fuel ih =>
    unfold limbCountWithin
    split
    · omega
    · next hx =>
      cases m with
      | zero => simp at h; omega
      | succ m =>
        have : x / limbBase < limbBase ^ (m + 1) := by
          rw [pow_succ] at h
          exact (Nat.div_lt_iff_lt_mul (by simp [limbBase])).mpr h
        have := ih (x / limbBase) m this
        omega

theorem lt_pow_limbCount (x : Nat) : x < limbBase ^ limbCount x := lt_pow_limbCountWithin x x (Nat.le_refl _)

theorem limbCount_pos (x : Nat) : 0 < limbCount x := by
  unfold limbCount
  cases x with
  | zero => simp [limbCountWithin]
  | succ x => unfold limbCountWithin; split <;> omega

theorem limbCount_le {x m : Nat} (hm : 0 < m) (h : x < limbBase ^ m) : limbCount x ≤ m := by
  obtain ⟨m, rfl⟩ : ∃ k, m = k + 1 := ⟨m - 1, by omega⟩
  exact limbCountWithin_le x x m h

theorem limbCount_mono {x y : Nat} (h : x ≤ y) : limbCount x ≤ limbCount y :=
  limbCount_le (limbCount_pos y) (Nat.lt_of_le_of_lt h (lt_pow_limbCount y))

theorem nodesForFib_mono {j k : Nat} (h : j ≤ k) : nodesForFib j ≤ nodesForFib k := by
  unfold nodesForFib
  split
  · split
    · exact Nat.le_refl _
    · have h1 := limbCount_pos (Nat.fib k)
      have h2 := limbCount_pos (Nat.fib (k - 1))
      omega
  · rw [if_neg (by omega)]
    exact Nat.add_le_add (limbCount_mono (Nat.fib_mono h)) (limbCount_mono (Nat.fib_mono (by omega)))

/-! Values of limb sequences (R13, R134). -/

@[simp] theorem limbsVal_nil : limbsVal [] = 0 := rfl
@[simp] theorem limbsVal_cons (v : DWord) (vs : List DWord) :
    limbsVal (v :: vs) = v.toNat + limbBase * limbsVal vs := rfl

/-- Every limb is below 10^18 (R29). -/
abbrev LimbsOk (vs : List DWord) : Prop := ∀ v ∈ vs, v.toNat < limbBase

theorem limbsOk_cons {v : DWord} {vs : List DWord} : LimbsOk (v :: vs) ↔ v.toNat < limbBase ∧ LimbsOk vs := by
  simp [LimbsOk]

theorem limbsOk_tail {vs : List DWord} (h : LimbsOk vs) : LimbsOk vs.tail := fun v hv => h v (List.mem_of_mem_tail hv)

theorem limbsOk_headD {vs : List DWord} (h : LimbsOk vs) : (vs.headD 0).toNat < limbBase := by
  cases vs with
  | nil => simp [limbBase]
  | cons v vs => exact h v (by simp)

theorem limbsVal_headD_tail (vs : List DWord) : (vs.headD 0).toNat + limbBase * limbsVal vs.tail = limbsVal vs := by
  cases vs <;> simp

theorem limbsVal_append (xs ys : List DWord) :
    limbsVal (xs ++ ys) = limbsVal xs + limbBase ^ xs.length * limbsVal ys := by
  induction xs with
  | nil => simp
  | cons x xs ih => simp [ih, pow_succ]; ring

theorem limbsVal_lt {vs : List DWord} (h : LimbsOk vs) : limbsVal vs < limbBase ^ vs.length := by
  induction vs with
  | nil => simp
  | cons v vs ih =>
    obtain ⟨h1, h2⟩ := limbsOk_cons.mp h
    have := ih h2
    have h3 : limbBase * (limbsVal vs + 1) ≤ limbBase * limbBase ^ vs.length := Nat.mul_le_mul_left _ this
    simp only [limbsVal_cons, List.length_cons, pow_succ]
    rw [Nat.mul_comm (limbBase ^ vs.length)]
    rw [Nat.mul_add] at h3
    omega

/-- The positions of the sum of two sequences: the exact sum up to the final carry. -/
theorem sumLimbs_spec (m : Nat) (ts ss : List DWord) (c : Nat) (ht : LimbsOk ts) (hs : LimbsOk ss) (hc : c ≤ 1)
    (hlt : ts.length ≤ m) (hls : ss.length ≤ m) :
    LimbsOk (sumLimbs m ts ss c).1 ∧
      limbsVal (sumLimbs m ts ss c).1 + limbBase ^ m * (sumLimbs m ts ss c).2 = limbsVal ts + limbsVal ss + c := by
  induction m generalizing ts ss c with
  | zero =>
    have et : ts = [] := List.length_eq_zero_iff.mp (by omega)
    have es : ss = [] := List.length_eq_zero_iff.mp (by omega)
    subst et es
    simp [sumLimbs, LimbsOk]
  | succ m ih =>
    have h1 := limbsOk_headD ht
    have h2 := limbsOk_headD hs
    have e1 := limbPosition_fst h1 h2 hc
    have e2 := limbPosition_snd h1 h2 hc
    obtain ⟨i1, i2⟩ := ih ts.tail ss.tail (limbPosition (ts.headD 0) (ss.headD 0) c).2 (limbsOk_tail ht)
      (limbsOk_tail hs) (limbPosition_carry _ _ _) (by simp only [List.length_tail]; omega)
      (by simp only [List.length_tail]; omega)
    have vt := limbsVal_headD_tail ts
    have vs := limbsVal_headD_tail ss
    have hdiv := Nat.div_add_mod ((ts.headD 0).toNat + (ss.headD 0).toNat + c) limbBase
    simp only [sumLimbs]
    refine ⟨limbsOk_cons.mpr ⟨limbPosition_lt h1 h2 hc, i1⟩, ?_⟩
    rw [limbsVal_cons, e1, ← vt, ← vs]
    rw [← e2] at hdiv
    generalize hq : sumLimbs m ts.tail ss.tail (limbPosition (ts.headD 0) (ss.headD 0) c).2 = q at i2
    have : limbBase ^ (m + 1) * q.2 = limbBase * (limbBase ^ m * q.2) := by ring
    rw [this]
    have : limbBase * (limbsVal q.1 + limbBase ^ m * q.2) =
      limbBase * (limbsVal ts.tail + limbsVal ss.tail + (limbPosition (ts.headD 0) (ss.headD 0) c).2) := by rw [i2]
    simp only [Nat.mul_add] at this
    omega

/-- The sum of two sequences (R134): its value, its length, and every limb in range. -/
theorem seqSum_spec {ts ss : List DWord} (ht : LimbsOk ts) (hs : LimbsOk ss) :
    LimbsOk (seqSum ts ss) ∧ limbsVal (seqSum ts ss) = limbsVal ts + limbsVal ss ∧
      (seqSum ts ss).length = max ts.length ss.length + sumCarry ts ss ∧ sumCarry ts ss ≤ 1 ∧
      (sumCarry ts ss = 1 → limbBase ^ max ts.length ss.length ≤ limbsVal ts + limbsVal ss) := by
  obtain ⟨h1, h2⟩ := sumLimbs_spec (max ts.length ss.length) ts ss 0 ht hs (by simp) (by omega) (by omega)
  have hc : sumCarry ts ss ≤ 1 := sumLimbs_carry _ _ _ (by simp)
  rw [← sumCarry, Nat.add_zero] at h2
  unfold seqSum
  rcases Nat.le_one_iff_eq_zero_or_eq_one.mp hc with e | e
  · rw [e] at h2 ⊢
    refine ⟨by simpa using h1, by simpa using h2, by simp, by simp, by simp⟩
  · rw [e] at h2 ⊢
    refine ⟨?_, ?_, by simp, by simp, fun _ => by omega⟩
    · intro v hv
      rcases List.mem_append.mp hv with hv | hv
      · exact h1 v hv
      · simp at hv; simp [hv, limbBase]
    · rw [limbsVal_append, sumLimbs_length, ← h2]; simp

/-- A sequence that holds a number in as few limbs as it takes (R138). -/
structure Tight (x : Nat) (vs : List DWord) : Prop where
  ok : LimbsOk vs
  val : limbsVal vs = x
  len : vs.length = limbCount x

theorem tight_of_pow_le {x : Nat} {vs : List DWord} (h : LimbsOk vs) (hv : limbsVal vs = x) (hne : 0 < vs.length)
    (hp : vs.length = 1 ∨ limbBase ^ (vs.length - 1) ≤ x) : Tight x vs := by
  refine ⟨h, hv, Nat.le_antisymm ?_ (limbCount_le hne (by rw [← hv]; exact limbsVal_lt h))⟩
  rcases hp with e | e
  · rw [e]; exact limbCount_pos x
  · by_contra hlt
    have h1 : limbBase ^ limbCount x ≤ limbBase ^ (vs.length - 1) :=
      Nat.pow_le_pow_right (by simp [limbBase]) (by omega)
    have := lt_pow_limbCount x
    omega

theorem Tight.pow_le {x : Nat} {vs : List DWord} (h : Tight x vs) : vs.length = 1 ∨ limbBase ^ (vs.length - 1) ≤ x := by
  by_cases e : vs.length = 1
  · exact .inl e
  · right
    by_contra hlt
    have h1 := limbCount_pos x
    have h2 := limbCount_le (x := x) (m := vs.length - 1) (by rw [h.len] at e ⊢; omega) (by omega)
    rw [h.len] at h2
    omega

/-- The sum of two tight sequences is tight (R138). -/
theorem seqSum_tight {x y : Nat} {ts ss : List DWord} (ht : Tight x ts) (hs : Tight y ss) :
    Tight (x + y) (seqSum ts ss) := by
  obtain ⟨h1, h2, h3, h4, h5⟩ := seqSum_spec ht.ok hs.ok
  rw [ht.val, hs.val] at h2 h5
  have pt : 0 < ts.length := ht.len ▸ limbCount_pos x
  refine tight_of_pow_le h1 h2 (by omega) ?_
  rcases Nat.le_one_iff_eq_zero_or_eq_one.mp h4 with e | e
  · rw [e, Nat.add_zero] at h3
    rw [h3]
    rcases Nat.le_total ts.length ss.length with h | h
    · rw [Nat.max_eq_right h]; exact hs.pow_le.imp id (fun g => by omega)
    · rw [Nat.max_eq_left h]; exact ht.pow_le.imp id (fun g => by omega)
  · right
    rw [h3, e, Nat.add_sub_cancel]
    exact h5 e

/-- The limbs of a list of a storage that satisfies R29. -/
theorem StoreOk.limbsOk {n : Nat} {st : ListStore} (hn : n ≤ 65535) (h : StoreOk n st) (l : ListId) :
    LimbsOk (st.seq l) := by
  obtain ⟨ps, h⟩ := h
  rw [h.seq_eq hn]
  exact linked_limbs_lt (h.lists l).linked

/-- `cnt` and `free` of a storage that satisfies R29 (R126). -/
theorem StoreOk.cnt_eq {n : Nat} {st : ListStore} (hn : n ≤ 65535) (h : StoreOk n st) (l : ListId) :
    (st.desc l).cnt = (st.seq l).length := by
  obtain ⟨ps, h⟩ := h
  rw [h.seq_eq hn, h.cnt_eq, limbsAt_length]

theorem StoreOk.free_add {n : Nat} {st : ListStore} (hn : n ≤ 65535) (h : StoreOk n st) :
    st.free + ((st.seq .l0).length + (st.seq .l1).length) = n := by
  obtain ⟨ps, h⟩ := h
  have := h.length_le
  rw [h.free_eq, h.seq_eq hn, h.seq_eq hn, limbsAt_length, limbsAt_length]
  omega

/-! The additive engine (R137 to R139). -/

theorem parityList_pred_ne (i : Nat) (h : 0 < i) : ListStore.parityList i ≠ ListStore.parityList (i - 1) := by
  unfold ListStore.parityList
  rcases Nat.mod_two_eq_zero_or_one i with e | e
  · rw [if_pos e, if_neg (by omega)]; simp
  · rw [if_neg (by omega), if_pos (by omega)]; simp

theorem parityList_add_two (i : Nat) : ListStore.parityList (i + 2) = ListStore.parityList i := by
  simp [ListStore.parityList]

/-- What the two lists hold when F(j) and F(j + 1) are the latest values (R138). -/
structure FibLists (n j : Nat) (st : ListStore) : Prop where
  ok : StoreOk n st
  older : Tight (Nat.fib j) (st.seq (ListStore.parityList j))
  newer : Tight (Nat.fib (j + 1)) (st.seq (ListStore.parityList (j + 1)))

theorem FibLists.total {n j : Nat} {st : ListStore} (h : FibLists n j st) :
    (st.seq .l0).length + (st.seq .l1).length = limbCount (Nat.fib j) + limbCount (Nat.fib (j + 1)) := by
  rw [← h.older.len, ← h.newer.len]
  have hne := parityList_pred_ne (j + 1) (by omega)
  rw [Nat.add_sub_cancel] at hne
  revert hne
  cases ListStore.parityList j <;> cases ListStore.parityList (j + 1) <;> intro hne
  · exact absurd rfl hne
  · rfl
  · exact Nat.add_comm _ _
  · exact absurd rfl hne

/-- One turn of the loop of R137: on to F(j + 2), or AllocationFailure where that takes more nodes than there are. -/
theorem accumulate_fib {n j : Nat} {st : ListStore} (hn : n ≤ 65535) (h : FibLists n j st) :
    (n < nodesForFib (j + 2) ∧ st.accumulate (ListStore.parityList (j + 2)) (ListStore.parityList (j + 1)) =
      .error (.outcome .allocationFailure)) ∨
    ∃ st', st.accumulate (ListStore.parityList (j + 2)) (ListStore.parityList (j + 1)) = .ok st' ∧
      FibLists n (j + 1) st' := by
  have hne : ListStore.parityList (j + 2) ≠ ListStore.parityList (j + 1) := parityList_pred_ne (j + 2) (by omega)
  have hsum := seqSum_tight h.older h.newer
  rw [← Nat.fib_add_two] at hsum
  have hnodes : nodesForFib (j + 2) = limbCount (Nat.fib (j + 2)) + limbCount (Nat.fib (j + 1)) := by
    unfold nodesForFib; rw [if_neg (by omega)]; rfl
  obtain ⟨_, _, s3, s4, _⟩ := seqSum_spec h.older.ok h.newer.ok
  have htot := h.total
  have hfree := h.ok.free_add hn
  have hlen := hsum.len
  have holder := h.older.len
  have hnewer := h.newer.len
  have hneed : nodesNeeded (st.seq (ListStore.parityList j)) (st.seq (ListStore.parityList (j + 1))) +
      limbCount (Nat.fib j) = limbCount (Nat.fib (j + 2)) := by
    unfold nodesNeeded; omega
  rcases accumulate_spec hn h.ok hne with ⟨k1, k2⟩ | ⟨k1, st', k2, k3, k4, k5⟩
  · rw [parityList_add_two] at k1
    exact .inl ⟨by omega, k2⟩
  · rw [parityList_add_two] at k4
    refine .inr ⟨st', k2, k3, ?_, ?_⟩
    · rw [k5]; exact h.newer
    · rw [show j + 1 + 1 = j + 2 from rfl, parityList_add_two, k4]; exact hsum

/-- The loop of R137 from i = j + 2 on. -/
theorem fibLoop_spec {n : Nat} (hn : n ≤ 65535) (turns : Nat) : ∀ (j : Nat) (st : ListStore), FibLists n j st →
    (n < nodesForFib (j + 1 + turns) ∧
      ListStore.fibLoop turns (j + 2) st = .error (.outcome .allocationFailure)) ∨
    ∃ st', ListStore.fibLoop turns (j + 2) st = .ok st' ∧ FibLists n (j + turns) st' := by
  induction turns with
  | zero => exact fun j st h => .inr ⟨st, rfl, h⟩
  | succ turns ih =>
    intro j st h
    have hpred : j + 2 - 1 = j + 1 := by omega
    rcases accumulate_fib hn h with ⟨k1, k2⟩ | ⟨st', k2, k3⟩
    · refine .inl ⟨Nat.lt_of_lt_of_le k1 (nodesForFib_mono (by omega)), ?_⟩
      simp only [ListStore.fibLoop, hpred, k2, except_error_bind]
    · have hstep : ListStore.fibLoop (turns + 1) (j + 2) st = ListStore.fibLoop turns (j + 1 + 2) st' := by
        simp only [ListStore.fibLoop, hpred, k2, except_ok_bind]
      rw [hstep, show j + 1 + (turns + 1) = j + 1 + 1 + turns by omega, show j + (turns + 1) = j + 1 + turns by omega]
      exact ih (j + 1) st' k3

theorem tight_single {v : DWord} (h : v.toNat < limbBase) : Tight v.toNat [v] :=
  tight_of_pow_le (by simpa [LimbsOk] using h) (by simp) (by simp) (.inl rfl)

/-- The lists `LFIB` starts its loop with: F(0) and F(1), all else free (R137). -/
theorem fib_start {n : Nat} {st : ListStore} (hn : n ≤ 65535) (h2 : 2 ≤ n) (h : StoreOk n st) :
    ∃ st', FibLists n 0 st' ∧ ∀ k, st.fib k = ListStore.fibLoop (k - 1) 2 st' := by
  obtain ⟨st1, c1, o1, s1, _, _⟩ := clear_spec hn h .l0
  obtain ⟨st2, c2, o2, s2, t2, _⟩ := clear_spec hn o1 .l1
  have e2 : st2.seq .l0 = [] := by rw [t2 .l0 (by simp), s1]
  have f2 := o2.free_add hn
  rw [e2, s2] at f2
  rcases append_seq hn o2 .l0 0 (by simp [limbBase]) with ⟨z, _⟩ | ⟨_, p3, st3, c3, o3, s3, t3, f3⟩
  · simp at f2; omega
  rcases append_seq hn o3 .l1 1 (by simp [limbBase]) with ⟨z, _⟩ | ⟨_, p4, st4, c4, o4, s4, t4, _⟩
  · simp at f2; omega
  refine ⟨st4, ⟨o4, ?_, ?_⟩, fun k => ?_⟩
  · have : st4.seq (ListStore.parityList 0) = [0] := by
      rw [show ListStore.parityList 0 = .l0 from rfl, t4 .l0 (by simp), s3, e2]; rfl
    rw [this]; exact tight_single (v := 0) (by simp [limbBase])
  · have : st4.seq (ListStore.parityList 1) = [1] := by
      rw [show ListStore.parityList 1 = .l1 from rfl, s4, t3 .l1 (by simp), s2]; rfl
    rw [show 0 + 1 = 1 from rfl, this]; exact tight_single (v := 1) (by simp [limbBase])
  · simp only [ListStore.fib, c1, c2, c3, c4, except_ok_bind]

/-- `LFIB` on the lists (R137 to R139): F(k) and F(k - 1) in the lists of their parities, or AllocationFailure exactly
when they take more than `NNODE` nodes. -/
theorem fib_spec {n : Nat} {st : ListStore} (hn : n ≤ 65535) (h2 : 2 ≤ n) (h : StoreOk n st) (k : Nat) :
    (n < nodesForFib k ∧ st.fib k = .error (.outcome .allocationFailure)) ∨
    (nodesForFib k ≤ n ∧ ∃ st', st.fib k = .ok st' ∧ FibLists n (k - 1) st') := by
  obtain ⟨st0, h0, heq⟩ := fib_start hn h2 h
  have hfit : ∀ st', FibLists n (k - 1) st' → nodesForFib k ≤ n := by
    intro st' h'
    have htot := h'.total
    have hfree := h'.ok.free_add hn
    unfold nodesForFib
    split
    · exact h2
    · next hk =>
      rw [show k - 1 + 1 = k by omega] at htot
      omega
  rw [heq k]
  rcases fibLoop_spec hn (k - 1) 0 st0 h0 with ⟨k1, k2⟩ | ⟨st', k2, k3⟩
  · refine .inl ⟨?_, k2⟩
    by_cases hk : k = 0
    · subst hk
      exact k1
    · rwa [show 0 + 1 + (k - 1) = k by omega] at k1
  · rw [Nat.zero_add] at k3
    exact .inr ⟨hfit st' k3, st', k2, k3⟩

/-- A sequence of limbs is determined by its length and the number it denotes. -/
theorem limbs_ext {xs ys : List DWord} (hx : LimbsOk xs) (hy : LimbsOk ys) (hl : xs.length = ys.length)
    (hv : limbsVal xs = limbsVal ys) : xs = ys := by
  induction xs generalizing ys with
  | nil => exact (List.length_eq_zero_iff.mp hl.symm).symm
  | cons x xs ih =>
    cases ys with
    | nil => simp at hl
    | cons y ys =>
      obtain ⟨hx1, hx2⟩ := limbsOk_cons.mp hx
      obtain ⟨hy1, hy2⟩ := limbsOk_cons.mp hy
      simp only [limbsVal_cons] at hv
      have e1 : x.toNat = y.toNat := by unfold limbBase at *; omega
      have e2 : limbsVal xs = limbsVal ys := by unfold limbBase at *; omega
      rw [ih hx2 hy2 (by simpa using hl) e2, BitVec.eq_of_toNat_eq e1]

/-- The two lists of the additive engine are determined by the index. -/
theorem FibLists.seq_eq {n j : Nat} {st st' : ListStore} (h : FibLists n j st) (h' : FibLists n j st') (l : ListId) :
    st.seq l = st'.seq l := by
  have e1 := limbs_ext h.older.ok h'.older.ok (by rw [h.older.len, h'.older.len]) (by rw [h.older.val, h'.older.val])
  have e2 := limbs_ext h.newer.ok h'.newer.ok (by rw [h.newer.len, h'.newer.len]) (by rw [h.newer.val, h'.newer.val])
  have hne := parityList_pred_ne (j + 1) (by omega)
  rw [Nat.add_sub_cancel] at hne
  revert e1 e2 hne
  cases ListStore.parityList j <;> cases ListStore.parityList (j + 1) <;> intro e1 e2 hne <;>
    first
    | exact absurd rfl hne
    | (cases l <;> assumption)

end Sys2Proof.Machine
end

