-- ==== Sys2Proof/Laws/Memory.lean ====
section
/-! SUPPORT. The output buffer: reads after writes, and that every operation keeps the canonical form (addresses strictly
rising). -/

namespace Sys2Proof.Machine

open Sys2Proof

namespace Memory

theorem wf_cons {c : Host.Cell} {m : Memory} : wf (c :: m) = true ↔ (∀ d ∈ m, c.1 < d.1) ∧ wf m = true := by
  induction m generalizing c with
  | nil => simp [wf]
  | cons d m ih =>
    simp only [wf, Bool.and_eq_true, decide_eq_true_eq]
    constructor
    · rintro ⟨h1, h2⟩
      refine ⟨fun e he => ?_, h2⟩
      rcases List.mem_cons.mp he with rfl | he
      · exact h1
      · exact Nat.lt_trans h1 ((ih.mp h2).1 e he)
    · exact fun ⟨h1, h2⟩ => ⟨h1 d (by simp), h2⟩

/-! Reads after writes (R14). -/

theorem read_write_same (m : Memory) (a : Nat) (v : Byte) : (write m a v).read a = some v := by
  induction m with
  | nil => simp [write, read]
  | cons c m ih =>
    unfold write
    split
    · simp [read]
    · split
      · simp [read]
      · next h => simp [read, Ne.symm h, ih]

theorem read_write_other (m : Memory) {a b : Nat} (v : Byte) (h : b ≠ a) : (write m a v).read b = m.read b := by
  induction m with
  | nil => simp [write, read, Ne.symm h]
  | cons c m ih =>
    unfold write
    split
    · simp [read, Ne.symm h]
    · split
      · next e => simp [read, Ne.symm h, ← e]
      · simp [read, ih]

theorem read_writeBytes (m : Memory) (a : Nat) (vs : List Byte) (b : Nat) :
    (writeBytes m a vs).read b = if a ≤ b ∧ b < a + vs.length then vs[b - a]? else m.read b := by
  induction vs generalizing m a with
  | nil => simp [writeBytes]
  | cons v vs ih =>
    rw [writeBytes, ih]
    by_cases h : b = a
    · subst h
      simp [read_write_same]
    · rw [read_write_other _ _ h]
      by_cases h2 : a ≤ b ∧ b < a + (v :: vs).length
      · have e : b - a = (b - (a + 1)) + 1 := by omega
        rw [if_pos h2, if_pos (by simp only [List.length_cons] at h2; omega), e, List.getElem?_cons_succ]
      · rw [if_neg h2, if_neg (by simp only [List.length_cons] at h2; omega)]

theorem read_keepBelow (m : Memory) (n b : Nat) : (keepBelow m n).read b = if b < n then m.read b else none := by
  induction m with
  | nil => simp [keepBelow, read]
  | cons c m ih =>
    rw [keepBelow, List.filter_cons] at *
    by_cases h : c.1 < n
    · simp only [h, decide_true, if_true, read, ih]
      by_cases e : c.1 = b
      · subst e; simp [h]
      · simp [e]
    · simp only [h, decide_false, Bool.false_eq_true, if_false, ih, read]
      by_cases hb : b < n
      · have : c.1 ≠ b := by omega
        simp [hb, this]
      · simp [hb]

/-! The canonical form. -/

theorem mem_write {m : Memory} {a : Nat} {v : Byte} {c : Host.Cell} (h : c ∈ write m a v) : c = (a, v) ∨ c ∈ m := by
  induction m with
  | nil => exact .inl (by simpa [write] using h)
  | cons d m ih =>
    unfold write at h
    split at h
    · rcases List.mem_cons.mp h with h | h
      · exact .inl h
      · exact .inr h
    · split at h
      · rcases List.mem_cons.mp h with h | h
        · exact .inl h
        · exact .inr (List.mem_cons_of_mem _ h)
      · rcases List.mem_cons.mp h with h | h
        · exact .inr (by simp [h])
        · exact (ih h).imp id (List.mem_cons_of_mem _)

theorem write_wf {m : Memory} (h : m.wf = true) (a : Nat) (v : Byte) : (write m a v).wf = true := by
  induction m with
  | nil => rfl
  | cons c m ih =>
    obtain ⟨h1, h2⟩ := wf_cons.mp h
    unfold write
    split
    · next hlt =>
      refine wf_cons.mpr ⟨fun d hd => ?_, h⟩
      rcases List.mem_cons.mp hd with rfl | hd
      · exact hlt
      · exact Nat.lt_trans hlt (h1 d hd)
    · split
      · next e => exact wf_cons.mpr ⟨fun d hd => by rw [e]; exact h1 d hd, h2⟩
      · refine wf_cons.mpr ⟨fun d hd => ?_, ih h2⟩
        rcases mem_write hd with rfl | hd
        · show c.1 < a; omega
        · exact h1 d hd

theorem writeBytes_wf {m : Memory} (h : m.wf = true) (a : Nat) (vs : List Byte) : (writeBytes m a vs).wf = true := by
  induction vs generalizing m a with
  | nil => exact h
  | cons v vs ih => exact ih (write_wf h a v) (a + 1)

theorem keepBelow_wf {m : Memory} (h : m.wf = true) (n : Nat) : (keepBelow m n).wf = true := by
  induction m with
  | nil => rfl
  | cons c m ih =>
    obtain ⟨h1, h2⟩ := wf_cons.mp h
    have hsub : ∀ d ∈ keepBelow m n, d ∈ m := fun d hd => (List.mem_filter.mp hd).1
    rw [keepBelow, List.filter_cons]
    split
    · exact wf_cons.mpr ⟨fun d hd => h1 d (hsub d hd), ih h2⟩
    · exact ih h2

/-- Two memories in the canonical form that read alike are equal. -/
theorem ext_of_read {m m' : Memory} (h : m.wf = true) (h' : m'.wf = true) (hr : ∀ a, m.read a = m'.read a) : m = m' := by
  have low : ∀ {c : Host.Cell} {m : Memory}, wf (c :: m) = true → ∀ a < c.1, read (c :: m) a = none := by
    intro c m hw a ha
    induction m generalizing c with
    | nil => simp [read]; omega
    | cons d m ih =>
      obtain ⟨g1, g2⟩ := wf_cons.mp hw
      have := g1 d (by simp)
      rw [read, if_neg (by omega), ih g2 (by omega)]
  induction m generalizing m' with
  | nil =>
    cases m' with
    | nil => rfl
    | cons c m' => have := hr c.1; simp [read] at this
  | cons c m ih =>
    cases m' with
    | nil => have := hr c.1; simp [read] at this
    | cons d m' =>
      have e1 : c.1 = d.1 := by
        rcases Nat.lt_trichotomy c.1 d.1 with g | g | g
        · have := hr c.1; rw [low h' _ g] at this; simp [read] at this
        · exact g
        · have := hr d.1; rw [low h _ g] at this; simp [read] at this
      have e2 : c.2 = d.2 := by have := hr c.1; simpa [read, e1] using this
      have ecd : c = d := Prod.ext e1 e2
      subst ecd
      obtain ⟨g1, g2⟩ := wf_cons.mp h
      obtain ⟨g3, g4⟩ := wf_cons.mp h'
      have absent : ∀ {k : Memory}, (∀ x ∈ k, c.1 < x.1) → read k c.1 = none := by
        intro k hk
        induction k with
        | nil => rfl
        | cons x k ihk =>
          have := hk x (by simp)
          rw [read, if_neg (by omega), ihk (fun y hy => hk y (by simp [hy]))]
      refine congrArg _ (ih g2 g4 fun a => ?_)
      by_cases ea : c.1 = a
      · subst ea; rw [absent g1, absent g3]
      · have := hr a; simpa [read, ea] using this

end Memory

/-! The write of an output (R145, R152). -/

/-- After an output of these bytes, byte a of the buffer is the a-th of them, and no byte beyond them holds a value. -/
theorem setOutput_read (s : State) (bs : List Byte) (n a : Nat) : (s.setOutput bs n).obuf.read a = bs[a]? := by
  rw [setOutput_obuf, Memory.read_keepBelow, Memory.read_writeBytes]
  by_cases h : a < bs.length
  · simp [h]
  · simp [h]

theorem setOutput_wf (s : State) (bs : List Byte) (n : Nat) (h : s.obuf.wf = true) :
    (s.setOutput bs n).obuf.wf = true := by
  rw [setOutput_obuf]
  exact Memory.keepBelow_wf (Memory.writeBytes_wf h 0 bs) _

/-! The bytes of an encoded sequence (R152 to R155). -/

theorem packDigits_length (ds : Digits) : (packDigits ds).length = (ds.length + 1) / 2 := by
  induction ds using packDigits.induct with
  | case1 => rfl
  | case2 d => simp [packDigits]
  | case3 lo hi rest ih => simp [packDigits, ih]; omega

/-- Byte i holds digit 2i in its low nibble and digit 2i + 1, or 0 where there is none, in its high one (R152, R153). -/
theorem packDigits_get (ds : Digits) (i : Nat) (h : i < (ds.length + 1) / 2) :
    (packDigits ds)[i]? = some (ds.getD (2 * i + 1) 0 ++ ds.getD (2 * i) 0) := by
  induction ds using packDigits.induct generalizing i with
  | case1 => simp at h
  | case2 d =>
    have : i = 0 := by simp at h; omega
    subst this; rfl
  | case3 lo hi rest ih =>
    cases i with
    | zero => rfl
    | succ i =>
      have e1 : 2 * (i + 1) + 1 = (2 * i + 1) + 2 := by omega
      have e2 : 2 * (i + 1) = 2 * i + 2 := by omega
      rw [e1, e2, packDigits, List.getElem?_cons_succ, ih i (by simp at h; omega)]
      rfl

/-! The characters of a limb (R145). -/

@[simp] theorem limbChars_length (v : DWord) : (limbChars v).length = 18 := rfl

theorem flatMap_limbChars_length (vs : List DWord) : (vs.flatMap limbChars).length = 18 * vs.length := by
  induction vs with
  | nil => rfl
  | cons v vs ih => simp [ih]; omega

/-- The value of a run of digit characters, most significant first (R56, R147). -/
def charsVal (acc : Nat) (cs : List Byte) : Nat := cs.foldl (fun a c => 10 * a + (c.toNat - 0x30)) acc

theorem charsVal_append (acc : Nat) (xs ys : List Byte) : charsVal acc (xs ++ ys) = charsVal (charsVal acc xs) ys := by
  simp [charsVal]

/-- The positions k - 1 down to 0. -/
def down : Nat → List Nat
  | 0 => []
  | k + 1 => k :: down k

theorem foldl_down (v k acc : Nat) :
    (down k).foldl (fun a j => 10 * a + v / 10 ^ j % 10) acc = 10 ^ k * acc + v % 10 ^ k := by
  induction k generalizing acc with
  | zero => simp [down, Nat.mod_one]
  | succ k ih =>
    rw [down, List.foldl_cons, ih, Nat.mod_pow_succ, pow_succ]
    ring

theorem charsVal_limbChars (acc : Nat) (v : DWord) (h : v.toNat < limbBase) :
    charsVal acc (limbChars v) = limbBase * acc + v.toNat := by
  have e : ∀ x : Nat, (BitVec.ofNat 8 (0x30 + x % 10)).toNat - 0x30 = x % 10 := by
    intro x; simp only [BitVec.toNat_ofNat]; omega
  have hd : limbChars v = (down 18).map (fun j => BitVec.ofNat 8 (0x30 + v.toNat / 10 ^ j % 10)) := rfl
  rw [charsVal, hd, List.foldl_map]
  simp only [e]
  rw [foldl_down, Nat.mod_eq_of_lt (show v.toNat < 10 ^ 18 from h)]
  rfl

/-- The numeral of a sequence of limbs denotes the number the sequence denotes (R145). -/
theorem charsVal_chars (vs : List DWord) (h : ∀ v ∈ vs, v.toNat < limbBase) :
    charsVal 0 (vs.reverse.flatMap limbChars) = limbsVal vs := by
  induction vs with
  | nil => rfl
  | cons v vs ih =>
    rw [List.reverse_cons, List.flatMap_append, charsVal_append, ih (fun w hw => h w (by simp [hw]))]
    simp only [List.flatMap_cons, List.flatMap_nil, List.append_nil]
    rw [charsVal_limbChars _ _ (h v (by simp)), limbsVal]
    omega

/-- A byte made of two digits (R152). -/
theorem nibbles_toNat (hi lo : Digit) : (hi ++ lo : BitVec 8).toNat = lo.toNat + 16 * hi.toNat := by
  rw [BitVec.toNat_append, ← Nat.shiftLeft_add_eq_or_of_lt lo.isLt, Nat.shiftLeft_eq]; omega

/-- The characters of a run of limbs, limb by limb. -/
theorem flatMap_limbChars_get (ws : List DWord) (k r : Nat) (w : DWord) (h : ws[k]? = some w) (hr : r < 18) :
    (ws.flatMap limbChars)[18 * k + r]? = (limbChars w)[r]? := by
  induction ws generalizing k with
  | nil => simp at h
  | cons x ws ih =>
    cases k with
    | zero =>
      simp only [List.getElem?_cons_zero, Option.some.injEq] at h
      subst h
      rw [List.flatMap_cons, List.getElem?_append_left (by simpa using hr)]; simp
    | succ k =>
      rw [List.flatMap_cons, List.getElem?_append_right (by simp; omega), ← ih k (by simpa using h)]
      congr 1; simp; omega

end Sys2Proof.Machine
end

