-- ==== Sys2Proof/Laws/Invariants.lean ====
section
/-! SUPPORT. Which updates of the state keep the invariants of Safety.lean, and that the results of the digit functions fit in
a register. -/

namespace Sys2Proof.Machine

open Sys2Proof

/-! The results of the digit functions fit in `DCAP` digits. -/

theorem injectHere_length (buf : Digits) (v c : Nat) : (injectHere buf v c).length = buf.length := by
  induction buf generalizing v c with
  | nil => rfl
  | cons d ds ih => simp only [injectHere]; split <;> simp [ih]

theorem inject_length (buf : Digits) (k v : Nat) : (inject buf k v).length = buf.length := by
  induction buf generalizing k with
  | nil => cases k <;> rfl
  | cons d ds ih =>
    cases k with
    | zero => exact injectHere_length _ _ _
    | succ k => simp [inject, ih]

theorem mulRow_length (bs buf : Digits) (k : Nat) (ai : Digit) : (mulRow buf k ai bs).length = buf.length := by
  induction bs generalizing buf k with
  | nil => rfl
  | cons b bs ih => simp [mulRow, ih, inject_length]

theorem mulRows_length (as bs buf : Digits) (i : Nat) : (mulRows buf i as bs).length = buf.length := by
  induction as generalizing buf i with
  | nil => rfl
  | cons a as ih => simp [mulRows, ih, mulRow_length]

theorem trimZeros_length (ds : Digits) : (trimZeros ds).length ≤ ds.length := by
  induction ds with
  | nil => simp [trimZeros]
  | cons d ds ih =>
    simp only [trimZeros]
    cases h : trimZeros ds with
    | nil => simp only; split <;> simp
    | cons e es => rw [h] at ih; simpa using ih

theorem normalise_length {ds : Digits} (h : ds ≠ []) : (normalise ds).length ≤ ds.length := by
  have hl := trimZeros_length ds
  have hp := List.length_pos_iff.mpr h
  unfold normalise
  split
  · exact hp
  · next e => rwa [e] at hl

theorem dmul_length {dcap : Nat} {a b r : Digits} (h : dmul dcap a b = .ok r) : r.length ≤ dcap := by
  unfold dmul at h
  simp only [bind_eq_ok, allocCheck_eq_ok, except_pure, Except.ok.injEq] at h
  obtain ⟨_, h, rfl⟩ := h
  refine Nat.le_trans (normalise_length ?_) ?_
  · apply List.ne_nil_of_length_pos; simp [mulRows_length]
  · simpa [mulRows_length] using h

theorem addPositions_length (m : Nat) (a b : Digits) (c : Nat) : (addPositions m a b c).length ≤ m + 1 := by
  induction m generalizing a b c with
  | zero => simp only [addPositions]; split <;> simp
  | succ m ih => simp only [addPositions, List.length_cons]; have := ih a.tail b.tail (addPosition (a.headD 0) (b.headD 0) c).2; omega

theorem dadd_length {dcap : Nat} {a b r : Digits} (h : dadd dcap a b = .ok r) : r.length ≤ dcap := by
  unfold dadd at h
  simp only [bind_eq_ok, allocCheck_eq_ok, except_pure, Except.ok.injEq] at h
  obtain ⟨_, h, rfl⟩ := h
  exact Nat.le_trans (addPositions_length _ _ _ _) h

theorem fibIteration_length {dcap : Nat} {bit : Bool} {a b : Digits} {p : Digits × Digits}
    (h : fibIteration dcap bit a b = .ok p) : p.1.length ≤ dcap := by
  unfold fibIteration at h
  simp only [bind_eq_ok] at h
  obtain ⟨t1, _, t2, _, c, hc, t3, _, t4, _, d, hd, h⟩ := h
  cases bit
  · simp at h; subst h; exact dmul_length hc
  · simp only [if_true, bind_eq_ok, except_pure, Except.ok.injEq] at h
    obtain ⟨e, _, rfl⟩ := h; exact dadd_length hd

theorem fibScan_length {dcap n : Nat} (i : Nat) {a b r : Digits} (ha : a.length ≤ dcap)
    (h : fibScan dcap n i a b = .ok r) : r.length ≤ dcap := by
  induction i generalizing a b with
  | zero => simp [fibScan] at h; subst h; exact ha
  | succ i ih =>
    simp only [fibScan, bind_eq_ok] at h
    obtain ⟨p, hp, h⟩ := h
    exact ih (fibIteration_length hp) h

theorem fibDigits_length {dcap n : Nat} {r : Digits} (hd : 1 ≤ dcap) (h : fibDigits dcap n = .ok r) :
    r.length ≤ dcap := by
  unfold fibDigits at h
  split at h
  · simp at h; subst h; simpa
  · exact fibScan_length _ (by simpa) h

/-! Which results are never EMPTY (R90). -/

theorem dadd_ne_nil {dcap : Nat} {a b r : Digits} (h : dadd dcap a b = .ok r) (ha : a ≠ []) : r ≠ [] := by
  unfold dadd at h
  simp only [bind_eq_ok, except_pure, Except.ok.injEq] at h
  obtain ⟨_, _, rfl⟩ := h
  have : 0 < max a.length b.length := by have := List.length_pos_iff.mpr ha; omega
  obtain ⟨m, hm⟩ := Nat.exists_eq_succ_of_ne_zero (Nat.pos_iff_ne_zero.mp this)
  rw [hm]; simp [addPositions]

theorem dsub_ne_nil {dcap : Nat} {a b r : Digits} (h : dsub dcap a b = .ok r) (ha : a ≠ []) : r ≠ [] := by
  unfold dsub at h
  simp only [bind_eq_ok, except_pure, Except.ok.injEq] at h
  obtain ⟨_, _, rfl⟩ := h
  have := (minuend_subtrahend_length a b).1
  have : 0 < (minuend a b).length := by have := List.length_pos_iff.mpr ha; omega
  obtain ⟨m, hm⟩ := Nat.exists_eq_succ_of_ne_zero (Nat.pos_iff_ne_zero.mp this)
  rw [hm]; simp [subPositions]

theorem dmul_ne_nil {dcap : Nat} {a b r : Digits} (h : dmul dcap a b = .ok r) : r ≠ [] := by
  unfold dmul at h
  simp only [bind_eq_ok, except_pure, Except.ok.injEq] at h
  obtain ⟨_, _, rfl⟩ := h
  exact (normalise_normalised _).ne_nil

theorem fibDigits_ne_nil {dcap n : Nat} {r : Digits} (h : fibDigits dcap n = .ok r) : r ≠ [] := by
  rcases fibDigits_spec dcap n with ⟨e, _⟩ | ⟨r', e, _, h1, _⟩
  · rw [e] at h; cases h
  · rw [e] at h; cases h; exact h1.ne_nil

/-! The updates of the state that keep the invariants. -/

variable {s : State}

theorem State.Inv.dcap_pos (h : s.Inv) : 4 ≤ s.params.dcap := h.params.1
theorem State.Inv.nnode_le (h : s.Inv) : s.params.nnode ≤ 65535 := h.params.2.2.2
theorem State.Inv.two_le_nnode (h : s.Inv) : 2 ≤ s.params.nnode := h.params.2.2.1

/-- `OCAP` fits the 32 bits of `OLEN` and `OCNT` (R7, R42, R43). -/
theorem Params.ocap_lt {p : Params} (h : p.Legal) : p.ocap < 2 ^ 32 := by
  obtain ⟨_, h2, _, h4⟩ := h
  unfold Params.ocap
  omega

theorem State.Inv.pending (h : s.Inv) (as : List HostAction) : State.Inv { s with pending := as } :=
  ⟨h.params, h.digits, h.capacity, h.store, h.canonical, h.held, h.olen, h.cause, h.sticky⟩

theorem State.Inv.setDreg (h : s.Inv) {ds : Digits} (r : DReg) (hd : DigitsOk ds) (hl : ds.length ≤ s.params.dcap) :
    (s.setDreg r ds).Inv := by
  refine ⟨h.params, fun q => ?_, fun q => ?_, h.store, h.canonical, h.held, h.olen, h.cause, h.sticky⟩
  · rw [setDreg_dreg]; split
    · exact hd
    · exact h.digits q
  · rw [setDreg_dreg]; split
    · exact hl
    · exact h.capacity q

theorem State.Inv.setResult (h : s.Inv) (v : DWord) : (s.setResult v).Inv :=
  ⟨h.params, h.digits, h.capacity, h.store, h.canonical, h.held, h.olen, h.cause, h.sticky⟩

theorem State.Inv.setStore (h : s.Inv) {st : ListStore} (hs : StoreOk s.params.nnode st) : (s.setStore st).Inv :=
  ⟨h.params, h.digits, h.capacity, hs, h.canonical, h.held, h.olen, h.cause, h.sticky⟩

theorem State.Inv.setOutput (h : s.Inv) {bs : List Byte} (n : Nat) (hb : bs.length ≤ s.params.ocap) :
    (s.setOutput bs n).Inv := by
  have hlt : bs.length < 2 ^ 32 := Nat.lt_of_le_of_lt hb (Params.ocap_lt h.params)
  have hol : (s.setOutput bs n).olen.toNat = bs.length := by
    simp only [setOutput_olen, BitVec.toNat_ofNat]; exact Nat.mod_eq_of_lt hlt
  refine ⟨h.params, h.digits, h.capacity, h.store, setOutput_wf s bs n h.canonical, fun a => ?_, ?_, h.cause, h.sticky⟩
  · rw [setOutput_read, hol]; simp
  · rw [hol]; exact hb

theorem State.Inv.clearSticky (h : s.Inv) : s.clearSticky.Inv :=
  ⟨h.params, h.digits, h.capacity, h.store, h.canonical, h.held, h.olen, h.cause, by simp⟩

theorem State.Inv.complete (h : s.Inv) : s.complete.Inv :=
  ⟨h.params, h.digits, h.capacity, h.store, h.canonical, h.held, h.olen, by simp, h.sticky⟩

theorem State.Inv.raise (h : s.Inv) (c : FaultCode) : (s.raise c).Inv := by
  refine ⟨h.params, h.digits, h.capacity, h.store, h.canonical, h.held, h.olen, by rw [raise_cause]; cases c <;> decide, ?_⟩
  obtain ⟨h0, h7⟩ := h.sticky
  simp only [raise_esticky, BitVec.getLsbD_or, h0, h7]
  cases c <;> decide

theorem State.Inv.hostRead (h : s.Inv) (r : CtrlReg) : (s.hostRead r).Inv :=
  ⟨h.params, h.digits, h.capacity, h.store, h.canonical, h.held, h.olen, h.cause, h.sticky⟩

theorem State.Inv.hostWriteArg (h : s.Inv) (v : DWord) : (s.hostWriteArg v).Inv :=
  ⟨h.params, h.digits, h.capacity, h.store, h.canonical, h.held, h.olen, h.cause, h.sticky⟩

/-- The pool and the lists after reset satisfy R29. -/
theorem ListStore.empty_ok (n : Nat) : StoreOk n (ListStore.empty n) := by
  refine ⟨fun _ => [], by simp [ListStore.empty], fun l => ?_, fun p h => by simp at h, fun p nd h hu => ?_⟩
  · cases l <;> exact ⟨rfl, rfl, rfl, by simp, trivial⟩
  · simp only [ListStore.empty, List.getElem?_replicate] at h
    split at h
    · cases h; simp [Node.free] at hu
    · cases h

/-! Runs. -/

theorem run_next {M : Host.Core} {k : Nat} {s t : M.State} (h : M.step s = .next t) : M.run (k + 1) s = M.run k t := by
  rw [Host.Core.run, h]

theorem core_run_next {k : Nat} {s t : State} (h : step s = .next t) : core.run (k + 1) s = core.run k t :=
  run_next (M := core) h

/-! The bytes of the two outputs fit in the buffer (R152, R145). -/

theorem State.Inv.pack_le (h : s.Inv) (r : DReg) : (packDigits (s.dreg r)).length ≤ s.params.ocap := by
  have := h.capacity r
  rw [packDigits_length]
  unfold Params.ocap
  omega

/-- The reverse traversal of a list that satisfies R29 (R145). -/
theorem ListStore.chars_ok {n : Nat} {st : ListStore} (hn : n ≤ 65535) (h : StoreOk n st) (l : ListId) :
    st.chars l = .ok ((st.seq l).reverse.flatMap limbChars) := by
  obtain ⟨ps, h⟩ := h
  have hl := h.lists l
  have hsz : st.nodes.length ≤ 65535 := h.size ▸ hn
  have hle : (ps l).length ≤ st.nodes.length := by
    have := h.length_le
    rw [h.size]; cases l <;> omega
  unfold ListStore.chars
  rw [hl.tail, limbsBack_linked hsz nilPtr hl.linked _ hle, h.seq_eq hn]
  rfl

theorem StoreOk.seq_length_le {n : Nat} {st : ListStore} (hn : n ≤ 65535) (h : StoreOk n st) (l : ListId) :
    (st.seq l).length ≤ n := by
  have := h.free_add hn
  cases l <;> omega

/-- Traversal from the head (R136). -/
theorem ListStore.limbFrom_ok {n : Nat} {st : ListStore} (hn : n ≤ 65535) (h : StoreOk n st) (l : ListId) {i : Nat}
    (hi : i < (st.seq l).length) : ListStore.limbFrom st.nodes i (st.desc l).head = .ok ((st.seq l).getD i 0) := by
  obtain ⟨ps, h⟩ := h
  have hl := h.lists l
  have hsz : st.nodes.length ≤ 65535 := h.size ▸ hn
  rw [h.seq_eq hn] at hi ⊢
  rw [hl.head, limbFrom_linked hsz hl.linked i (by simpa using hi)]

end Sys2Proof.Machine
end

