-- ==== Sys2Proof/Laws/PerInstr.lean ====
section
/-! SUPPORT. For every command: its word hits the row the opcode table gives it, and the fields of that row read the command's
operands back (R67, R72). One lemma per constructor of `Instr`. -/

namespace Sys2Proof.Laws.OwnRow

open Sys2Proof

/-- The word of a well-formed command hits its own row, and that row builds the command from it. -/
def Statement (i : Instr) : Prop :=
  i.wellFormed = true → i.op.hits (encode i) = true ∧ i.op.build (encode i) = i

theorem nop : Statement .nop := fun _ => ⟨by decide, rfl⟩
theorem clrerr : Statement .clrerr := fun _ => ⟨by decide, rfl⟩

theorem dset (rd : DReg) (imm : Nat) : Statement (.dset rd imm) := fun h => by
  have hi : imm < 16 := by simpa [Instr.wellFormed, immOk] using h
  refine ⟨(hits_fields ..).mpr (by simp [Instr.op, Op.format, Format.maskFields]), ?_⟩
  simp only [encode, layout_eq_fields, Instr.op, Op.build, rdField, immField, rdBits_fields, immBits_fields,
    regBits_toFin, BitVec.toNat_ofNat]
  rw [Nat.mod_eq_of_lt hi]

theorem dpush (rd : DReg) (imm : Nat) : Statement (.dpush rd imm) := fun h => by
  have hi : imm < 16 := by simpa [Instr.wellFormed, immOk] using h
  refine ⟨(hits_fields ..).mpr (by simp [Instr.op, Op.format, Format.maskFields]), ?_⟩
  simp only [encode, layout_eq_fields, Instr.op, Op.build, rdField, immField, rdBits_fields, immBits_fields,
    regBits_toFin, BitVec.toNat_ofNat]
  rw [Nat.mod_eq_of_lt hi]

theorem dfree (rd : DReg) : Statement (.dfree rd) := fun _ =>
  ⟨(hits_fields ..).mpr (by simp [Instr.op, Op.format, Format.maskFields]), by
    simp only [encode, layout_eq_fields, Instr.op, Op.build, rdField, rdBits_fields, regBits_toFin]⟩

theorem dmov (rd ra : DReg) : Statement (.dmov rd ra) := fun _ =>
  ⟨(hits_fields ..).mpr (by simp [Instr.op, Op.format, Format.maskFields]), by
    simp only [encode, layout_eq_fields, Instr.op, Op.build, rdField, raField, rdBits_fields, raBits_fields,
      regBits_toFin]⟩

theorem dlen (ra : DReg) : Statement (.dlen ra) := fun _ =>
  ⟨(hits_fields ..).mpr (by simp [Instr.op, Op.format, Format.maskFields]), by
    simp only [encode, layout_eq_fields, Instr.op, Op.build, raField, raBits_fields, regBits_toFin]⟩

theorem drd (ra : DReg) : Statement (.drd ra) := fun _ =>
  ⟨(hits_fields ..).mpr (by simp [Instr.op, Op.format, Format.maskFields]), by
    simp only [encode, layout_eq_fields, Instr.op, Op.build, raField, raBits_fields, regBits_toFin]⟩

theorem dadd (rd ra rb : DReg) : Statement (.dadd rd ra rb) := fun _ =>
  ⟨(hits_fields ..).mpr (by simp [Instr.op, Op.format, Format.maskFields]), by
    simp only [encode, layout_eq_fields, Instr.op, Op.build, rdField, raField, rbField, rdBits_fields, raBits_fields,
      rbBits_fields, regBits_toFin]⟩

theorem dsub (rd ra rb : DReg) : Statement (.dsub rd ra rb) := fun _ =>
  ⟨(hits_fields ..).mpr (by simp [Instr.op, Op.format, Format.maskFields]), by
    simp only [encode, layout_eq_fields, Instr.op, Op.build, rdField, raField, rbField, rdBits_fields, raBits_fields,
      rbBits_fields, regBits_toFin]⟩

theorem dmul (rd ra rb : DReg) : Statement (.dmul rd ra rb) := fun _ =>
  ⟨(hits_fields ..).mpr (by simp [Instr.op, Op.format, Format.maskFields]), by
    simp only [encode, layout_eq_fields, Instr.op, Op.build, rdField, raField, rbField, rdBits_fields, raBits_fields,
      rbBits_fields, regBits_toFin]⟩

theorem fibd (rd : DReg) : Statement (.fibd rd) := fun _ =>
  ⟨(hits_fields ..).mpr (by simp [Instr.op, Op.format, Format.maskFields]), by
    simp only [encode, layout_eq_fields, Instr.op, Op.build, rdField, rdBits_fields, regBits_toFin]⟩

theorem denc (ra : DReg) : Statement (.denc ra) := fun _ =>
  ⟨(hits_fields ..).mpr (by simp [Instr.op, Op.format, Format.maskFields]), by
    simp only [encode, layout_eq_fields, Instr.op, Op.build, raField, raBits_fields, regBits_toFin]⟩

theorem ord : Statement .ord := fun _ => ⟨by decide, rfl⟩

theorem lclr (lt : ListId) : Statement (.lclr lt) := fun _ => by cases lt <;> exact ⟨by decide, rfl⟩
theorem lapp (lt : ListId) : Statement (.lapp lt) := fun _ => by cases lt <;> exact ⟨by decide, rfl⟩
theorem lacc (lt ls : ListId) : Statement (.lacc lt ls) := fun _ => by
  cases lt <;> cases ls <;> exact ⟨by decide, rfl⟩
theorem lcnt (ls : ListId) : Statement (.lcnt ls) := fun _ => by cases ls <;> exact ⟨by decide, rfl⟩
theorem lrd (ls : ListId) : Statement (.lrd ls) := fun _ => by cases ls <;> exact ⟨by decide, rfl⟩
theorem lfib : Statement .lfib := fun _ => ⟨by decide, rfl⟩
theorem lstr (ls : ListId) : Statement (.lstr ls) := fun _ => by cases ls <;> exact ⟨by decide, rfl⟩

end Sys2Proof.Laws.OwnRow
end

