-- ==== Sys2Proof/Tests/Slice0.lean ====
section
/-! SUPPORT. The model's own tests: what `WellFormed` refuses, words of the spec's encoding decoded, one step of every command
against a worked example of its rule, and for every statement that has hypotheses a state and operands that meet them. The
expected results are the spec's (the rule is named at each), worked out by hand where the rule gives no example. -/

namespace Sys2Proof.Tests

open Sys2Proof Sys2Proof.Machine Sys2Proof.Claims

/- The theorems below are evaluations by the kernel: one after another, since each would take a thread of its own. -/
set_option Elab.async false

/-! WellFormed refuses an immediate of more than four bits (R66), on each of the two commands that have one. -/

theorem test_dset_imm_16_refused : (Instr.dset 0 16).wellFormed = false := by decide
theorem test_dpush_imm_16_refused : (Instr.dpush 3 16).wellFormed = false := by decide
theorem test_dset_imm_15_accepted : (Instr.dset 0 15).wellFormed = true := by decide

/-! Decoding: op, rd, ra, rb, z, imm written out bit by bit from R66, R68 and R72, most significant bit first. -/

theorem test_decode_nop : decode 0b00000000000000000000000000000000 = .ok .nop := by decide
theorem test_decode_clrerr : decode 0b00000001000000000000000000000000 = .ok .clrerr := by decide
theorem test_decode_dset : decode 0b00010000000000000000000000000101 = .ok (.dset 0 5) := by decide
theorem test_decode_dpush : decode 0b00010001001100000000000000001001 = .ok (.dpush 3 9) := by decide
theorem test_decode_dpush_imm_15 : decode 0b00010001000100000000000000001111 = .ok (.dpush 1 15) := by decide
theorem test_decode_dfree : decode 0b00010010111100000000000000000000 = .ok (.dfree 15) := by decide
theorem test_decode_dmov : decode 0b00010011001001110000000000000000 = .ok (.dmov 2 7) := by decide
theorem test_decode_dlen : decode 0b00010100000001000000000000000000 = .ok (.dlen 4) := by decide
theorem test_decode_drd : decode 0b00010101000001000000000000000000 = .ok (.drd 4) := by decide
theorem test_decode_dadd : decode 0b00011000001100010010000000000000 = .ok (.dadd 3 1 2) := by decide
theorem test_decode_dsub : decode 0b00011001000000000001000000000000 = .ok (.dsub 0 0 1) := by decide
theorem test_decode_dmul : decode 0b00011010111111101101000000000000 = .ok (.dmul 15 14 13) := by decide
theorem test_decode_fibd : decode 0b00100000000100000000000000000000 = .ok (.fibd 1) := by decide
theorem test_decode_denc : decode 0b00101000000000010000000000000000 = .ok (.denc 1) := by decide
theorem test_decode_ord : decode 0b00101001000000000000000000000000 = .ok .ord := by decide
theorem test_decode_lclr : decode 0b00110000000100000000000000000000 = .ok (.lclr .l1) := by decide
theorem test_decode_lapp : decode 0b00110001000000000000000000000000 = .ok (.lapp .l0) := by decide
theorem test_decode_lacc : decode 0b00110010000000010000000000000000 = .ok (.lacc .l0 .l1) := by decide
theorem test_decode_lacc_swapped : decode 0b00110010000100000000000000000000 = .ok (.lacc .l1 .l0) := by decide
theorem test_decode_lcnt : decode 0b00110011000000010000000000000000 = .ok (.lcnt .l1) := by decide
theorem test_decode_lrd : decode 0b00110100000000000000000000000000 = .ok (.lrd .l0) := by decide
theorem test_decode_lfib : decode 0b00110101000000000000000000000000 = .ok .lfib := by decide
theorem test_decode_lstr : decode 0b00110110000000010000000000000000 = .ok (.lstr .l1) := by decide

/-- R75: an op not in the table, a used op with a non-zero z, list 2, and a non-zero unused field. -/
theorem test_decode_illegal :
    decode 0x02000000 = .error .unknownOp ∧ decode 0x18312010 = .error .reservedBits ∧
    decode 0x30200000 = .error .listNumber ∧ decode 0x14140000 = .error .reservedBits := by decide

/-- R79: the encoder writes the example words. -/
theorem test_encode_examples :
    encode (.dpush 3 9) = 0x11300009 ∧ encode (.dmul 15 14 13) = 0x1AFED000 ∧ encode (.lacc .l1 .l0) = 0x32100000 ∧
    encode (.lstr .l1) = 0x36010000 := by decide

theorem test_decodeTableWord : decodeTableWord 32 0x11300009 = some (.dpush 3 9) ∧ decodeTableWord 32 0x02000000 = none := by
  decide

/-! States for the tests. -/

/-- The next state of an outcome. -/
def nextOf (o : Host.Outcome State Fault Refusal) : Option State :=
  match o with
  | .next t => some t
  | .fault _ => none
  | .refused _ => none

/-- One field of the next state, and the cause left. -/
def left {α : Type} (f : State → α) (o : Host.Outcome State Fault Refusal) : Option (α × Nat) :=
  (nextOf o).map (fun t => (f t, t.cause.toNat))

/-- The storage after appending a limb, or as it was when no node is free. -/
def appended (st : ListStore) (l : ListId) (v : DWord) : ListStore :=
  match st.append l v with
  | .ok p => p.2
  | .error _ => st

theorem appended_ok {n : Nat} {st : ListStore} (hn : n ≤ 65535) (h : StoreOk n st) (l : ListId) (v : DWord)
    (hv : v.toNat < limbBase) : StoreOk n (appended st l v) := by
  unfold appended
  rcases append_seq hn h l v hv with ⟨_, e⟩ | ⟨_, p, st', e, o, _⟩
  · rw [e]; exact h
  · rw [e]; exact o

/-- The smallest register, and a pool of four nodes. -/
def small : Params := ⟨4, 4⟩

def start : State := State.resetWith small

/-- D1 = "999", D2 = "1", D3 = "99", D4 = "0999", D5 = "3", D6 = "5", D7 = "0", D8 = "9", the others EMPTY. -/
def digits : State :=
  (((((((start.setDreg 1 [9, 9, 9]).setDreg 2 [1]).setDreg 3 [9, 9]).setDreg 4 [9, 9, 9, 0]).setDreg 5 [3]).setDreg 6
    [5]).setDreg 7 [0]).setDreg 8 [9]

/-- L0 = [5, 1], L1 = [10^18 - 1]: one node free. -/
def lists : ListStore :=
  appended (appended (appended (ListStore.empty 4) .l0 5) .l0 1) .l1 999999999999999999

/-- L0 = [5, 1], L1 = [10^18 - 1, 10^18 - 1]: no node free. -/
def fullLists : ListStore := appended lists .l1 999999999999999999

/-- Digit registers, lists and an output: what `DENC` of "144" leaves (R152). `ARG` = v. -/
def busy (v : DWord) : State := ((digits.setStore lists).setOutput [0x44, 0x01] 3).hostWriteArg v

/-- The same with no node free. -/
def full (v : DWord) : State := (busy v).setStore fullLists

theorem start_inv : start.Inv where
  params := by decide
  digits := by intro r; simp [start, State.resetWith, State.dreg, DigitsOk]
  capacity := by intro r; simp [start, State.resetWith, State.dreg]
  store := ListStore.empty_ok 4
  canonical := rfl
  held := by intro a; simp [start, State.resetWith, Memory.read]
  olen := by decide
  cause := by decide
  sticky := by decide

theorem lists_ok : StoreOk 4 lists :=
  appended_ok (by decide) (appended_ok (by decide) (appended_ok (by decide) (ListStore.empty_ok 4) .l0 5 (by decide)) .l0 1
    (by decide)) .l1 _ (by decide)

theorem digits_inv : digits.Inv :=
  (((((((start_inv.setDreg 1 (by decide) (by decide)).setDreg 2 (by decide) (by decide)).setDreg 3 (by decide)
    (by decide)).setDreg 4 (by decide) (by decide)).setDreg 5 (by decide) (by decide)).setDreg 6 (by decide)
    (by decide)).setDreg 7 (by decide) (by decide)).setDreg 8 (by decide) (by decide)

theorem busy_inv (v : DWord) : (busy v).Inv :=
  ((digits_inv.setStore lists_ok).setOutput 3 (by decide)).hostWriteArg v

theorem full_inv (v : DWord) : (full v).Inv :=
  (busy_inv v).setStore (appended_ok (by decide) lists_ok .l1 _ (by decide))

theorem lists_seq : lists.seq .l0 = [5, 1] ∧ lists.seq .l1 = [999999999999999999] ∧ lists.free = 1 := by decide +kernel
theorem fullLists_free : fullLists.free = 0 ∧ fullLists.seq .l1 = [999999999999999999, 999999999999999999] := by
  decide +kernel

/-! One step of every command. -/

/-- R158: after an IllegalCommand, `CAUSE` is 0 and `ESTICKY` as it was. -/
theorem test_nop_keeps_sticky :
    left State.esticky (exec .nop ((busy 0).raise .illegalCommand)) = some (0x08, 0) := by decide +kernel

/-- R159: after an IllegalCommand (`ESTICKY` = 0x08), `CLRERR` leaves `ESTICKY` = 0. -/
theorem test_clrerr_clears :
    left State.esticky (exec .clrerr ((busy 0).raise .illegalCommand)) = some (0, 0) := by decide +kernel

/-- R89: `DSET D0, 5` leaves "5"; imm 10 raises IllegalOperand and leaves the register. -/
theorem test_dset_value : left (fun t => t.dreg 0) (exec (.dset 0 5) (busy 0)) = some ([5], 0) := by decide +kernel
theorem test_dset_ten : left (fun t => t.dreg 1) (exec (.dset 1 10) (busy 0)) = some ([9, 9, 9], 5) := by decide +kernel

/-- R91: "3" with 0 pushed is "03"; R169: imm 12 on an EMPTY register is EmptyOperand. -/
theorem test_dpush_zero : left (fun t => t.dreg 5) (exec (.dpush 5 0) (busy 0)) = some ([3, 0], 0) := by decide +kernel
theorem test_dpush_empty_first : left (fun t => t.dreg 0) (exec (.dpush 0 12) (busy 0)) = some ([], 4) := by decide +kernel

/-- R93. -/
theorem test_dfree_releases : left (fun t => t.dreg 1) (exec (.dfree 1) (busy 0)) = some ([], 0) := by decide +kernel

/-- R94: the copy keeps a leading zero, and the source. -/
theorem test_dmov_copies :
    left (fun t => (t.dreg 2, t.dreg 4)) (exec (.dmov 2 4) (busy 0)) = some (([9, 9, 9, 0], [9, 9, 9, 0]), 0) := by
  decide +kernel

/-- R96: leading zeros count; an EMPTY register gives 0 without a fault. -/
theorem test_dlen_counts_zeros : left State.result (exec (.dlen 4) (busy 0)) = some (4, 0) := by decide +kernel
theorem test_dlen_empty : left State.result (exec (.dlen 0) (busy 0)) = some (0, 0) := by decide +kernel

/-- R97: the digits of "0999" from the units digit on: position 3 is 0, position 4 is out of range. -/
theorem test_drd_top : left State.result (exec (.drd 4) (busy 3)) = some (0, 0) := by decide +kernel
theorem test_drd_range : left State.result (exec (.drd 4) (busy 4)) = some (0, 6) := by decide +kernel

/-- R100: 999 + 1 = 1000; R87: a sum of a register of length DCAP faults though no carry would occur. -/
theorem test_dadd_carry :
    left (fun t => t.dreg 3) (exec (.dadd 3 1 2) (busy 0)) = some ([0, 0, 0, 1], 0) := by decide +kernel
theorem test_dadd_bound : left (fun t => t.dreg 3) (exec (.dadd 3 4 2) (busy 0)) = some ([9, 9], 1) := by decide +kernel

/-- R102: 1 - 999 swaps, three digits; R103: "3" - "5" of equal length wraps to "8". -/
theorem test_dsub_swaps : left (fun t => t.dreg 2) (exec (.dsub 2 2 1) (busy 0)) = some ([8, 9, 9], 0) := by decide +kernel
theorem test_dsub_wraps : left (fun t => t.dreg 9) (exec (.dsub 9 5 6) (busy 0)) = some ([8], 0) := by decide +kernel

/-- R105: 99 * 9 = 891, and the bound la + lb + 1 = 5 exceeds 4 for 99 * 99. -/
theorem test_dmul_product : left (fun t => t.dreg 9) (exec (.dmul 9 3 8) (busy 0)) = some ([1, 9, 8], 0) := by decide +kernel
theorem test_dmul_bound : left (fun t => t.dreg 9) (exec (.dmul 9 3 3) (busy 0)) = some ([], 1) := by decide +kernel

/-- R110: F(10) = 55; a negative index is InvalidIndex. -/
theorem test_fibd_ten : left (fun t => t.dreg 1) (exec (.fibd 1) (busy 10)) = some ([5, 5], 0) := by decide +kernel
theorem test_fibd_negative :
    left (fun t => t.dreg 1) (exec (.fibd 1) (busy 0xFFFFFFFFFFFFFFFF)) = some ([9, 9, 9], 2) := by decide +kernel

/-- R152: "0999" packs as 0x99, 0x09; "999", of odd length, as 0x99, 0x09 with `OCNT` 3. -/
theorem test_denc_even :
    left (fun t => (t.obuf, t.olen, t.ocnt)) (exec (.denc 4) (busy 0)) = some (([(0, 0x99), (1, 0x09)], 2, 4), 0) := by
  decide +kernel
theorem test_denc_odd :
    left (fun t => (t.obuf, t.olen, t.ocnt)) (exec (.denc 1) (busy 0)) = some (([(0, 0x99), (1, 0x09)], 2, 3), 0) := by
  decide +kernel

/-- R156: after the `DENC` of "144", index 1 gives 0x01 and index 2 is out of range. -/
theorem test_ord_byte : left State.result (exec .ord (busy 1)) = some (0x01, 0) := by decide +kernel
theorem test_ord_range : left State.result (exec .ord (busy 2)) = some (0, 6) := by decide +kernel

/-- R129: [5, 1] is released, two nodes more are free, the other list stays. -/
theorem test_lclr_releases :
    left (fun t => (t.store.seq .l0, t.store.free, t.store.seq .l1)) (exec (.lclr .l0) (busy 0)) =
      some (([], 3, [999999999999999999]), 0) := by decide +kernel

/-- R130: the limb goes to the most significant end; 10^18 is IllegalOperand. -/
theorem test_lapp_appends :
    left (fun t => t.store.seq .l0) (exec (.lapp .l0) (busy 7)) = some ([5, 1, 7], 0) := by decide +kernel
theorem test_lapp_range :
    left (fun t => t.store.seq .l0) (exec (.lapp .l0) (busy 1000000000000000000)) = some ([5, 1], 5) := by decide +kernel

/-- R133: 10^18 + 5 added to 10^18 - 1: the carry goes into the limb the walk appends. -/
theorem test_lacc_carries :
    left (fun t => (t.store.seq .l1, t.store.seq .l0, t.store.free)) (exec (.lacc .l1 .l0) (busy 0)) =
      some (([4, 2], [5, 1], 0), 0) := by decide +kernel
theorem test_lacc_same_list : left State.store (exec (.lacc .l0 .l0) (busy 0)) = some (lists, 5) := by decide +kernel

/-- R135, R136: two limbs, position 0 the least significant. -/
theorem test_lcnt_counts : left State.result (exec (.lcnt .l0) (busy 0)) = some (2, 0) := by decide +kernel
theorem test_lrd_head : left State.result (exec (.lrd .l0) (busy 0)) = some (5, 0) := by decide +kernel
theorem test_lrd_range : left State.result (exec (.lrd .l0) (busy 2)) = some (0, 6) := by decide +kernel

/-- R137: for 10, L0 = [55] and L1 = [34], `RESULT` = 0; R139: for 174 three limbs and two exceed four nodes. -/
theorem test_lfib_ten :
    left (fun t => (t.store.seq .l0, t.store.seq .l1, t.result)) (exec .lfib (busy 10)) = some (([55], [34], 0), 0) := by
  decide +kernel
theorem test_lfib_capacity : left State.store (exec .lfib (busy 174)) = some (lists, 1) := by decide +kernel

/-- R145: [5, 1] is 36 characters: the digit 1 at byte 17, the digit 5 at byte 35, "0" in every other. -/
theorem test_lstr_renders :
    left (fun t => (t.olen, t.ocnt)) (exec (.lstr .l0) (busy 0)) = some ((36, 36), 0) ∧
    left (fun t => (t.obuf.read 0, t.obuf.read 17, t.obuf.read 35)) (exec (.lstr .l0) (busy 0)) =
      some ((some 0x30, some 0x31, some 0x35), 0) := by decide +kernel

/-- R37: the word of `DSET D0, 5` written to `CMD`, as the first thing after reset. -/
theorem test_step_runs_first_word :
    left (fun t => (t.dreg 0, t.pending)) (step (State.reset.withFetchWord 32 0x10000005)) = some (([5], []), 0) := by
  decide +kernel

/-- R75: an illegal word raises IllegalCommand: `ESTICKY` bit 3. -/
theorem test_step_illegal_word :
    left State.esticky (step (State.reset.withFetchWord 32 0x00000001)) = some (0x08, 3) := by decide +kernel

/-! Witnesses: for every statement with hypotheses, a state and operands that meet all of them, clause by clause, at a boundary
where the clause has one. -/

/-- DecodeInvertsEncode: the largest immediate, and a list command. -/
theorem witness_wellFormed : (Instr.dset 0 15).wellFormed = true ∧ (Instr.lacc .l1 .l0).wellFormed = true := by decide

/-- EncodeInvertsDecode: every field of the word at its largest value. -/
theorem witness_decodes : decode 0x11F0000F = .ok (.dpush 15 15) ∧ decode 0x1AFFF000 = .ok (.dmul 15 15 15) := by decide

/-- DecodeFollowsOpcodeTable: a word that hits a row, and one that hits none. -/
theorem witness_rows :
    (0x32110000 : Word) &&& Op.lacc.mask = Op.lacc.pattern ∧ ∀ o : Op, (0x02000000 : Word) &&& o.mask ≠ o.pattern := by
  refine ⟨by decide, fun o => ?_⟩
  cases o <;> decide

/-- The state in which the host's one pending action is this. -/
def about (a : HostAction) : State := { busy 0 with pending := [a] }

theorem about_inv (a : HostAction) : (about a).Inv := (busy_inv 0).pending [a]

/-- StepRunsDecodedCommand. -/
theorem witness_step_decoded :
    (about (.writeCmd 0x10000005)).pending = .writeCmd 0x10000005 :: [] ∧ decode 0x10000005 = .ok (.dset 0 5) := by decide

/-- IdleStepKeepsState. -/
theorem witness_idle : (busy 0).pending = [] := by decide

/-- ResetStatesAreWellFormed: the least and the greatest parameters. -/
theorem witness_params : Params.Legal ⟨4, 2⟩ ∧ Params.Legal ⟨2147483647, 65535⟩ := by decide

/-- EveryStepKeepsTheInvariants: a command step, a host step and an idle step. -/
theorem witness_inv_step :
    ((about (.writeCmd 0x01000000)).Inv ∧ ∃ t, step (about (.writeCmd 0x01000000)) = .next t) ∧
    ((about .reset).Inv ∧ ∃ t, step (about .reset) = .next t) ∧ ((busy 0).Inv ∧ ∃ t, step (busy 0) = .next t) :=
  ⟨⟨about_inv _, _, rfl⟩, ⟨about_inv _, _, rfl⟩, ⟨busy_inv 0, _, rfl⟩⟩

/-- EveryCommandCompletesOrFaults, RunsNeverStop, and every other statement whose one hypothesis is the invariant. -/
theorem witness_inv : (busy 0).Inv ∧ (full 0).Inv ∧ start.Inv := ⟨busy_inv 0, full_inv 0, start_inv⟩

/-- FaultChangesOnlyCauseAndSticky, FaultingCommandFaultsAgain, FaultsOnlyAsTabled, the faulting half of the frames. -/
theorem witness_fault :
    ((busy 0).Inv ∧ ∃ t, exec (.dmov 1 0) (busy 0) = .next t ∧ t.cause ≠ 0) ∧
    (∃ t, issue 0x02000000 (busy 0) = .next t ∧ t.cause ≠ 0) :=
  ⟨⟨busy_inv 0, _, rfl, by decide⟩, ⟨_, rfl, by decide⟩⟩

/-- CompletionKeepsSticky: both clauses. -/
theorem witness_completion :
    (∃ t, exec .nop (busy 0) = .next t ∧ t.cause = 0 ∧ Instr.nop ≠ .clrerr) ∧
    (∃ t, exec .clrerr (busy 0) = .next t ∧ t.cause = 0) := ⟨⟨_, rfl, rfl, by decide⟩, ⟨_, rfl, rfl⟩⟩

/-- StickyBitsStaySet: a command that faults, a bit that is set before an action that is neither `CLRERR` nor reset, and the
invariant. -/
theorem witness_sticky :
    (∃ t, perform (.writeCmd 0x02000000) (busy 0) = .next t ∧ t.cause ≠ 0) ∧
    (∃ t, perform (.writeCmd 0x00000000) ((busy 0).raise .indexRange) = .next t ∧
      HostAction.writeCmd 0x00000000 ≠ .reset ∧ decode 0x00000000 ≠ .ok .clrerr ∧
      ((busy 0).raise .indexRange).esticky.getLsbD 6 = true) ∧
    (∃ t, perform .reset (busy 0) = .next t ∧ (busy 0).Inv) :=
  ⟨⟨_, rfl, by decide⟩, ⟨_, rfl, by decide, by decide, by decide⟩, ⟨_, rfl, busy_inv 0⟩⟩

/-- CommandsKeepArg. -/
theorem witness_next : ∃ t, exec (.dlen 1) (busy 3) = .next t := ⟨_, rfl⟩

/-- ResultWrittenOnlyByCompletedReads and OutputWrittenOnlyByEncoders: a command that does not write, and a writing one that
faults. -/
theorem witness_frames :
    (∃ t, exec (.dset 0 1) (busy 0) = .next t ∧ writesResult (.dset 0 1) = false ∧ writesOutput (.dset 0 1) = false) ∧
    (∃ t, exec (.drd 0) (busy 0) = .next t ∧ t.cause ≠ 0) ∧
    (∃ t, exec (.denc 0) (busy 0) = .next t ∧ t.cause ≠ 0) :=
  ⟨⟨_, rfl, rfl, rfl⟩, ⟨_, rfl, by decide⟩, ⟨_, rfl, by decide⟩⟩

/-- OnlyTheDestinationRegisterChanges, the register being a source. -/
theorem witness_destination : (∃ t, exec (.dmov 0 1) (busy 0) = .next t) ∧ writtenRegister (.dmov 0 1) ≠ some 1 :=
  ⟨⟨_, rfl⟩, by decide⟩

/-- OnlyTheTargetListChanges: a command that writes no list, and each of the three that do. -/
theorem witness_lists :
    (∃ t, exec (.lcnt .l0) (busy 0) = .next t ∧ writesLists (.lcnt .l0) = false) ∧
    ((busy 0).Inv ∧ ListId.l1 ≠ .l0 ∧ (∃ t, exec (.lclr .l0) (busy 0) = .next t) ∧
      (∃ t, exec (.lapp .l0) (busy 0) = .next t) ∧ ∃ t, exec (.lacc .l0 .l1) (busy 0) = .next t) :=
  ⟨⟨_, rfl, rfl⟩, busy_inv 0, by decide, ⟨_, rfl⟩, ⟨_, rfl⟩, ⟨_, rfl⟩⟩

/-- OnlyDfreeEmptiesARegister: a register made EMPTY, and one made valid. -/
theorem witness_empties :
    (∃ t, exec (.dfree 1) (busy 0) = .next t ∧ t.dreg 1 = []) ∧
    (∃ t, exec (.dset 0 1) (busy 0) = .next t ∧ (busy 0).dreg 0 = [] ∧ t.dreg 0 ≠ []) :=
  ⟨⟨_, rfl, by decide⟩, ⟨_, rfl, by decide, by decide⟩⟩

/-- ReadsAreIdempotent: a read command that completes, and a host read. -/
theorem witness_reads :
    (readOnly (.lrd .l0) = true ∧ ∃ t, exec (.lrd .l0) (busy 1) = .next t ∧ t.cause = 0) ∧
    ∃ t, perform (.read (.status .ocnt)) (busy 1) = .next t := ⟨⟨rfl, _, rfl, rfl⟩, _, rfl⟩

/-- The lists of `busy`, built in another order: other nodes, other pointers, the same sequences. -/
def otherLists : ListStore :=
  appended (appended (appended (ListStore.empty 4) .l1 999999999999999999) .l0 5) .l0 1

theorem otherLists_ok : StoreOk 4 otherLists :=
  appended_ok (by decide) (appended_ok (by decide) (appended_ok (by decide) (ListStore.empty_ok 4) .l1 _ (by decide)) .l0 5
    (by decide)) .l0 _ (by decide)

/-- PointersAreUnobservable: two pools that differ. -/
theorem witness_alike :
    lists ≠ otherLists ∧ (busy 1).Inv ∧ ((busy 1).setStore otherLists).Inv ∧
    Alike (busy 1) ((busy 1).setStore otherLists) ∧ (∃ t, exec (.lrd .l0) (busy 1) = .next t) ∧
    ∃ t, exec (.lrd .l0) ((busy 1).setStore otherLists) = .next t :=
  ⟨by decide +kernel, busy_inv 1, (busy_inv 1).setStore otherLists_ok,
   ⟨rfl, fun l => by cases l <;> decide +kernel, ⟨rfl, rfl, rfl⟩, ⟨rfl, rfl, rfl, rfl⟩, ⟨rfl, rfl, rfl⟩⟩, ⟨_, rfl⟩, ⟨_, rfl⟩⟩

/-- DsetSetsOneDigit and DpushAppendsTopDigit: an immediate of each clause, and the last register that has room. -/
theorem witness_digit_imm :
    (9 : Nat) < 16 ∧ ¬ (9 : Nat) < 9 ∧ (10 : Nat) < 16 ∧ (9 : Nat) < 10 ∧ ((busy 0).dreg 0).length = 0 ∧
    ((busy 0).dreg 1).length + 1 = (busy 0).params.dcap ∧ (busy 0).params.dcap < ((busy 0).dreg 4).length + 1 := by
  decide +kernel

/-- DrdReadsDigit: EMPTY, the first position out of range, the last one in range. -/
theorem witness_drd :
    ((busy 0).dreg 0).length = 0 ∧ (0 < ((busy 3).dreg 1).length ∧ ((busy 3).dreg 1).length = (busy 3).arg.toNat) ∧
    ((busy 2).dreg 1)[(busy 2).arg.toNat]? = some 9 := by decide +kernel

/-- DaddAdds and DaddCommutesWithIdentityZero: an EMPTY operand, the first sum that does not fit, the last one that does, and
the one-digit 0. -/
theorem witness_dadd :
    (DigitsOk ((busy 0).dreg 1) ∧ DigitsOk ((busy 0).dreg 2) ∧ DigitsOk ((busy 0).dreg 4)) ∧ (busy 0).dreg 0 = [] ∧
    ((busy 0).dreg 4 ≠ [] ∧ (busy 0).dreg 2 ≠ [] ∧
      (busy 0).params.dcap + 1 = max ((busy 0).dreg 4).length ((busy 0).dreg 2).length + 1) ∧
    ((busy 0).dreg 1 ≠ [] ∧ max ((busy 0).dreg 1).length ((busy 0).dreg 2).length + 1 = (busy 0).params.dcap) ∧
    ((busy 0).dreg 7 = [0] ∧ ((busy 0).dreg 1).length + 1 ≤ (busy 0).params.dcap) := by decide +kernel

/-- DsubSubtracts: an EMPTY operand; unequal lengths; equal lengths with the first value the smaller and not the smaller. -/
theorem witness_dsub :
    (busy 0).Inv ∧ ((busy 0).dreg 0 = [] ∧ (busy 0).dreg 1 ≠ [] ∧ (busy 0).dreg 2 ≠ []) ∧
    digitsVal ((busy 0).dreg 5) < digitsVal ((busy 0).dreg 6) ∧
    digitsVal ((busy 0).dreg 5) ≤ digitsVal ((busy 0).dreg 5) ∧
    ((busy 0).dreg 2).length < ((busy 0).dreg 1).length := ⟨busy_inv 0, by decide +kernel⟩

/-- DmulMultiplies and DmulCommutesWithZero: the first product that does not fit, the last one that does, and a zero. -/
theorem witness_dmul :
    (DigitsOk ((busy 0).dreg 3) ∧ DigitsOk ((busy 0).dreg 8) ∧ DigitsOk ((busy 0).dreg 7)) ∧ (busy 0).dreg 0 = [] ∧
    ((busy 0).dreg 3 ≠ [] ∧ (busy 0).params.dcap + 1 = ((busy 0).dreg 3).length + ((busy 0).dreg 3).length + 1) ∧
    ((busy 0).dreg 8 ≠ [] ∧ ((busy 0).dreg 3).length + ((busy 0).dreg 8).length + 1 = (busy 0).params.dcap) ∧
    (digitsVal ((busy 0).dreg 7) = 0 ∧ (busy 0).dreg 7 ≠ [] ∧
      ((busy 0).dreg 3).length + ((busy 0).dreg 7).length + 1 ≤ (busy 0).params.dcap) := by decide +kernel

/-- FibdComputesFibonacci and FibdOfZeroIsZero: the greatest negative index, the greatest index the last clause covers with
four digits, and 0. -/
theorem witness_fibd :
    (busy 0xFFFFFFFFFFFFFFFF).arg.toInt < 0 ∧ (busy 11).arg.toInt = (11 : Nat) ∧
    (Nat.fib (11 / 2 + 1) < 10 ^ 1 ∧ 2 * 1 + 2 = (busy 11).params.dcap) ∧ (busy 0).arg = 0 := by decide +kernel

/-- FibonacciEnginesReadOnlyArg: two states that share `ARG` and the parameters only, and both engines run in each. -/
theorem witness_engines :
    (busy 10).arg = (start.hostWriteArg 10).arg ∧ (busy 10).params = (start.hostWriteArg 10).params ∧
    (busy 10).Inv ∧ (start.hostWriteArg 10).Inv ∧
    (nextOf (exec (.fibd 1) (busy 10))).isSome = true ∧ (nextOf (exec (.fibd 1) (start.hostWriteArg 10))).isSome = true ∧
    (nextOf (exec .lfib (busy 10))).isSome = true ∧ (nextOf (exec .lfib (start.hostWriteArg 10))).isSome = true :=
  ⟨rfl, rfl, busy_inv 10, start_inv.hostWriteArg 10, by decide +kernel, by decide +kernel, by decide +kernel,
   by decide +kernel⟩

/-- OutputEndsAtOlen: each of the two encoders, and the first address beyond what it wrote. -/
theorem witness_output :
    (busy 0).Inv ∧ writesOutput (.denc 1) = true ∧ (∃ t, exec (.denc 1) (busy 0) = .next t ∧ t.cause = 0 ∧ t.olen.toNat ≤ 2) ∧
    writesOutput (.lstr .l1) = true ∧ ∃ t, exec (.lstr .l1) (busy 0) = .next t ∧ t.cause = 0 ∧ t.olen.toNat ≤ 18 :=
  ⟨busy_inv 0, rfl, ⟨_, rfl, rfl, by decide +kernel⟩, rfl, ⟨_, rfl, rfl, by decide +kernel⟩⟩

/-- DencPacksDigits and DecodingRecoversEncodedDigits: EMPTY, an odd and an even number of digits, and the last byte. -/
theorem witness_denc :
    (busy 0).Inv ∧ (busy 0).dreg 0 = [] ∧ ((busy 0).dreg 1 ≠ [] ∧ ((busy 0).dreg 1).length % 2 = 1) ∧
    ((busy 0).dreg 4 ≠ [] ∧ ((busy 0).dreg 4).length % 2 = 0) ∧ (∃ t, exec (.denc 1) (busy 0) = .next t) ∧
    1 < (((busy 0).dreg 1).length + 1) / 2 :=
  ⟨busy_inv 0, by decide +kernel, by decide +kernel, by decide +kernel, ⟨_, rfl⟩, by decide +kernel⟩

/-- OrdReadsOutputByte: the first index beyond the output, the last one in it. -/
theorem witness_ord :
    ((busy 2).Inv ∧ (busy 2).olen.toNat = (busy 2).arg.toNat) ∧ ((busy 1).Inv ∧ (busy 1).arg.toNat + 1 = (busy 1).olen.toNat) :=
  ⟨⟨busy_inv 2, by decide +kernel⟩, ⟨busy_inv 1, by decide +kernel⟩⟩

/-- LappAppendsLimb: the least value out of range, the greatest in range with no node free and with one. -/
theorem witness_lapp :
    ((busy 1000000000000000000).Inv ∧ 1000000000000000000 ≤ (busy 1000000000000000000).arg.toNat) ∧
    ((full 999999999999999999).Inv ∧ (full 999999999999999999).arg.toNat < 1000000000000000000 ∧
      (full 999999999999999999).store.free = 0) ∧
    ((busy 999999999999999999).Inv ∧ (busy 999999999999999999).arg.toNat < 1000000000000000000 ∧
      0 < (busy 999999999999999999).store.free) :=
  ⟨⟨busy_inv _, by decide +kernel⟩, ⟨full_inv _, by decide +kernel, by decide +kernel⟩,
   ⟨busy_inv _, by decide +kernel, by decide +kernel⟩⟩

/-- LaccAccumulates: the same list; one node needed and none free; one node needed and one free. -/
theorem witness_lacc :
    (busy 0).Inv ∧
    ((full 0).Inv ∧ ListId.l0 ≠ .l1 ∧
      (full 0).store.free + 1 = nodesNeeded ((full 0).store.seq .l0) ((full 0).store.seq .l1)) ∧
    (ListId.l1 ≠ .l0 ∧ nodesNeeded ((busy 0).store.seq .l1) ((busy 0).store.seq .l0) = (busy 0).store.free) :=
  ⟨busy_inv 0, ⟨full_inv 0, by decide, by decide +kernel⟩, by decide, by decide +kernel⟩

/-- LrdReadsLimb: the first position out of range, the last one in range. -/
theorem witness_lrd :
    ((busy 2).Inv ∧ ((busy 2).store.desc .l0).cnt = (busy 2).arg.toNat) ∧
    ((busy 1).Inv ∧ (busy 1).arg.toNat + 1 = ((busy 1).store.desc .l0).cnt) :=
  ⟨⟨busy_inv 2, by decide +kernel⟩, ⟨busy_inv 1, by decide +kernel⟩⟩

/-- LfibComputesFibonacci: a negative index, the least index that does not fit in four nodes, the greatest that does, and 0. -/
theorem witness_lfib :
    (busy 0x8000000000000000).arg.toInt < 0 ∧
    ((busy 174).arg.toInt = (174 : Nat) ∧ (busy 174).params.nnode < nodesForFib 174) ∧
    ((busy 173).arg.toInt = (173 : Nat) ∧ nodesForFib 173 = (busy 173).params.nnode) ∧
    ((busy 0).arg.toInt = (0 : Nat) ∧ nodesForFib 0 ≤ (busy 0).params.nnode) := by decide +kernel

/-- LstrRendersList: the two limbs of a list, the first and the last character of one. -/
theorem witness_lstr :
    (busy 0).Inv ∧ ((busy 0).store.seq .l0)[0]? = some 5 ∧ ((busy 0).store.seq .l0)[1]? = some 1 ∧ 0 < 18 ∧ 17 < 18 :=
  ⟨busy_inv 0, by decide +kernel, by decide +kernel, by decide, by decide⟩

/-- LargestIndicesWithTheDefaults: the four indices. -/
theorem witness_largest :
    ((State.reset.hostWriteArg 2441).params = Params.default ∧ (State.reset.hostWriteArg 2441).arg.toInt = (2441 : Nat)) ∧
    (State.reset.hostWriteArg 2442).arg.toInt = (2442 : Nat) ∧ (State.reset.hostWriteArg 2757).arg.toInt = (2757 : Nat) ∧
    (State.reset.hostWriteArg 2758).arg.toInt = (2758 : Nat) := by decide +kernel

theorem witness_reset_inv (v : DWord) : (State.reset.hostWriteArg v).Inv where
  params := by show Params.default.Legal; decide
  digits := by intro r; simp [State.reset, State.resetWith, State.dreg, State.hostWriteArg, DigitsOk]
  capacity := by intro r; simp [State.reset, State.resetWith, State.dreg, State.hostWriteArg]
  store := ListStore.empty_ok 64
  canonical := rfl
  held := by intro a; simp [State.reset, State.resetWith, Memory.read, State.hostWriteArg]
  olen := by show (0 : BitVec 32).toNat ≤ _; simp
  cause := by show (0 : Byte).toNat ≤ 6; decide
  sticky := by show (0 : Byte).getLsbD 0 = false ∧ (0 : Byte).getLsbD 7 = false; decide

/-- The state `LFIB` leaves for 10 in `start`. -/
def afterLfib : State := (nextOf (exec .lfib (start.hostWriteArg 10))).getD start

/-- EnginesAgree: index 10 in both engines, and the text rendered. -/
theorem witness_agree :
    (start.hostWriteArg 10).Inv ∧ (start.hostWriteArg 10).arg.toInt = (10 : Nat) ∧
    left State.cause (exec (.fibd 1) (start.hostWriteArg 10)) = some (0, 0) ∧
    exec .lfib (start.hostWriteArg 10) = .next afterLfib ∧ afterLfib.cause = 0 ∧
    (nextOf (exec (.lstr (if 10 % 2 = 0 then .l0 else .l1)) afterLfib)).isSome = true :=
  ⟨start_inv.hostWriteArg 10, by decide +kernel, by decide +kernel, rfl, by decide +kernel, by decide +kernel⟩

end Sys2Proof.Tests
end

section
/-! What a completed command may change, by kind of command. The frame statements of 10_state.md are case analyses over
these seven kinds. -/

namespace Sys2Proof.Claims

open Sys2Proof Sys2Proof.Machine

variable {i : Instr} {s t u : State} {w : Word}

/-- The piece of the state a completed command writes, before `CAUSE` is cleared: one piece for every command but `NOP`, which
writes none, and `LFIB`, which writes the lists and `RESULT`. -/
inductive Update (i : Instr) (s : State) : State → Prop where
  | nothing : i = .nop → Update i s s
  | sticky : i = .clrerr → Update i s s.clearSticky
  | register (r : DReg) (ds : Digits) : writtenRegister i = some r → Update i s (s.setDreg r ds)
  | result (v : DWord) : readOnly i = true → Update i s (s.setResult v)
  | output (bytes : List Byte) (count : Nat) : writesOutput i = true → Update i s (s.setOutput bytes count)
  | lists (st : ListStore) : writesLists i = true → i ≠ .lfib → Update i s (s.setStore st)
  | listsAndResult (st : ListStore) (v : DWord) : i = .lfib → Update i s ((s.setStore st).setResult v)

/-- Every command writes as its kind says. -/
theorem update_of_wrote (h : Wrote i s u) : Update i s u := by
  cases i with
  | nop => obtain rfl := h; exact .nothing rfl
  | clrerr => obtain rfl := h; exact .sticky rfl
  | dset rd _ => obtain ⟨_, rfl⟩ := h; exact .register rd _ rfl
  | dpush rd _ => obtain ⟨_, _, _, rfl⟩ := h; exact .register rd _ rfl
  | dfree rd => obtain rfl := h; exact .register rd _ rfl
  | dmov rd _ => obtain ⟨_, rfl⟩ := h; exact .register rd _ rfl
  | dlen _ => obtain rfl := h; exact .result _ rfl
  | drd _ => obtain ⟨_, rfl⟩ := h; exact .result _ rfl
  | dadd rd _ _ => obtain ⟨_, _, _, _, rfl⟩ := h; exact .register rd _ rfl
  | dsub rd _ _ => obtain ⟨_, _, _, _, rfl⟩ := h; exact .register rd _ rfl
  | dmul rd _ _ => obtain ⟨_, _, _, _, rfl⟩ := h; exact .register rd _ rfl
  | fibd rd => obtain ⟨_, _, _, _, rfl⟩ := h; exact .register rd _ rfl
  | denc _ => obtain ⟨_, rfl⟩ := h; exact .output _ _ rfl
  | ord => obtain ⟨_, _, _, rfl⟩ := h; exact .result _ rfl
  | lclr _ => obtain ⟨_, _, rfl⟩ := h; exact .lists _ rfl nofun
  | lapp _ => obtain ⟨_, _, _, _, rfl⟩ := h; exact .lists _ rfl nofun
  | lacc _ _ => obtain ⟨_, _, _, rfl⟩ := h; exact .lists _ rfl nofun
  | lcnt _ => obtain rfl := h; exact .result _ rfl
  | lrd _ => obtain ⟨_, _, _, rfl⟩ := h; exact .result _ rfl
  | lfib => obtain ⟨_, _, _, _, rfl⟩ := h; exact .listsAndResult _ _ rfl
  | lstr _ => obtain ⟨_, _, rfl⟩ := h; exact .output _ _ rfl

/-- A command that answers a next state completes with an update of its kind, or takes a fault. -/
theorem exec_update (h : exec i s = .next t) : (∃ u, Update i s u ∧ t = u.complete) ∨ ∃ c, t = s.raise c :=
  (exec_next h).imp_left fun ⟨u, hw, ht⟩ => ⟨u, update_of_wrote hw, ht⟩

/-- A write of `CMD` executes the command its word encodes; a word that is no command takes a fault (R37, R75). -/
theorem issue_update (h : issue w s = .next t) :
    (∃ i u, decode w = .ok i ∧ Update i s u ∧ t = u.complete) ∨ ∃ c, t = s.raise c := by
  unfold issue at h
  split at h
  · next i hd => exact (exec_update h).imp_left fun ⟨u, hu, ht⟩ => ⟨i, u, hd, hu, ht⟩
  · next => cases h; exact .inr ⟨.illegalCommand, rfl⟩

/-! `RESULT` (R39). -/

theorem Update.result_eq (h : Update i s u) (hi : writesResult i = false) : u.result = s.result := by
  cases h with
  | nothing _ => rfl
  | sticky _ => rfl
  | register r ds _ => rfl
  | output bytes count _ => rfl
  | lists st _ _ => rfl
  | result v hr => simp [writesResult, hr] at hi
  | listsAndResult st v hl => subst hl; simp [writesResult] at hi

/-- Settles O21: a fault takes no write of the command, and only two kinds of update write `RESULT`. -/
theorem resultWrittenOnlyByCompletedReads : Obligations.ResultWrittenOnlyByCompletedReads := by
  intro i s t h hcase
  obtain ⟨u, hu, rfl⟩ | ⟨c, rfl⟩ := exec_update h
  · have hi : writesResult i = false := hcase.resolve_right fun hc => hc (complete_cause u)
    rw [complete_result, hu.result_eq hi]
  · exact raise_result s c

/-! `ESTICKY` (R41). -/

theorem Update.esticky_eq_or (h : Update i s u) : u.esticky = s.esticky ∨ i = .clrerr ∧ u.esticky = 0 := by
  cases h with
  | sticky hi => exact .inr ⟨hi, rfl⟩
  | nothing _ => exact .inl rfl
  | register r ds _ => exact .inl rfl
  | result v _ => exact .inl rfl
  | output bytes count _ => exact .inl rfl
  | lists st _ _ => exact .inl rfl
  | listsAndResult st v _ => exact .inl rfl

/-- What a write of `CMD` does to `ESTICKY`: nothing and the clearing of `CLRERR`, both with `CAUSE` 0, or a fault. -/
theorem issue_esticky (h : issue w s = .next t) :
    (t.cause = 0 ∧ (t.esticky = s.esticky ∨ decode w = .ok .clrerr ∧ t.esticky = 0)) ∨ ∃ c, t = s.raise c := by
  refine (issue_update h).imp_left ?_
  rintro ⟨i, u, hd, hu, rfl⟩
  exact ⟨complete_cause u, hu.esticky_eq_or.imp_right fun ⟨hi, he⟩ => ⟨hi ▸ hd, he⟩⟩

@[simp] theorem hostReset_esticky (s : State) : s.hostReset.esticky = 0 := rfl

theorem raise_sets_sticky (s : State) (c : FaultCode) :
    (s.raise c).esticky.getLsbD (s.raise c).cause.toNat = true := by
  have hbit : (BitVec.ofNat 8 (2 ^ c.number)).getLsbD (BitVec.ofNat 8 c.number).toNat = true := by cases c <;> decide
  rw [raise_esticky, raise_cause, BitVec.getLsbD_or, hbit, Bool.or_true]

theorem raise_keeps_sticky {b : Nat} (c : FaultCode) (hb : s.esticky.getLsbD b = true) :
    (s.raise c).esticky.getLsbD b = true := by
  rw [raise_esticky, BitVec.getLsbD_or, hb, Bool.true_or]

theorem issue_sets_sticky (h : issue w s = .next t) (hc : t.cause ≠ 0) : t.esticky.getLsbD t.cause.toNat = true := by
  obtain ⟨h0, _⟩ | ⟨c, rfl⟩ := issue_esticky h
  · exact absurd h0 hc
  · exact raise_sets_sticky s c

theorem issue_keeps_sticky {b : Nat} (h : issue w s = .next t) (hd : decode w ≠ .ok .clrerr)
    (hb : s.esticky.getLsbD b = true) : t.esticky.getLsbD b = true := by
  obtain ⟨_, he | ⟨hd', _⟩⟩ | ⟨c, rfl⟩ := issue_esticky h
  · rw [he, hb]
  · exact absurd hd' hd
  · exact raise_keeps_sticky c hb

theorem issue_keeps_unused_sticky (hs : s.Inv) (h : issue w s = .next t) :
    t.esticky.getLsbD 0 = false ∧ t.esticky.getLsbD 7 = false := by
  obtain ⟨_, he | ⟨_, he⟩⟩ | ⟨c, rfl⟩ := issue_esticky h
  · rw [he]; exact hs.sticky
  · rw [he]; decide
  · exact (hs.raise c).sticky

/-- Settles O19: a write of `CMD` by what it does to `ESTICKY`; the other actions of the host leave it, and reset clears it. -/
theorem stickyBitsStaySet : Obligations.StickyBitsStaySet := by
  intro a s t h
  cases a with
  | writeCmd w =>
    refine ⟨fun _ _ => issue_sets_sticky h, fun _ hd b => issue_keeps_sticky h (hd w rfl), fun hs => ?_⟩
    exact issue_keeps_unused_sticky hs h
  | writeArg v => cases h; exact ⟨nofun, fun _ _ _ hb => hb, fun hs => hs.sticky⟩
  | writeReadOnly r v => cases h; exact ⟨nofun, fun _ _ _ hb => hb, fun hs => hs.sticky⟩
  | read r => cases h; exact ⟨nofun, fun _ _ _ hb => hb, fun hs => hs.sticky⟩
  | reset => cases h; exact ⟨nofun, fun hr => absurd rfl hr, fun _ => by simp⟩

end Sys2Proof.Claims
end

section
/-! The opcode table as the decode procedure (30_encoding.md sections 3 and 4): a word that hits a row, one that hits none.
Both statements write "hits" as `word & mask = match`, the decoder as the check `Op.hits`. -/

namespace Sys2Proof.Claims

open Sys2Proof Sys2Proof.Machine

variable {w : Word} {s : State}

/-- The decoder's check of a row is the comparison of R72. -/
theorem hits_iff {o : Op} : o.hits w = true ↔ w &&& o.mask = o.pattern := beq_iff_eq

theorem find_of_no_row (h : ∀ o : Op, w &&& o.mask ≠ o.pattern) : Op.all.find? (fun o => o.hits w) = none :=
  List.find?_eq_none.mpr fun o _ ho => h o (hits_iff.mp ho)

/-- A word that hits no row is illegal, for one of the reasons of R75. -/
theorem decode_of_no_row (h : ∀ o : Op, w &&& o.mask ≠ o.pattern) : decode w = .error (illegalReason w) := by
  simp only [decode, find_of_no_row h]

/-- Settles O3: rows that one word hits have the same opcode, so they are one row, and it is the row the decoder's search
finds; the search comes back empty when there is none. -/
theorem decodeFollowsOpcodeTable : Obligations.DecodeFollowsOpcodeTable := fun w =>
  ⟨fun _ _ h h' => hits_unique (hits_iff.mpr h) (hits_iff.mpr h'),
   fun _ h => decode_of_hits (hits_iff.mpr h),
   fun h => ⟨illegalReason w, decode_of_no_row h⟩⟩

/-- The shared operation that takes a fault leaves the state R170 describes. -/
theorem raise_eq_faulted (c : FaultCode) : s.raise c = faulted s c.number := rfl

/-- Writing a word that is refused to `CMD` raises IllegalCommand, whatever it is refused for. -/
theorem issue_of_illegal {e : Illegal} (h : decode w = .error e) : issue w s = .next (s.raise .illegalCommand) := by
  simp only [issue, h, illegalCommand, settle_outcome]

/-- Settles O7: such a word is refused by the decoder, and a refused word takes the fault with code 3. -/
theorem illegalWordRaisesIllegalCommand : Obligations.IllegalWordRaisesIllegalCommand := by
  intro s w h
  calc issue w s = .next (s.raise .illegalCommand) := issue_of_illegal (decode_of_no_row h)
    _ = .next (faulted s 3) := by rw [raise_eq_faulted, FaultCode.number]

end Sys2Proof.Claims
end

section
/-! The end of a command on digit registers, and its checks (40_decimal_arith.md sections 1 and 2). Each command below is its
checks, one after another, and one write. -/

namespace Sys2Proof.Claims

open Sys2Proof Sys2Proof.Machine

variable {s : State} {r : DReg}

theorem settle_fault (s : State) (c : FaultCode) : s.settle (.error (.outcome c)) = .next (faulted s c.number) := rfl

theorem settle_setDreg (s : State) (r : DReg) (ds : Digits) :
    s.settle (.ok (s.setDreg r ds)) = .next { s with dregs := s.dregs.set r ds, cause := 0 } := rfl

theorem settle_setResult (s : State) (v : DWord) :
    s.settle (.ok (s.setResult v)) = .next { s with result := v, cause := 0 } := rfl

/-- A command whose first check reads an EMPTY register raises EmptyOperand, whatever it does afterwards (R24, R86). -/
theorem settle_operand_empty (f : Digits → Except Stop State) (h : s.dreg r = []) :
    s.settle (operand s r >>= f) = .next (faulted s 4) := by
  rw [operand_empty h, except_error_bind, settle_fault, FaultCode.number]

/-- A register that is not EMPTY is read and the command goes on with its digits. -/
theorem operand_bind {α : Type} (f : Digits → Except Stop α) (h : s.dreg r ≠ []) : (operand s r >>= f) = f (s.dreg r) := by
  rw [operand_ok h, except_ok_bind]

/-- Settles O29: the one check of `DSET` is that of its immediate. -/
theorem dsetSetsOneDigit : Obligations.DsetSetsOneDigit := by
  intro s rd imm _
  simp only [exec, execDset]
  obtain ⟨himm, hd⟩ | ⟨himm, hd⟩ := digitImm_spec imm
  · rw [hd, if_pos himm, except_error_bind, settle_fault, FaultCode.number]
  · rw [hd, if_neg (Nat.not_lt.mpr himm), except_ok_bind, except_pure, settle_setDreg]

/-- A decimal digit fits the four bits of a digit cell. -/
theorem toNat_digit {imm : Nat} (h : imm ≤ 9) : (BitVec.ofNat 4 imm).toNat = imm := by
  rw [BitVec.toNat_ofNat, Nat.mod_eq_of_lt (by omega)]

/-- A digit at the most significant end counts with the power of ten of its position. -/
theorem digitsVal_append_digit (ds : Digits) (d : Digit) :
    digitsVal (ds ++ [d]) = digitsVal ds + d.toNat * 10 ^ ds.length := by
  rw [digitsVal_append, digitsVal_cons, digitsVal_nil, Nat.mul_zero, Nat.add_zero, Nat.mul_comm]

/-- Settles O30: the three checks are taken in the order of R91. The value after is the value of the digits with one more at
the most significant end. -/
theorem dpushAppendsTopDigit : Obligations.DpushAppendsTopDigit := by
  intro s rd imm _
  refine ⟨?_, fun himm => by rw [digitsVal_append_digit, toNat_digit himm]⟩
  simp only [exec, execDpush, List.length_eq_zero_iff]
  by_cases hrd : s.dreg rd = []
  · rw [if_pos hrd, settle_operand_empty _ hrd]
  rw [if_neg hrd, operand_bind _ hrd]
  obtain ⟨himm, hd⟩ | ⟨himm, hd⟩ := digitImm_spec imm
  · rw [hd, if_pos himm, except_error_bind, settle_fault, FaultCode.number]
  rw [hd, if_neg (Nat.not_lt.mpr himm), except_ok_bind]
  obtain ⟨hcap, hc⟩ | ⟨hcap, hc⟩ := allocCheck_spec s.params.dcap ((s.dreg rd).length + 1)
  · rw [hc, if_pos hcap, except_error_bind, settle_fault, FaultCode.number]
  · rw [hc, if_neg (Nat.not_lt.mpr hcap), except_ok_bind, except_pure, settle_setDreg]

/-- Settles O31: `DFREE` has no check; its write is the EMPTY register. -/
theorem dfreeReleasesRegister : Obligations.DfreeReleasesRegister :=
  fun s rd => settle_setDreg s rd []

/-- Settles O32: the one check of `DMOV` is that its source is not EMPTY, and what it writes is the source as it was read. -/
theorem dmovCopiesRegister : Obligations.DmovCopiesRegister := by
  intro s rd ra
  simp only [exec, execDmov, List.length_eq_zero_iff]
  by_cases hra : s.dreg ra = []
  · rw [if_pos hra, settle_operand_empty _ hra]
  · rw [if_neg hra, operand_bind _ hra, except_pure, settle_setDreg]

/-- Settles O33: `DLEN` has no check, not even for an EMPTY register; its write is the length. -/
theorem dlenReadsLength : Obligations.DlenReadsLength :=
  fun s ra => settle_setResult s (BitVec.ofNat 64 (s.dreg ra).length)

/-- Settles O34: the register is checked before the position. A digit at position `ARG` means that both checks pass. -/
theorem drdReadsDigit : Obligations.DrdReadsDigit := by
  intro s ra
  simp only [exec, execDrd]
  refine ⟨fun hra => settle_operand_empty _ (List.length_eq_zero_iff.mp hra), fun hra harg => ?_, fun d hd => ?_⟩
  · obtain ⟨_, hk⟩ | ⟨hlt, _⟩ := elementIndex_spec s (s.dreg ra).length
    · rw [operand_bind _ (List.length_pos_iff.mp hra), hk, except_error_bind, settle_fault, FaultCode.number]
    · exact absurd hlt (Nat.not_lt.mpr harg)
  · obtain ⟨hlt, _⟩ := List.getElem?_eq_some_iff.mp hd
    have hra : s.dreg ra ≠ [] := List.ne_nil_of_length_pos (Nat.zero_lt_of_lt hlt)
    have hk : elementIndex s (s.dreg ra).length = .ok s.arg.toNat := elementIndex_eq_ok.mpr ⟨hlt, rfl⟩
    have hv : (s.dreg ra).getD s.arg.toNat 0 = d := by rw [List.getD_eq_getElem?_getD, hd, Option.getD_some]
    rw [operand_bind _ hra, hk, except_ok_bind, except_pure, settle_setResult, hv, BitVec.ofNat_toNat]

end Sys2Proof.Claims
end

section
/-! The commands with two digit registers as operands (40_decimal_arith.md sections 3 and 5): the operands are checked, a
digit function checks the room for its result and computes it, and the result is written (R86 to R88). -/

namespace Sys2Proof.Claims

open Sys2Proof Sys2Proof.Machine

/-- What these commands do with a digit function, up to `CAUSE`. -/
def twoOperand (f : Digits → Digits → Except Stop Digits) (rd ra rb : DReg) (s : State) : Except Stop State := do
  let a ← operand s ra
  let b ← operand s rb
  let c ← f a b
  pure (s.setDreg rd c)

section
variable {s : State} {f : Digits → Digits → Except Stop Digits} {rd ra rb : DReg}

theorem exec_dadd : exec (.dadd rd ra rb) s = s.settle (twoOperand (dadd s.params.dcap) rd ra rb s) := rfl

theorem exec_dmul : exec (.dmul rd ra rb) s = s.settle (twoOperand (dmul s.params.dcap) rd ra rb s) := rfl

theorem twoOperand_empty (h : s.dreg ra = [] ∨ s.dreg rb = []) :
    s.settle (twoOperand f rd ra rb s) = .next (faulted s 4) := by
  by_cases hra : s.dreg ra = []
  · exact settle_operand_empty _ hra
  · rw [twoOperand, operand_bind _ hra, settle_operand_empty _ (h.resolve_left hra)]

theorem twoOperand_nonempty (hra : s.dreg ra ≠ []) (hrb : s.dreg rb ≠ []) :
    twoOperand f rd ra rb s = f (s.dreg ra) (s.dreg rb) >>= fun c => .ok (s.setDreg rd c) := by
  rw [twoOperand, operand_bind _ hra, operand_bind _ hrb]
  rfl

/-- What a digit function promises of its result, the command promises of its destination: with room for `need` digits the
result, without it AllocationFailure, and EmptyOperand before either. -/
theorem twoOperand_spec {need : Nat} {P : Digits → Prop}
    (hf : (s.params.dcap < need ∧ f (s.dreg ra) (s.dreg rb) = .error (.outcome .allocationFailure)) ∨
      (need ≤ s.params.dcap ∧ ∃ c, f (s.dreg ra) (s.dreg rb) = .ok c ∧ P c)) :
    ((s.dreg ra = [] ∨ s.dreg rb = []) → s.settle (twoOperand f rd ra rb s) = .next (faulted s 4)) ∧
    (s.dreg ra ≠ [] → s.dreg rb ≠ [] → s.params.dcap < need →
      s.settle (twoOperand f rd ra rb s) = .next (faulted s 1)) ∧
    (s.dreg ra ≠ [] → s.dreg rb ≠ [] → need ≤ s.params.dcap →
      ∃ c, s.settle (twoOperand f rd ra rb s) = .next { s with dregs := s.dregs.set rd c, cause := 0 } ∧ P c) := by
  refine ⟨twoOperand_empty, fun hra hrb hcap => ?_, fun hra hrb hcap => ?_⟩
  · obtain ⟨_, he⟩ := hf.resolve_right fun h => absurd h.1 (Nat.not_le.mpr hcap)
    rw [twoOperand_nonempty hra hrb, he, except_error_bind, settle_fault, FaultCode.number]
  · obtain ⟨_, c, hc, hP⟩ := hf.resolve_left fun h => absurd h.1 (Nat.not_lt.mpr hcap)
    exact ⟨c, by rw [twoOperand_nonempty hra hrb, hc, except_ok_bind, settle_setDreg], hP⟩

end

/-- Settles O35: `DADD` promises of its destination what `dadd` promises of the sum. -/
theorem daddAdds : Obligations.DaddAdds := by
  intro s rd ra rb ha hb n
  rw [exec_dadd]
  exact twoOperand_spec (dadd_spec ha hb)

/-- Settles O38: `DMUL` promises of its destination what `dmul` promises of the product. -/
theorem dmulMultiplies : Obligations.DmulMultiplies := by
  intro s rd ra rb ha hb n
  rw [exec_dmul]
  exact twoOperand_spec (dmul_spec ha hb)

end Sys2Proof.Claims
end

section
/-! The commands on limb lists that write a list or read one limb of it (42_limb_list.md section 2). What the node-level
operation does at sequence level is in Laws/Walks and Laws/Invariants; here it meets the command's checks and its end. -/

namespace Sys2Proof.Claims

open Sys2Proof Sys2Proof.Machine

theorem settle_setStore (s : State) (st : ListStore) :
    s.settle (.ok (s.setStore st)) = .next { s with store := st, cause := 0 } := rfl

/-- Settles O47: clearing a list never stops under R29, so `LCLR` completes with the cleared storage. -/
theorem lclrReleasesList : Obligations.LclrReleasesList := by
  intro s lt hs
  have hn := hs.nnode_le
  obtain ⟨st, hclear, hok, hseq, hother, hfree⟩ := clear_spec hn hs.store lt
  refine ⟨st, ?_, hseq, ?_, hother, ?_⟩
  · simp only [exec, execLclr]
    rw [hclear, except_ok_bind, except_pure, settle_setStore]
  · rw [hok.cnt_eq hn, hseq, List.length_nil]
  · rw [hs.store.cnt_eq hn, hfree]

/-- Settles O48: the range of `ARG` is checked before the insertion looks for a free node. -/
theorem lappAppendsLimb : Obligations.LappAppendsLimb := by
  intro s lt hs
  simp only [exec, execLapp]
  obtain ⟨hbig, hv⟩ | ⟨hlt, hv⟩ := limbValue_spec s
  · have hno : ¬ s.arg.toNat < 1000000000000000000 := Nat.not_lt.mpr hbig
    refine ⟨fun _ => ?_, fun h => absurd h hno, fun h => absurd h hno⟩
    rw [hv, except_error_bind, settle_fault, FaultCode.number]
  have hno : ¬ 1000000000000000000 ≤ s.arg.toNat := Nat.not_le.mpr hlt
  rw [hv, except_ok_bind]
  obtain ⟨h0, happ⟩ | ⟨hpos, p, st, happ, _, hseq, hother, hfree⟩ := append_seq hs.nnode_le hs.store lt s.arg hlt
  · refine ⟨fun h => absurd h hno, fun _ _ => ?_, fun _ hpos => absurd h0 hpos.ne'⟩
    rw [happ, except_error_bind, settle_fault, FaultCode.number]
  · refine ⟨fun h => absurd h hno, fun _ h0 => absurd h0 hpos.ne', fun _ _ => ⟨st, ?_, hseq, hother, hfree⟩⟩
    rw [happ, except_ok_bind, except_pure, settle_setStore]

/-- Settles O50: `LCNT` has no check; its write is the descriptor's count, which R29 ties to the sequence. -/
theorem lcntReadsCount : Obligations.LcntReadsCount := fun s ls =>
  ⟨settle_setResult s (BitVec.ofNat 64 (s.store.desc ls).cnt), fun hs => hs.store.cnt_eq hs.nnode_le ls⟩

/-- Settles O51: the one check of `LRD` is that of the position, and below `cnt` the walk from the head does not stop. -/
theorem lrdReadsLimb : Obligations.LrdReadsLimb := by
  intro s ls hs
  have hn := hs.nnode_le
  simp only [exec, execLrd]
  obtain ⟨hge, hi⟩ | ⟨hlt, hi⟩ := elementIndex_spec s (s.store.desc ls).cnt
  · refine ⟨fun _ => ?_, fun h => absurd h (Nat.not_lt.mpr hge)⟩
    rw [hi, except_error_bind, settle_fault, FaultCode.number]
  · refine ⟨fun h => absurd hlt (Nat.not_lt.mpr h), fun _ => ?_⟩
    have hlen : s.arg.toNat < (s.store.seq ls).length := hs.store.cnt_eq hn ls ▸ hlt
    refine ⟨(s.store.seq ls).getD s.arg.toNat 0, ?_, ?_⟩
    · rw [List.getD_eq_getElem _ _ hlen, List.getElem?_eq_getElem hlen]
    · rw [hi, except_ok_bind, ListStore.limbFrom_ok hn hs.store ls hlen, except_ok_bind, except_pure, settle_setResult]

end Sys2Proof.Claims
end

section
/-! The text of a list (42_limb_list.md section 4): where the character of one digit of one limb stands in it. -/

namespace Sys2Proof.Claims

open Sys2Proof Sys2Proof.Machine

/-- The character for 10^j of a limb, counted from the most significant of its 18. -/
theorem limbChars_get (v : DWord) {j : Nat} (hj : j < 18) :
    (limbChars v)[17 - j]? = some (BitVec.ofNat 8 (0x30 + v.toNat / 10 ^ j % 10)) := by
  have hpos : ∀ j < 18, [17, 16, 15, 14, 13, 12, 11, 10, 9, 8, 7, 6, 5, 4, 3, 2, 1, 0][17 - j]? = some j := by decide
  rw [limbChars, List.getElem?_map, hpos j hj, Option.map_some]

/-- The character for 10^j of limb i of a sequence, in the text that puts the most significant limb first. -/
theorem chars_get {vs : List DWord} {i j : Nat} {v : DWord} (hv : vs[i]? = some v) (hj : j < 18) :
    (vs.reverse.flatMap limbChars)[18 * (vs.length - 1 - i) + (17 - j)]? =
      some (BitVec.ofNat 8 (0x30 + v.toNat / 10 ^ j % 10)) := by
  obtain ⟨hi, _⟩ := List.getElem?_eq_some_iff.mp hv
  have hrev : vs.reverse[vs.length - 1 - i]? = some v := by
    rw [List.getElem?_reverse (by omega), ← hv]
    congr 1
    omega
  rw [flatMap_limbChars_get _ _ _ v hrev (by omega), limbChars_get v hj]

/-- Settles O53: the text of the list is the output, and its length, at most 18 `NNODE`, fits the 32 bits of `OLEN` and
`OCNT`. -/
theorem lstrRendersList : Obligations.LstrRendersList := by
  intro s ls hs
  have hn := hs.nnode_le
  have hlen : ((s.store.seq ls).reverse.flatMap limbChars).length = 18 * (s.store.seq ls).length := by
    rw [flatMap_limbChars_length, List.length_reverse]
  have hfit : (BitVec.ofNat 32 (18 * (s.store.seq ls).length)).toNat = 18 * (s.store.seq ls).length := by
    have := hs.store.seq_length_le hn ls
    rw [BitVec.toNat_ofNat, Nat.mod_eq_of_lt (by omega)]
  refine ⟨(s.setOutput ((s.store.seq ls).reverse.flatMap limbChars) (18 * (s.store.seq ls).length)).complete,
    ?_, rfl, ?_, ?_, fun i v hv j hj => ?_⟩
  · simp only [exec, execLstr]
    rw [ListStore.chars_ok hn hs.store ls, except_ok_bind, except_pure, settle_ok, hlen]
  · rw [complete_olen, setOutput_olen, hlen, hfit]
  · rw [complete_ocnt, setOutput_ocnt, hfit]
  · rw [complete_obuf, setOutput_read, chars_get hv hj]

end Sys2Proof.Claims
end

section
/-! The encoder, the read-out of the output buffer and the system commands (43_encoder_system.md): each command's checks,
its write, and what that write leaves in the buffer. -/

namespace Sys2Proof.Claims

open Sys2Proof Sys2Proof.Machine

variable {s : State} {r : DReg}

/-- `DENC` of a register that is not EMPTY completes with the register's digits packed (R152). -/
theorem exec_denc_nonempty (h : s.dreg r ≠ []) :
    exec (.denc r) s = .next (s.setOutput (packDigits (s.dreg r)) (s.dreg r).length).complete := by
  simp only [exec, execDenc]
  rw [operand_bind _ h, except_pure, settle_ok]

/-- A number of digits within `DCAP` fits the 32 bits of `OLEN` and `OCNT` (R7). -/
theorem toNat_ofNat_of_le_dcap (hs : s.Inv) {n : Nat} (hn : n ≤ s.params.dcap) :
    (BitVec.ofNat 32 n).toNat = n := by
  obtain ⟨_, hcap, _⟩ := hs.params
  rw [BitVec.toNat_ofNat, Nat.mod_eq_of_lt (by omega)]

/-- Settles O43: the bytes of the output are the packed digits, and their number, at most `DCAP`, fits `OLEN`. -/
theorem dencPacksDigits : Obligations.DencPacksDigits := by
  intro s ra hs n m
  refine ⟨fun hra => settle_operand_empty _ hra, fun hra => ⟨_, exec_denc_nonempty hra, ?_, ?_, rfl, fun i hi => ?_⟩⟩
  · have hm : m ≤ s.params.dcap := by
      have hn : n ≤ s.params.dcap := hs.capacity ra
      omega
    rw [complete_olen, setOutput_olen, packDigits_length, toNat_ofNat_of_le_dcap hs hm]
  · rw [complete_ocnt, setOutput_ocnt, toNat_ofNat_of_le_dcap hs (hs.capacity ra)]
  · have hlo : 2 * i < n := by omega
    refine ⟨(s.dreg ra).getD (2 * i) 0, (s.dreg ra).getD (2 * i + 1) 0, _, ?_, ?_, ?_, nibbles_toNat _ _⟩
    · rw [List.getD_eq_getElem _ _ hlo, List.getElem?_eq_getElem hlo]
    · split
      · rfl
      · next hhi => rw [List.getD_eq_default _ _ (Nat.not_lt.mp hhi)]
    · rw [complete_obuf, setOutput_read, packDigits_get _ _ hi]

/-- R45: the buffer holds every byte below `OLEN`. -/
theorem read_of_lt_olen (hs : s.Inv) {a : Nat} (ha : a < s.olen.toNat) : ∃ b, s.obuf.read a = some b :=
  Option.ne_none_iff_exists'.mp ((hs.held a).mpr ha)

/-- Settles O46: the one check of `ORD` is that of the index, and below `OLEN` the byte it reads is held. -/
theorem ordReadsOutputByte : Obligations.OrdReadsOutputByte := by
  intro s hs
  simp only [exec, execOrd]
  obtain ⟨hge, hi⟩ | ⟨hlt, hi⟩ := elementIndex_spec s s.olen.toNat
  · refine ⟨fun _ => ?_, fun h => absurd h (Nat.not_lt.mpr hge)⟩
    rw [hi, except_error_bind, settle_fault, FaultCode.number]
  · refine ⟨fun h => absurd hlt (Nat.not_lt.mpr h), fun _ => ?_⟩
    obtain ⟨b, hb⟩ := read_of_lt_olen hs hlt
    refine ⟨b, hb, ?_⟩
    rw [hi, except_ok_bind, heldByte_eq_ok.mpr hb, except_ok_bind, except_pure, settle_setResult, BitVec.ofNat_toNat]

/-- Settles O28: neither command has a check. `NOP` writes nothing before it completes, `CLRERR` clears `ESTICKY`. -/
theorem nopAndClrerrComplete : Obligations.NopAndClrerrComplete :=
  fun s => ⟨settle_ok s s, settle_ok s s.clearSticky⟩

end Sys2Proof.Claims
end

section
/-! What a command that ends with `CAUSE` not 0 leaves (60_exceptions.md section 2, R170): a command that completes clears
`CAUSE`, so such a command took a fault, and taking a fault writes `CAUSE` and `ESTICKY` alone. -/

namespace Sys2Proof.Claims

open Sys2Proof Sys2Proof.Machine

variable {s t : State}

/-- The outcome codes of R166 are 1 to 6. -/
theorem faultCode_number_bounds (c : FaultCode) : 1 ≤ c.number ∧ c.number ≤ 6 := by
  cases c <;> decide

/-- A state left by completion or by a fault, with `CAUSE` not 0, was left by a fault: it is the state of R170, for a code of
R166. -/
theorem faulted_of_cause_ne_zero (h : (∃ u : State, t = u.complete) ∨ ∃ c, t = s.raise c) (hc : t.cause ≠ 0) :
    ∃ code, 1 ≤ code ∧ code ≤ 6 ∧ t = faulted s code := by
  obtain ⟨u, rfl⟩ | ⟨c, rfl⟩ := h
  · exact absurd (complete_cause u) hc
  · obtain ⟨hlow, hhigh⟩ := faultCode_number_bounds c
    exact ⟨c.number, hlow, hhigh, raise_eq_faulted c⟩

/-- Settles O15: a command, and a word written to `CMD`, completes or takes a fault, and only a fault leaves `CAUSE` not 0. -/
theorem faultChangesOnlyCauseAndSticky : Obligations.FaultChangesOnlyCauseAndSticky := by
  refine ⟨fun i s t h => faulted_of_cause_ne_zero ?_, fun w s t h => faulted_of_cause_ne_zero ?_⟩
  · exact (exec_update h).imp_left fun ⟨u, _, ht⟩ => ⟨u, ht⟩
  · exact (issue_update h).imp_left fun ⟨_, u, _, _, ht⟩ => ⟨u, ht⟩

end Sys2Proof.Claims
end

section
/-! Reset (R185, R186): what each piece of the state is afterwards, whatever the state before it. -/

namespace Sys2Proof.Claims

open Sys2Proof Sys2Proof.Machine

variable (s : State)

@[simp] theorem hostReset_dreg (r : DReg) : s.hostReset.dreg r = [] := Vector.getElem_replicate r.isLt

@[simp] theorem hostReset_store : s.hostReset.store = ListStore.empty s.params.nnode := rfl

theorem empty_nodes_length (n : Nat) : (ListStore.empty n).nodes.length = n := List.length_replicate

theorem used_of_mem_empty {n : Nat} {d : Node} (h : d ∈ (ListStore.empty n).nodes) : d.used = false := by
  rw [List.eq_of_mem_replicate h, Node.free]

@[simp] theorem empty_desc (n : Nat) (l : ListId) : (ListStore.empty n).desc l = ListDesc.empty := by
  cases l <;> rfl

/-- R156 in every state: at and beyond `OLEN` the buffer is not read, so no invariant of it is needed. -/
theorem exec_ord_beyond_olen {s : State} (h : s.olen.toNat ≤ s.arg.toNat) : exec .ord s = .next (faulted s 6) := by
  have hi : elementIndex s s.olen.toNat = .error (.outcome .indexRange) :=
    (elementIndex_spec s s.olen.toNat).elim And.right fun ⟨hlt, _⟩ => absurd hlt (Nat.not_lt.mpr h)
  simp only [exec, execOrd]
  rw [hi, except_error_bind, settle_fault, FaultCode.number]

/-- Settles O10: the registers, the pool and the lists are those of the reset values, the control registers are 0 by
definition, and `ORD` finds every index at or beyond an `OLEN` of 0. -/
theorem resetEmptiesEverything : Obligations.ResetEmptiesEverything := by
  refine fun s => ⟨s.hostReset, rfl, hostReset_dreg s, ?_, fun n hn => ?_, fun l => ?_, rfl, rfl, rfl, rfl, rfl, rfl,
    fun v => exec_ord_beyond_olen (Nat.zero_le v.toNat)⟩
  · rw [hostReset_store, empty_nodes_length]
  · rw [hostReset_store] at hn
    exact used_of_mem_empty hn
  · rw [hostReset_store, empty_desc]
    exact ⟨rfl, rfl, rfl⟩

end Sys2Proof.Claims
end

section
/-! The two Fibonacci engines read `ARG` and the parameters only (R189). The body of each command ends the same way in two
states that share these, and `State.settle` carries that over to the states the command leaves. -/

namespace Sys2Proof.Claims

open Sys2Proof Sys2Proof.Machine

variable {s s' t t' : State}

/-- Two bodies of commands end the same way: with the same stop, or in states related by `R`. -/
inductive EndAlike (R : State → State → Prop) : Except Stop State → Except Stop State → Prop where
  | stop (e : Stop) : EndAlike R (.error e) (.error e)
  | ok {u u' : State} : R u u' → EndAlike R (.ok u) (.ok u')

/-- No outcome code is 0, the `CAUSE` of a command that completed (R40). -/
theorem raise_cause_ne_zero (s : State) (c : FaultCode) : (s.raise c).cause ≠ 0 := by
  rw [raise_cause]
  cases c <;> decide

/-- Bodies that end the same way leave the same `CAUSE`, and related states before `CAUSE` is cleared where they complete. -/
theorem EndAlike.settle {R : State → State → Prop} {q q' : Except Stop State} (hq : EndAlike R q q')
    (h : s.settle q = .next t) (h' : s'.settle q' = .next t') :
    t.cause = t'.cause ∧ (t.cause = 0 → ∃ u u', R u u' ∧ t = u.complete ∧ t' = u'.complete) := by
  cases hq with
  | stop e =>
    cases e with
    | outcome c =>
      cases h
      cases h'
      exact ⟨rfl, fun hc => absurd hc (raise_cause_ne_zero s c)⟩
    | broken f => cases h
  | ok hR =>
    cases h
    cases h'
    exact ⟨rfl, fun _ => ⟨_, _, hR, rfl, rfl⟩⟩

/-- What `FIBD` hands to `State.settle` (R110). -/
def fibdBody (rd : DReg) (s : State) : Except Stop State := do
  let n ← fibIndex s
  let r ← fibDigits s.params.dcap n
  pure (s.setDreg rd r)

theorem exec_fibd (rd : DReg) (s : State) : exec (.fibd rd) s = s.settle (fibdBody rd s) := rfl

/-- What `LFIB` hands to `State.settle` (R137). -/
def lfibBody (s : State) : Except Stop State := do
  let k ← fibIndex s
  let st ← s.store.fib k
  pure ((s.setStore st).setResult (BitVec.ofNat 64 (k % 2)))

theorem exec_lfib (s : State) : exec .lfib s = s.settle (lfibBody s) := rfl

/-- The index both engines take is a function of `ARG` (R70). -/
theorem fibIndex_congr (harg : s.arg = s'.arg) : fibIndex s = fibIndex s' := by
  rw [fibIndex, fibIndex, harg]

/-- `FIBD` computes its digits from the index and `DCAP`; the state enters again only where they are written. -/
theorem fibd_endAlike (rd : DReg) (harg : s.arg = s'.arg) (hparams : s.params = s'.params) :
    EndAlike (fun u u' => u.dreg rd = u'.dreg rd) (fibdBody rd s) (fibdBody rd s') := by
  rw [fibdBody, fibdBody, fibIndex_congr harg, hparams]
  cases fibIndex s' with
  | error e => exact .stop e
  | ok n =>
    rw [except_ok_bind, except_ok_bind]
    cases fibDigits s'.params.dcap n with
    | error e => exact .stop e
    | ok r => exact .ok (by rw [setDreg_dreg_same, setDreg_dreg_same])

/-- `LFIB` on two storages of the same size stops in both or leaves the same sequences: whether there are nodes enough, and
which limbs the lists hold, is fixed by the index (R138, R139). -/
theorem fib_agree {n : Nat} {st st' : ListStore} (hn : n ≤ 65535) (h2 : 2 ≤ n) (h : StoreOk n st) (h' : StoreOk n st')
    (k : Nat) :
    (st.fib k = .error (.outcome .allocationFailure) ∧ st'.fib k = .error (.outcome .allocationFailure)) ∨
    ∃ r r', st.fib k = .ok r ∧ st'.fib k = .ok r' ∧ ∀ l, r.seq l = r'.seq l := by
  obtain ⟨hfew, he⟩ | ⟨henough, r, hr, hlists⟩ := fib_spec hn h2 h k <;>
    obtain ⟨hfew', he'⟩ | ⟨henough', r', hr', hlists'⟩ := fib_spec hn h2 h' k
  · exact .inl ⟨he, he'⟩
  · exact absurd hfew (Nat.not_lt.mpr henough')
  · exact absurd hfew' (Nat.not_lt.mpr henough)
  · exact .inr ⟨r, r', hr, hr', hlists.seq_eq hlists'⟩

/-- `LFIB` discards both lists, so what they held before does not reach its result. -/
theorem lfib_endAlike (hs : s.Inv) (hs' : s'.Inv) (harg : s.arg = s'.arg) (hparams : s.params = s'.params) :
    EndAlike (fun u u' => u.result = u'.result ∧ ∀ l, u.store.seq l = u'.store.seq l) (lfibBody s) (lfibBody s') := by
  rw [lfibBody, lfibBody, fibIndex_congr harg]
  cases fibIndex s' with
  | error e => exact .stop e
  | ok k =>
    rw [except_ok_bind, except_ok_bind]
    obtain ⟨he, he'⟩ | ⟨r, r', hr, hr', hseq⟩ :=
      fib_agree hs.nnode_le hs.two_le_nnode hs.store (hparams ▸ hs'.store) k
    · rw [he, he']
      exact .stop _
    · rw [hr, hr']
      exact .ok ⟨rfl, hseq⟩

/-- Settles O42: both bodies end the same way in the two states, and completion touches neither the destination nor the lists. -/
theorem fibonacciEnginesReadOnlyArg : Obligations.FibonacciEnginesReadOnlyArg := by
  refine fun s s' t t' rd harg hparams => ⟨fun h h' => ?_, fun hs hs' h h' => ?_⟩
  · rw [exec_fibd] at h h'
    refine ((fibd_endAlike rd harg hparams).settle h h').imp_right fun hdone hc => ?_
    obtain ⟨u, u', hdreg, rfl, rfl⟩ := hdone hc
    exact hdreg
  · rw [exec_lfib] at h h'
    refine ((lfib_endAlike hs hs' harg hparams).settle h h').imp_right fun hdone hc => ?_
    obtain ⟨u, u', hresult, rfl, rfl⟩ := hdone hc
    exact hresult

end Sys2Proof.Claims
end

section
/-! The encoding as a round trip (30_encoding.md sections 1, 3 and 5). A row takes from a word the fields its format uses and
drops the others; encoding what it built gives those fields back and 0 in every other. -/

namespace Sys2Proof.Claims

open Sys2Proof Sys2Proof.Machine

/-- The word of a well-formed command hits its own row, and that row builds the command from it. -/
theorem own_row (i : Instr) : Laws.OwnRow.Statement i := by
  cases i with
  | nop => exact Laws.OwnRow.nop
  | clrerr => exact Laws.OwnRow.clrerr
  | dset rd imm => exact Laws.OwnRow.dset rd imm
  | dpush rd imm => exact Laws.OwnRow.dpush rd imm
  | dfree rd => exact Laws.OwnRow.dfree rd
  | dmov rd ra => exact Laws.OwnRow.dmov rd ra
  | dlen ra => exact Laws.OwnRow.dlen ra
  | drd ra => exact Laws.OwnRow.drd ra
  | dadd rd ra rb => exact Laws.OwnRow.dadd rd ra rb
  | dsub rd ra rb => exact Laws.OwnRow.dsub rd ra rb
  | dmul rd ra rb => exact Laws.OwnRow.dmul rd ra rb
  | fibd rd => exact Laws.OwnRow.fibd rd
  | denc ra => exact Laws.OwnRow.denc ra
  | ord => exact Laws.OwnRow.ord
  | lclr lt => exact Laws.OwnRow.lclr lt
  | lapp lt => exact Laws.OwnRow.lapp lt
  | lacc lt ls => exact Laws.OwnRow.lacc lt ls
  | lcnt ls => exact Laws.OwnRow.lcnt ls
  | lrd ls => exact Laws.OwnRow.lrd ls
  | lfib => exact Laws.OwnRow.lfib
  | lstr ls => exact Laws.OwnRow.lstr ls

/-- Settles O1: the decoder takes the row a word hits, and a command's word hits the row that builds the command back. -/
theorem decodeInvertsEncode : Obligations.DecodeInvertsEncode := by
  intro i hi
  obtain ⟨hhits, hbuild⟩ := own_row i hi
  rw [decode_of_hits hhits, hbuild]

/-! What a mask leaves free of a field: all of it, none of it, or the low bit, which is what a list number's field keeps when
a row reads it and the encoder writes it again. -/

theorem and_not_zero (x : BitVec 4) : x &&& ~~~0 = x := by revert x; decide
theorem and_not_ones (x : BitVec 4) : x &&& ~~~0xF = 0 := by revert x; decide
theorem and_not_listHigh (x : BitVec 4) : x &&& ~~~0xE = listBits (listOfBit (x.getLsbD 0)) := by revert x; decide

/-- What a row builds from a word encodes to the row's opcode and the fields the mask leaves free, for every word. -/
theorem encode_build (o : Op) (op z : BitVec 8) (rd ra rb imm : BitVec 4) :
    encode (o.build (fields op rd ra rb z imm)) =
      fields o.code (rd &&& ~~~o.format.maskFields.1) (ra &&& ~~~o.format.maskFields.2.1)
        (rb &&& ~~~o.format.maskFields.2.2.1) 0 (imm &&& ~~~o.format.maskFields.2.2.2) := by
  cases o <;>
    simp only [Op.build, encode, layout_eq_fields, rdField_fields, raField_fields, rbField_fields, immField_fields,
      ltField_fields, lsField_fields, regBits_of_toFin, BitVec.ofNat_toNat, BitVec.setWidth_eq, Op.format,
      Format.maskFields, and_not_zero, and_not_ones, and_not_listHigh]

/-- A field that is 0 under a mask is what the mask leaves free of it. -/
theorem and_not_of_and_eq_zero {x m : BitVec 4} (h : x &&& m = 0) : x &&& ~~~m = x := by
  revert h; revert x m; decide

theorem encode_build_of_hits {o : Op} {w : Word} (h : o.hits w = true) : encode (o.build w) = w := by
  obtain ⟨op, rd, ra, rb, z, imm, rfl⟩ := exists_fields w
  obtain ⟨rfl, hrd, hra, hrb, rfl, himm⟩ := (hits_fields ..).mp h
  rw [encode_build, and_not_of_and_eq_zero hrd, and_not_of_and_eq_zero hra, and_not_of_and_eq_zero hrb,
    and_not_of_and_eq_zero himm]

/-- Four bits of a word are an immediate an encoding exists for (R66). -/
theorem immOk_immField (w : Word) : immOk (immField w) = true :=
  decide_eq_true (w.extractLsb' 0 4).isLt

/-- What a row builds is a command an encoding exists for. -/
theorem build_wellFormed (o : Op) (w : Word) : (o.build w).wellFormed = true := by
  cases o with
  | dset => exact immOk_immField w
  | dpush => exact immOk_immField w
  | _ => rfl

/-- Settles O2: a word that decodes hits a row, so the fields its format does not use are 0, and the encoder writes them so. -/
theorem encodeInvertsDecode : Obligations.EncodeInvertsDecode := by
  intro w i h
  obtain ⟨o, hhits, rfl⟩ := decode_eq_ok.mp h
  exact ⟨build_wellFormed o w, encode_build_of_hits hhits⟩

/-- Settles O4: the two columns of the table, row by row. -/
theorem masksFormedFromFormats : Obligations.MasksFormedFromFormats := by
  intro o
  cases o <;> exact ⟨rfl, rfl⟩

/-- Settles O5: the decoder evaluated at each of the spec's 27 words. -/
theorem sampleWordsDecode : Obligations.SampleWordsDecode := by
  unfold Obligations.SampleWordsDecode
  decide

end Sys2Proof.Claims
end

section
/-! The host's side of the unit and a state's step (10_state.md section 3, 20_memory.md section 4): the cases of `step` and
`perform`. -/

namespace Sys2Proof.Claims

open Sys2Proof Sys2Proof.Machine

variable {s : State}

theorem step_idle (h : s.pending = []) : step s = .next s := by
  rw [step, h]

theorem step_pending {a : HostAction} {rest : List HostAction} (h : s.pending = a :: rest) :
    step s = perform a { s with pending := rest } := by
  rw [step, h]

theorem issue_of_decode {w : Word} {i : Instr} (h : decode w = .ok i) : issue w s = exec i s := by
  rw [issue, h]

/-- Settles O6: the step takes the action off the queue, and the write of a legal word runs the command. -/
theorem stepRunsDecodedCommand : Obligations.StepRunsDecodedCommand := by
  intro s w rest i hp hd
  calc step s = issue w { s with pending := rest } := step_pending hp
    _ = exec i { s with pending := rest } := issue_of_decode hd

/-- Settles O9: with nothing pending there is no action to perform. -/
theorem idleStepKeepsState : Obligations.IdleStepKeepsState := fun _ h => step_idle h

/-- The value a host read returns: the register's, zero-extended, and 0 of `CMD` (R36). -/
theorem readCtrl_spec (s : State) (r : CtrlReg) :
    (r = .cmd → s.readCtrl r = 0) ∧ (r = .arg → s.readCtrl r = s.arg) ∧
      (r = .status .result → s.readCtrl r = s.result) ∧
      (r = .status .cause → (s.readCtrl r).toNat = s.cause.toNat) ∧
      (r = .status .esticky → (s.readCtrl r).toNat = s.esticky.toNat) ∧
      (r = .status .olen → (s.readCtrl r).toNat = s.olen.toNat) ∧
      (r = .status .ocnt → (s.readCtrl r).toNat = s.ocnt.toNat) := by
  refine ⟨?_, ?_, ?_, ?_, ?_, ?_, ?_⟩
  · rintro rfl; rfl
  · rintro rfl; rfl
  · rintro rfl; rfl
  · rintro rfl; exact BitVec.toNat_setWidth_of_le (by omega)
  · rintro rfl; exact BitVec.toNat_setWidth_of_le (by omega)
  · rintro rfl; exact BitVec.toNat_setWidth_of_le (by omega)
  · rintro rfl; exact BitVec.toNat_setWidth_of_le (by omega)

/-- Settles O8: each access writes at most one field, and a read leaves what `State.readCtrl` gives. -/
theorem hostAccessesControlRegisters : Obligations.HostAccessesControlRegisters :=
  fun s => ⟨fun _ => rfl, fun _ _ => rfl, fun r => ⟨s.readCtrl r, rfl, readCtrl_spec s r⟩⟩

end Sys2Proof.Claims
end

section
/-! The frame of every command (10_state.md sections 1 to 4): what each of the seven kinds of update leaves as it was, and
that a fault leaves everything but `CAUSE` and `ESTICKY`. -/

namespace Sys2Proof.Claims

open Sys2Proof Sys2Proof.Machine

variable {i : Instr} {s t u : State}

/-- A command that ends with `CAUSE` 0 has completed: no fault has code 0 (R40). -/
theorem exec_completes (h : exec i s = .next t) (hc : t.cause = 0) : ∃ u, Wrote i s u ∧ t = u.complete := by
  refine (exec_next h).resolve_right ?_
  rintro ⟨c, rfl⟩
  exact raise_cause_ne_zero s c hc

/-- A command that ends with `CAUSE` not 0 has taken a fault: completion clears `CAUSE`. -/
theorem exec_faults (h : exec i s = .next t) (hc : t.cause ≠ 0) : ∃ c, t = s.raise c := by
  refine (exec_next h).resolve_left ?_
  rintro ⟨u, _, rfl⟩
  exact hc (complete_cause u)

/-- Settles O17: of the kinds of update only that of `CLRERR` touches `ESTICKY`, and `CLRERR` always completes. -/
theorem completionKeepsSticky : Obligations.CompletionKeepsSticky := by
  intro i s t h hc
  obtain ⟨u, hw, rfl⟩ := exec_completes h hc
  refine ⟨fun hi => ?_, ?_⟩
  · exact (update_of_wrote hw).esticky_eq_or.resolve_right fun he => hi he.1
  · rintro rfl
    obtain rfl : u = s.clearSticky := hw
    rfl

/-- The fields no command writes. -/
structure SameHostSide (s u : State) : Prop where
  arg : u.arg = s.arg
  params : u.params = s.params
  pending : u.pending = s.pending
  busRead : u.busRead = s.busRead

theorem Update.sameHostSide (h : Update i s u) : SameHostSide s u := by
  cases h <;> exact ⟨rfl, rfl, rfl, rfl⟩

theorem exec_sameHostSide (h : exec i s = .next t) : SameHostSide s t := by
  obtain ⟨u, hu, rfl⟩ | ⟨c, rfl⟩ := exec_update h
  · exact ⟨hu.sameHostSide.arg, hu.sameHostSide.params, hu.sameHostSide.pending, hu.sameHostSide.busRead⟩
  · exact ⟨rfl, rfl, rfl, rfl⟩

/-- Settles O20: no kind of update writes these four fields. -/
theorem commandsKeepArg : Obligations.CommandsKeepArg := by
  intro i s t h
  obtain ⟨harg, hparams, hpending, hbus⟩ := exec_sameHostSide h
  exact ⟨harg, hparams, hpending, hbus⟩

/-- The output as the host sees it: the bytes of the buffer, `OLEN` and `OCNT` (R42, R43, R45). -/
theorem Update.output_eq (h : Update i s u) (hi : writesOutput i = false) :
    u.obuf = s.obuf ∧ u.olen = s.olen ∧ u.ocnt = s.ocnt := by
  cases h with
  | output bytes count ho => rw [hi] at ho; cases ho
  | nothing _ => exact ⟨rfl, rfl, rfl⟩
  | sticky _ => exact ⟨rfl, rfl, rfl⟩
  | register r ds _ => exact ⟨rfl, rfl, rfl⟩
  | result v _ => exact ⟨rfl, rfl, rfl⟩
  | lists st _ _ => exact ⟨rfl, rfl, rfl⟩
  | listsAndResult st v _ => exact ⟨rfl, rfl, rfl⟩

/-- Settles O22: one kind of update writes the output, that of `DENC` and `LSTR`, and a fault takes no write of the command. -/
theorem outputWrittenOnlyByEncoders : Obligations.OutputWrittenOnlyByEncoders := by
  intro i s t h hcase
  obtain ⟨u, hu, rfl⟩ | ⟨c, rfl⟩ := exec_update h
  · obtain ⟨hbuf, hlen, hcnt⟩ := hu.output_eq (hcase.resolve_right fun hc => hc (complete_cause u))
    exact ⟨fun a => congrArg (Memory.read · a) hbuf, hlen, hcnt⟩
  · exact ⟨fun _ => rfl, rfl, rfl⟩

theorem Update.dreg_eq (h : Update i s u) {r : DReg} (hr : writtenRegister i ≠ some r) : u.dreg r = s.dreg r := by
  cases h with
  | register q ds hq =>
    refine setDreg_dreg_other s ?_ ds
    rintro rfl
    exact hr hq
  | nothing _ => rfl
  | sticky _ => rfl
  | result v _ => rfl
  | output bytes count _ => rfl
  | lists st _ _ => rfl
  | listsAndResult st v _ => rfl

/-- Settles O23: one kind of update writes a digit register, and it is the command's destination. -/
theorem onlyTheDestinationRegisterChanges : Obligations.OnlyTheDestinationRegisterChanges := by
  intro i s t r h hr
  obtain ⟨u, hu, rfl⟩ | ⟨c, rfl⟩ := exec_update h
  · exact hu.dreg_eq hr
  · rfl

theorem Update.store_eq (h : Update i s u) (hi : writesLists i = false) : u.store = s.store := by
  cases h with
  | lists st hl _ => rw [hi] at hl; cases hl
  | listsAndResult st v hl => subst hl; cases hi
  | nothing _ => rfl
  | sticky _ => rfl
  | register r ds _ => rfl
  | result v _ => rfl
  | output bytes count _ => rfl

/-- What `LCLR`, `LAPP` and `LACC` write leaves a list they do not name as their target as it was (R129, R130, R134). -/
theorem seq_other_of_wrote (h : Wrote i s u) (hs : s.Inv) {lt l : ListId} (hl : l ≠ lt)
    (hi : i = .lclr lt ∨ i = .lapp lt ∨ i = .lacc lt l) : u.store.seq l = s.store.seq l := by
  have hn := hs.nnode_le
  obtain rfl | rfl | rfl := hi
  · obtain ⟨st, hst, rfl⟩ := h
    obtain ⟨st', hst', _, _, hother, _⟩ := clear_spec hn hs.store lt
    cases hst.symm.trans hst'
    exact hother l hl
  · obtain ⟨hv, p, st, hst, rfl⟩ := h
    obtain ⟨_, he⟩ | ⟨_, p', st', hst', _, _, hother, _⟩ := append_seq hn hs.store lt s.arg hv
    · cases hst.symm.trans he
    · cases hst.symm.trans hst'
      exact hother l hl
  · obtain ⟨_, st, hst, rfl⟩ := h
    obtain ⟨_, he⟩ | ⟨_, st', hst', _, _, hsource⟩ := accumulate_spec hn hs.store hl.symm
    · cases hst.symm.trans he
    · cases hst.symm.trans hst'
      exact hsource

/-- Settles O24: two kinds of update write the pool and the lists, those of the four commands named; the other list is kept by
the operation each of the first three runs. -/
theorem onlyTheTargetListChanges : Obligations.OnlyTheTargetListChanges := by
  intro i s t h
  obtain ⟨u, hw, rfl⟩ | ⟨c, rfl⟩ := exec_next h
  · exact ⟨fun hi => (update_of_wrote hw).store_eq hi, fun hs lt l hl hi => seq_other_of_wrote hw hs hl hi⟩
  · exact ⟨fun _ => rfl, fun _ _ _ _ _ => rfl⟩

/-- The destination of a command that completes is not EMPTY, unless the command is `DFREE` (R90). -/
theorem destination_ne_nil_of_wrote (h : Wrote i s u) {r : DReg} (hr : writtenRegister i = some r) (hi : i ≠ .dfree r) :
    u.dreg r ≠ [] := by
  cases i <;> cases hr
  case dset => obtain ⟨_, rfl⟩ := h; simp
  case dpush => obtain ⟨_, _, _, rfl⟩ := h; simp
  case dfree => exact absurd rfl hi
  case dmov => obtain ⟨ha, rfl⟩ := h; simpa using ha
  case dadd => obtain ⟨ha, _, c, hc, rfl⟩ := h; simpa using dadd_ne_nil hc ha
  case dsub => obtain ⟨ha, _, c, hc, rfl⟩ := h; simpa using dsub_ne_nil hc ha
  case dmul => obtain ⟨_, _, c, hc, rfl⟩ := h; simpa using dmul_ne_nil hc
  case fibd => obtain ⟨_, c, _, hc, rfl⟩ := h; simpa using fibDigits_ne_nil hc

/-- The commands that can make an EMPTY register valid (R90). -/
def Fills (i : Instr) (r : DReg) : Prop :=
  (∃ imm, i = .dset r imm) ∨ (∃ a, i = .dmov r a) ∨ (∃ a b, i = .dadd r a b) ∨ (∃ a b, i = .dsub r a b) ∨
    (∃ a b, i = .dmul r a b) ∨ i = .fibd r

/-- A command that completes with an EMPTY destination made valid is one of those of R90: `DPUSH` reads its destination, and
`DFREE` leaves it EMPTY. -/
theorem fills_of_wrote (h : Wrote i s u) {r : DReg} (hr : writtenRegister i = some r) (hs : s.dreg r = [])
    (hu : u.dreg r ≠ []) : Fills i r := by
  cases i <;> cases hr
  case dset imm => exact .inl ⟨imm, rfl⟩
  case dpush => exact absurd hs h.1
  case dfree => obtain rfl := h; exact absurd (setDreg_dreg_same s r []) hu
  case dmov a => exact .inr (.inl ⟨a, rfl⟩)
  case dadd a b => exact .inr (.inr (.inl ⟨a, b, rfl⟩))
  case dsub a b => exact .inr (.inr (.inr (.inl ⟨a, b, rfl⟩)))
  case dmul a b => exact .inr (.inr (.inr (.inr (.inl ⟨a, b, rfl⟩))))
  case fibd => exact .inr (.inr (.inr (.inr (.inr rfl))))

/-- Settles O25: a register that is not the destination is as it was; a destination is EMPTY afterwards for `DFREE` alone. -/
theorem onlyDfreeEmptiesARegister : Obligations.OnlyDfreeEmptiesARegister := by
  intro i s t r h
  by_cases hr : writtenRegister i = some r
  · obtain ⟨u, hw, rfl⟩ | ⟨c, rfl⟩ := exec_next h
    · exact ⟨fun ht => .inr (not_not.mp fun hi => destination_ne_nil_of_wrote hw hr hi ht),
        fun hs ht => fills_of_wrote hw hr hs ht⟩
    · exact ⟨fun ht => .inl ht, fun hs ht => absurd hs ht⟩
  · have hsame := onlyTheDestinationRegisterChanges i s t r h hr
    exact ⟨fun ht => .inl (hsame ▸ ht), fun hs ht => absurd (hsame ▸ hs) ht⟩

end Sys2Proof.Claims
end

section
/-! The invariants of 10_state.md as a property of the whole machine: they hold after reset, and every command and every other
action of the host keeps them. -/

namespace Sys2Proof.Claims

open Sys2Proof Sys2Proof.Machine

variable {i : Instr} {s t u : State}

/-- Where an operation that stops or promises `P` of its result answers, it has kept the promise. -/
theorem promise_of_ok {α : Type} {x : Except Stop α} {A B : Prop} {e : Stop} {P : α → Prop} {a : α}
    (h : (A ∧ x = .error e) ∨ (B ∧ ∃ b, x = .ok b ∧ P b)) (ha : x = .ok a) : P a := by
  obtain ⟨_, he⟩ | ⟨_, b, hb, hP⟩ := h
  · cases ha.symm.trans he
  · cases ha.symm.trans hb
    exact hP

theorem digitsOk_append {xs ys : Digits} (hx : DigitsOk xs) (hy : DigitsOk ys) : DigitsOk (xs ++ ys) :=
  fun d hd => (List.mem_append.mp hd).elim (hx d) (hy d)

theorem digitsOk_imm {imm : Nat} (h : imm ≤ 9) : DigitsOk [BitVec.ofNat 4 imm] :=
  digitsOk_one ((toNat_digit h).trans_le h)

theorem text_length_le (hs : s.Inv) (l : ListId) :
    ((s.store.seq l).reverse.flatMap limbChars).length ≤ s.params.ocap := by
  have hlen := hs.store.seq_length_le hs.nnode_le l
  rw [flatMap_limbChars_length, List.length_reverse]
  exact Nat.le_trans (Nat.mul_le_mul_left 18 hlen) (Nat.le_max_right _ _)

/-- The writes of every command keep the invariants. -/
theorem inv_of_wrote (h : Wrote i s u) (hs : s.Inv) : u.Inv := by
  have hn := hs.nnode_le
  cases i with
  | nop => obtain rfl := h; exact hs
  | clrerr => obtain rfl := h; exact hs.clearSticky
  | dset rd imm =>
    obtain ⟨himm, rfl⟩ := h
    exact hs.setDreg rd (digitsOk_imm himm) (Nat.le_trans (by simp) hs.dcap_pos)
  | dpush rd imm =>
    obtain ⟨_, himm, hcap, rfl⟩ := h
    exact hs.setDreg rd (digitsOk_append (hs.digits rd) (digitsOk_imm himm)) (by simpa using hcap)
  | dfree rd => obtain rfl := h; exact hs.setDreg rd digitsOk_nil (Nat.zero_le _)
  | dmov rd ra => obtain ⟨_, rfl⟩ := h; exact hs.setDreg rd (hs.digits ra) (hs.capacity ra)
  | dlen ra => obtain rfl := h; exact hs.setResult _
  | drd ra => obtain ⟨_, rfl⟩ := h; exact hs.setResult _
  | dadd rd ra rb =>
    obtain ⟨_, _, c, hc, rfl⟩ := h
    obtain ⟨_, hok, _⟩ := promise_of_ok (dadd_spec (hs.digits ra) (hs.digits rb)) hc
    exact hs.setDreg rd hok (dadd_length hc)
  | dsub rd ra rb =>
    obtain ⟨_, _, c, hc, rfl⟩ := h
    obtain ⟨c', hc', hok, hlen, _⟩ :=
      dsub_spec (hs.digits ra) (hs.digits rb) (hs.capacity ra) (hs.capacity rb)
    cases hc.symm.trans hc'
    exact hs.setDreg rd hok (hlen.trans_le (max_le (hs.capacity ra) (hs.capacity rb)))
  | dmul rd ra rb =>
    obtain ⟨_, _, c, hc, rfl⟩ := h
    obtain ⟨_, hok, _⟩ := promise_of_ok (dmul_spec (hs.digits ra) (hs.digits rb)) hc
    exact hs.setDreg rd hok (dmul_length hc)
  | fibd rd =>
    obtain ⟨n, c, _, hc, rfl⟩ := h
    have hcap : c.length ≤ s.params.dcap := fibDigits_length (Nat.le_trans (by simp) hs.dcap_pos) hc
    obtain ⟨he, _⟩ | ⟨c', hc', hok, _⟩ := fibDigits_spec s.params.dcap n
    · cases hc.symm.trans he
    · cases hc.symm.trans hc'
      exact hs.setDreg rd hok hcap
  | denc ra => obtain ⟨_, rfl⟩ := h; exact hs.setOutput _ (hs.pack_le ra)
  | ord => obtain ⟨_, _, _, rfl⟩ := h; exact hs.setResult _
  | lclr lt =>
    obtain ⟨st, hst, rfl⟩ := h
    obtain ⟨st', hst', hok, _⟩ := clear_spec hn hs.store lt
    cases hst.symm.trans hst'
    exact hs.setStore hok
  | lapp lt =>
    obtain ⟨hv, p, st, hst, rfl⟩ := h
    obtain ⟨_, he⟩ | ⟨_, p', st', hst', hok, _⟩ := append_seq hn hs.store lt s.arg hv
    · cases hst.symm.trans he
    · cases hst.symm.trans hst'
      exact hs.setStore hok
  | lacc lt ls =>
    obtain ⟨hne, st, hst, rfl⟩ := h
    obtain ⟨hok, _⟩ := promise_of_ok (accumulate_spec hn hs.store hne) hst
    exact hs.setStore hok
  | lcnt ls => obtain rfl := h; exact hs.setResult _
  | lrd ls => obtain ⟨_, _, _, rfl⟩ := h; exact hs.setResult _
  | lfib =>
    obtain ⟨k, st, _, hst, rfl⟩ := h
    have hlists := promise_of_ok (fib_spec hn hs.two_le_nnode hs.store k) hst
    exact (hs.setStore hlists.ok).setResult _
  | lstr ls =>
    obtain ⟨bytes, hb, rfl⟩ := h
    cases hb.symm.trans (ListStore.chars_ok hn hs.store ls)
    exact hs.setOutput _ (text_length_le hs ls)

theorem exec_inv (hs : s.Inv) (h : exec i s = .next t) : t.Inv := by
  obtain ⟨u, hw, rfl⟩ | ⟨c, rfl⟩ := exec_next h
  · exact (inv_of_wrote hw hs).complete
  · exact hs.raise c

theorem resetWith_inv {p : Params} (hp : p.Legal) : (State.resetWith p).Inv where
  params := hp
  digits r := by
    rw [show (State.resetWith p).dreg r = [] from Vector.getElem_replicate r.isLt]
    exact digitsOk_nil
  capacity r := by
    rw [show (State.resetWith p).dreg r = [] from Vector.getElem_replicate r.isLt]
    exact Nat.zero_le _
  store := ListStore.empty_ok p.nnode
  canonical := rfl
  held _ := ⟨fun h => absurd rfl h, nofun⟩
  olen := Nat.zero_le _
  cause := Nat.zero_le _
  sticky := ⟨BitVec.getLsbD_zero, BitVec.getLsbD_zero⟩

/-- Settles O11: reset leaves no digit, no node in use and no byte of output, whatever the parameters. -/
theorem resetStatesAreWellFormed : Obligations.ResetStatesAreWellFormed :=
  ⟨fun _ hp => resetWith_inv hp, resetWith_inv (by decide)⟩

/-- Reset applied from outside keeps the queue and the last read, of which the invariants say nothing. -/
theorem hostReset_inv (hs : s.Inv) : s.hostReset.Inv :=
  have h := resetWith_inv hs.params
  ⟨h.params, h.digits, h.capacity, h.store, h.canonical, h.held, h.olen, h.cause, h.sticky⟩

theorem issue_inv {w : Word} (hs : s.Inv) (h : issue w s = .next t) : t.Inv := by
  cases hd : decode w with
  | ok i => exact exec_inv hs (issue_of_decode hd ▸ h)
  | error e =>
    cases (issue_of_illegal hd).symm.trans h
    exact hs.raise _

theorem perform_inv {a : HostAction} (hs : s.Inv) (h : perform a s = .next t) : t.Inv := by
  cases a with
  | writeCmd w => exact issue_inv hs h
  | writeArg v => cases h; exact hs.hostWriteArg v
  | writeReadOnly r v => cases h; exact hs
  | read r => cases h; exact hs.hostRead r
  | reset => cases h; exact hostReset_inv hs

theorem step_inv (hs : s.Inv) (h : step s = .next t) : t.Inv := by
  cases hp : s.pending with
  | nil =>
    cases (step_idle hp).symm.trans h
    exact hs
  | cons a rest => exact perform_inv (hs.pending rest) (step_pending hp ▸ h)

/-- Settles O12: an idle step changes nothing, and every action keeps the invariants. -/
theorem everyStepKeepsTheInvariants : Obligations.EveryStepKeepsTheInvariants := fun _ _ => step_inv

/-- Settles O44: the command keeps the invariants, and R45 is one of them: exactly the bytes below `OLEN` are held. -/
theorem outputEndsAtOlen : Obligations.OutputEndsAtOlen := by
  intro i s t hs _ h _ a ha
  by_contra hheld
  exact absurd (((exec_inv hs h).held a).mp hheld) (Nat.not_lt.mpr ha)

end Sys2Proof.Claims
end

section
/-! With which faults a command can stop (60_exceptions.md section 1, the table of R167): under the invariants the checks of
its body are the only places where it stops, so no command ends in a fault of the model. -/

namespace Sys2Proof.Claims

open Sys2Proof Sys2Proof.Machine

/-- Where this part of a command stops, it stops with a fault of the spec, and one of these codes. -/
def StopsWith {α : Type} (codes : List Nat) (x : Except Stop α) : Prop :=
  ∀ e, x = .error e → ∃ c : FaultCode, e = .outcome c ∧ c.number ∈ codes

variable {α β : Type} {codes : List Nat} {x : Except Stop α} {s t : State}

theorem StopsWith.of_ok {a : α} (h : x = .ok a) : StopsWith codes x := by
  intro e he
  cases h.symm.trans he

theorem StopsWith.of_outcome {c : FaultCode} (h : x = .error (.outcome c)) (hc : c.number ∈ codes) :
    StopsWith codes x := by
  intro e he
  cases h.symm.trans he
  exact ⟨c, rfl, hc⟩

theorem StopsWith.bind {f : α → Except Stop β} (hx : StopsWith codes x) (hf : ∀ a, x = .ok a → StopsWith codes (f a)) :
    StopsWith codes (x >>= f) := by
  intro e he
  obtain he | ⟨a, ha, he⟩ := bind_eq_error.mp he
  · exact hx e he
  · exact hf a ha e he

/-- A part of a command followed by its write stops where the part does. -/
theorem StopsWith.bind_ok {g : α → β} (hx : StopsWith codes x) : StopsWith codes (x >>= fun a => .ok (g a)) :=
  hx.bind fun _ _ => .of_ok rfl

theorem StopsWith.of_spec {A B : Prop} {c : FaultCode} {P : α → Prop} (hc : c.number ∈ codes)
    (h : (A ∧ x = .error (.outcome c)) ∨ (B ∧ ∃ a, x = .ok a ∧ P a)) : StopsWith codes x :=
  h.elim (fun he => .of_outcome he.2 hc) fun ⟨_, _, ha, _⟩ => .of_ok ha

/-! The checks (R24, R59, R69, R70, R87, R132). -/

theorem operand_stops (r : DReg) (h : 4 ∈ codes) : StopsWith codes (operand s r) :=
  (operand_spec s r).elim (fun he => .of_outcome he.2 h) fun ha => .of_ok ha.2

theorem digitImm_stops (imm : Nat) (h : 5 ∈ codes) : StopsWith codes (digitImm imm) :=
  (digitImm_spec imm).elim (fun he => .of_outcome he.2 h) fun ha => .of_ok ha.2

theorem elementIndex_stops (n : Nat) (h : 6 ∈ codes) : StopsWith codes (elementIndex s n) :=
  (elementIndex_spec s n).elim (fun he => .of_outcome he.2 h) fun ha => .of_ok ha.2

theorem limbValue_stops (h : 5 ∈ codes) : StopsWith codes (limbValue s) :=
  (limbValue_spec s).elim (fun he => .of_outcome he.2 h) fun ha => .of_ok ha.2

theorem fibIndex_stops (h : 2 ∈ codes) : StopsWith codes (fibIndex s) :=
  (fibIndex_spec s).elim (fun he => .of_outcome he.2 h) fun ⟨_, _, ha⟩ => .of_ok ha

theorem allocCheck_stops (dcap n : Nat) (h : 1 ∈ codes) : StopsWith codes (allocCheck dcap n) :=
  (allocCheck_spec dcap n).elim (fun he => .of_outcome he.2 h) fun ha => .of_ok ha.2

theorem distinctLists_stops (lt ls : ListId) (h : 5 ∈ codes) : StopsWith codes (distinctLists lt ls) := by
  by_cases hl : lt = ls
  · exact .of_outcome (if_pos hl) h
  · exact .of_ok (if_neg hl)

theorem dadd_stops (dcap : Nat) (a b : Digits) (h : 1 ∈ codes) : StopsWith codes (dadd dcap a b) :=
  (allocCheck_stops _ _ h).bind_ok

theorem dmul_stops (dcap : Nat) (a b : Digits) (h : 1 ∈ codes) : StopsWith codes (dmul dcap a b) :=
  (allocCheck_stops _ _ h).bind_ok

theorem fibDigits_stops (dcap n : Nat) (h : 1 ∈ codes) : StopsWith codes (fibDigits dcap n) :=
  (fibDigits_spec dcap n).elim (fun he => .of_outcome he.1 h) fun ⟨_, ha, _⟩ => .of_ok ha

theorem twoOperand_stops {f : Digits → Digits → Except Stop Digits} (rd ra rb : DReg) (h : 4 ∈ codes)
    (hf : StopsWith codes (f (s.dreg ra) (s.dreg rb))) : StopsWith codes (twoOperand f rd ra rb s) := by
  refine (operand_stops ra h).bind fun a ha => (operand_stops rb h).bind fun b hb => ?_
  obtain ⟨_, rfl⟩ := operand_eq_ok.mp ha
  obtain ⟨_, rfl⟩ := operand_eq_ok.mp hb
  exact hf.bind_ok

/-- Under the invariants every command's body stops with a fault of the command's row of R167, or not at all. -/
theorem exec_stops (hs : s.Inv) (i : Instr) : ∃ r, exec i s = s.settle r ∧ StopsWith (canRaise i) r := by
  have hn := hs.nnode_le
  cases i with
  | nop => exact ⟨.ok _, rfl, .of_ok rfl⟩
  | clrerr => exact ⟨.ok _, rfl, .of_ok rfl⟩
  | dset rd imm => exact ⟨_, rfl, (digitImm_stops imm (by simp [canRaise])).bind_ok⟩
  | dpush rd imm =>
    exact ⟨_, rfl, (operand_stops rd (by simp [canRaise])).bind fun _ _ =>
      (digitImm_stops imm (by simp [canRaise])).bind fun _ _ => (allocCheck_stops _ _ (by simp [canRaise])).bind_ok⟩
  | dfree rd => exact ⟨.ok _, rfl, .of_ok rfl⟩
  | dmov rd ra => exact ⟨_, rfl, (operand_stops ra (by simp [canRaise])).bind_ok⟩
  | dlen ra => exact ⟨.ok _, rfl, .of_ok rfl⟩
  | drd ra =>
    exact ⟨_, rfl, (operand_stops ra (by simp [canRaise])).bind fun _ _ =>
      (elementIndex_stops _ (by simp [canRaise])).bind_ok⟩
  | dadd rd ra rb =>
    exact ⟨_, exec_dadd, twoOperand_stops rd ra rb (by simp [canRaise]) (dadd_stops _ _ _ (by simp [canRaise]))⟩
  | dsub rd ra rb =>
    obtain ⟨c, hc, _⟩ := dsub_spec (hs.digits ra) (hs.digits rb) (hs.capacity ra) (hs.capacity rb)
    exact ⟨twoOperand (dsub s.params.dcap) rd ra rb s, rfl, twoOperand_stops rd ra rb (by simp [canRaise]) (.of_ok hc)⟩
  | dmul rd ra rb =>
    exact ⟨_, exec_dmul, twoOperand_stops rd ra rb (by simp [canRaise]) (dmul_stops _ _ _ (by simp [canRaise]))⟩
  | fibd rd =>
    exact ⟨_, rfl, (fibIndex_stops (by simp [canRaise])).bind fun _ _ =>
      (fibDigits_stops _ _ (by simp [canRaise])).bind_ok⟩
  | denc ra => exact ⟨_, rfl, (operand_stops ra (by simp [canRaise])).bind_ok⟩
  | ord =>
    refine ⟨_, rfl, (elementIndex_stops _ (by simp [canRaise])).bind fun a ha => ?_⟩
    obtain ⟨hlt, rfl⟩ := elementIndex_eq_ok.mp ha
    obtain ⟨b, hb⟩ := read_of_lt_olen hs hlt
    exact StopsWith.bind_ok (.of_ok (heldByte_eq_ok.mpr hb))
  | lclr lt =>
    obtain ⟨st, hst, _⟩ := clear_spec hn hs.store lt
    exact ⟨_, rfl, StopsWith.bind_ok (.of_ok hst)⟩
  | lapp lt =>
    refine ⟨_, rfl, (limbValue_stops (by simp [canRaise])).bind fun v hv => ?_⟩
    obtain ⟨hlt, rfl⟩ := limbValue_eq_ok.mp hv
    refine StopsWith.bind ?_ fun _ _ => .of_ok rfl
    obtain ⟨_, he⟩ | ⟨_, p, st, hst, _⟩ := append_seq hn hs.store lt s.arg hlt
    · exact .of_outcome he (by simp [canRaise, FaultCode.number])
    · exact .of_ok hst
  | lacc lt ls =>
    refine ⟨_, rfl, (distinctLists_stops lt ls (by simp [canRaise])).bind fun _ hd => ?_⟩
    exact (StopsWith.of_spec (by simp [canRaise, FaultCode.number])
      (accumulate_spec hn hs.store (distinctLists_eq_ok.mp hd))).bind_ok
  | lcnt ls => exact ⟨.ok _, rfl, .of_ok rfl⟩
  | lrd ls =>
    refine ⟨_, rfl, (elementIndex_stops _ (by simp [canRaise])).bind fun a ha => ?_⟩
    obtain ⟨hlt, rfl⟩ := elementIndex_eq_ok.mp ha
    exact StopsWith.bind_ok (.of_ok (ListStore.limbFrom_ok hn hs.store ls (hs.store.cnt_eq hn ls ▸ hlt)))
  | lfib =>
    exact ⟨_, rfl, (fibIndex_stops (by simp [canRaise])).bind fun k _ => (StopsWith.of_spec
      (by simp [canRaise, FaultCode.number]) (fib_spec hn hs.two_le_nnode hs.store k)).bind_ok⟩
  | lstr ls => exact ⟨_, rfl, StopsWith.bind_ok (.of_ok (ListStore.chars_ok hn hs.store ls))⟩

/-- A body that stops with faults of the spec only is settled in a next state. -/
theorem settle_answers {r : Except Stop State} (h : StopsWith codes r) : ∃ t, s.settle r = .next t := by
  cases r with
  | ok u => exact ⟨u.complete, settle_ok s u⟩
  | error e =>
    obtain ⟨c, rfl, _⟩ := h e rfl
    exact ⟨s.raise c, settle_outcome s c⟩

theorem exec_answers (hs : s.Inv) (i : Instr) : ∃ t, exec i s = .next t := by
  obtain ⟨r, hr, hstops⟩ := exec_stops hs i
  rw [hr]
  exact settle_answers hstops

theorem perform_answers (hs : s.Inv) (a : HostAction) : ∃ t, perform a s = .next t := by
  cases a with
  | writeCmd w =>
    cases hd : decode w with
    | ok i =>
      obtain ⟨t, ht⟩ := exec_answers hs i
      exact ⟨t, (issue_of_decode hd).trans ht⟩
    | error e => exact ⟨_, issue_of_illegal hd⟩
  | writeArg v => exact ⟨_, rfl⟩
  | writeReadOnly r v => exact ⟨_, rfl⟩
  | read r => exact ⟨_, rfl⟩
  | reset => exact ⟨_, rfl⟩

theorem step_answers (hs : s.Inv) : ∃ t, step s = .next t := by
  cases hp : s.pending with
  | nil => exact ⟨s, step_idle hp⟩
  | cons a rest =>
    rw [step_pending hp]
    exact perform_answers (hs.pending rest) a

/-- Settles O13: no command's body stops with a fault of the model. -/
theorem everyCommandCompletesOrFaults : Obligations.EveryCommandCompletesOrFaults :=
  fun _ hs => ⟨exec_answers hs, step_answers hs⟩

/-- Settles O14, by induction on the length of the run: the next step answers, in a state that satisfies the invariants. -/
theorem runsNeverStop : Obligations.RunsNeverStop := by
  intro k
  induction k with
  | zero => exact fun s hs => ⟨s, rfl, hs⟩
  | succ k ih =>
    intro s hs
    obtain ⟨t, ht⟩ := step_answers hs
    rw [core_run_next ht]
    exact ih t (step_inv hs ht)

/-- `CAUSE` after a fault is its code (R170). -/
theorem raise_cause_toNat (s : State) (c : FaultCode) : (s.raise c).cause.toNat = c.number := by
  cases c <;> rfl

/-- Settles O18: a command that ends with `CAUSE` not 0 has stopped, and with a code of its row. -/
theorem faultsOnlyAsTabled : Obligations.FaultsOnlyAsTabled := by
  intro i s t hs h hc
  obtain ⟨r, hr, hstops⟩ := exec_stops hs i
  obtain ⟨u, _, rfl⟩ | ⟨c, hrc, rfl⟩ := settle_next (hr ▸ h)
  · exact absurd (complete_cause u) hc
  · obtain ⟨c', hc', hmem⟩ := hstops _ hrc
    cases hc'
    rwa [raise_cause_toNat]

end Sys2Proof.Claims
end

section
/-! Repeating a command on the state it left (20_memory.md section 3, 60_exceptions.md section 2). A command's body does not
read what a fault writes, and a read does not read what it writes; so in both states its checks come out the same. -/

namespace Sys2Proof.Claims

open Sys2Proof Sys2Proof.Machine

variable {i : Instr} {s t u : State} {R : State → State → Prop}

/-- Bodies whose first parts come out the same end alike if they go on alike. -/
theorem EndAlike.bind_congr {α : Type} {x x' : Except Stop α} {f f' : α → Except Stop State} (hx : x = x')
    (h : ∀ a, x = .ok a → EndAlike R (f a) (f' a)) : EndAlike R (x >>= f) (x' >>= f') := by
  subst hx
  cases x with
  | error e => exact .stop e
  | ok a => exact h a rfl

theorem EndAlike.bind {α : Type} {x : Except Stop α} {f f' : α → Except Stop State}
    (h : ∀ a, EndAlike R (f a) (f' a)) : EndAlike R (x >>= f) (x >>= f') :=
  .bind_congr rfl fun a _ => h a

/-- Bodies that begin with the same part and then write end alike if the states they leave are related. -/
theorem EndAlike.bind_ok {α : Type} {x : Except Stop α} {f f' : α → State} (h : ∀ a, R (f a) (f' a)) :
    EndAlike R (x >>= fun a => .ok (f a)) (x >>= fun a => .ok (f' a)) :=
  .bind fun a => .ok (h a)

theorem EndAlike.stop_left {r r' : Except Stop State} {e : Stop} (h : EndAlike R r r') (he : r = .error e) :
    r' = .error e := by
  cases h with
  | stop e' => exact he
  | ok _ => cases he

/-- The body of every command ends alike before and after a fault has been taken: none reads `CAUSE` or `ESTICKY`. -/
theorem exec_raise_endAlike (i : Instr) (s : State) (c : FaultCode) :
    ∃ r r', exec i s = s.settle r ∧ exec i (s.raise c) = (s.raise c).settle r' ∧ EndAlike (fun _ _ => True) r r' := by
  cases i with
  | nop => exact ⟨.ok _, .ok _, rfl, rfl, .ok trivial⟩
  | clrerr => exact ⟨.ok _, .ok _, rfl, rfl, .ok trivial⟩
  | dset rd imm => exact ⟨_, _, rfl, rfl, .bind_ok fun _ => trivial⟩
  | dpush rd imm => exact ⟨_, _, rfl, rfl, .bind fun _ => .bind fun _ => .bind_ok fun _ => trivial⟩
  | dfree rd => exact ⟨.ok _, .ok _, rfl, rfl, .ok trivial⟩
  | dmov rd ra => exact ⟨_, _, rfl, rfl, .bind_ok fun _ => trivial⟩
  | dlen ra => exact ⟨.ok _, .ok _, rfl, rfl, .ok trivial⟩
  | drd ra => exact ⟨_, _, rfl, rfl, .bind fun _ => .bind_ok fun _ => trivial⟩
  | dadd rd ra rb => exact ⟨_, _, rfl, rfl, .bind fun _ => .bind fun _ => .bind_ok fun _ => trivial⟩
  | dsub rd ra rb => exact ⟨_, _, rfl, rfl, .bind fun _ => .bind fun _ => .bind_ok fun _ => trivial⟩
  | dmul rd ra rb => exact ⟨_, _, rfl, rfl, .bind fun _ => .bind fun _ => .bind_ok fun _ => trivial⟩
  | fibd rd => exact ⟨_, _, rfl, rfl, .bind fun _ => .bind_ok fun _ => trivial⟩
  | denc ra => exact ⟨_, _, rfl, rfl, .bind_ok fun _ => trivial⟩
  | ord => exact ⟨_, _, rfl, rfl, .bind fun _ => .bind_ok fun _ => trivial⟩
  | lclr lt => exact ⟨_, _, rfl, rfl, .bind_ok fun _ => trivial⟩
  | lapp lt => exact ⟨_, _, rfl, rfl, .bind fun _ => .bind fun _ => .ok trivial⟩
  | lacc lt ls => exact ⟨_, _, rfl, rfl, .bind fun _ => .bind_ok fun _ => trivial⟩
  | lcnt ls => exact ⟨.ok _, .ok _, rfl, rfl, .ok trivial⟩
  | lrd ls => exact ⟨_, _, rfl, rfl, .bind fun _ => .bind_ok fun _ => trivial⟩
  | lfib => exact ⟨_, _, rfl, rfl, .bind fun _ => .bind_ok fun _ => trivial⟩
  | lstr ls => exact ⟨_, _, rfl, rfl, .bind_ok fun _ => trivial⟩

/-- The bit of a fault taken twice is set once (R41). -/
theorem raise_raise (s : State) (c : FaultCode) : (s.raise c).raise c = s.raise c := by
  simp only [State.raise, BitVec.or_assoc, BitVec.or_self]

/-- Settles O16: on the state a fault left the body stops with the same fault, and taking that again changes nothing. -/
theorem faultingCommandFaultsAgain : Obligations.FaultingCommandFaultsAgain := by
  intro i s t h hc
  obtain ⟨c, rfl⟩ := exec_faults h hc
  obtain ⟨r, r', hr, hr', halike⟩ := exec_raise_endAlike i s c
  obtain ⟨u, _, hu⟩ | ⟨c', hstop, hraise⟩ := settle_next (hr ▸ h)
  · exact absurd (hu ▸ complete_cause u) hc
  · rw [hr', halike.stop_left hstop, settle_outcome, hraise, raise_raise]

theorem EndAlike.ok_left {r r' : Except Stop State} (h : EndAlike R r r') (hu : r = .ok u) :
    ∃ u', r' = .ok u' ∧ R u u' := by
  cases h with
  | stop e => cases hu
  | ok hR => cases hu; exact ⟨_, rfl, hR⟩

/-- The body of a command that only reads (R60) ends alike before and after a read has completed: it reads neither `RESULT` nor
`CAUSE`, and what it writes to `RESULT` is the same. -/
theorem exec_read_endAlike (hi : readOnly i = true) (s : State) (w : DWord) :
    ∃ r r', exec i s = s.settle r ∧ exec i (s.setResult w).complete = (s.setResult w).complete.settle r' ∧
      EndAlike (fun u u' => u' = (s.setResult w).complete.setResult u.result) r r' := by
  cases i <;> cases hi
  case dlen ra => exact ⟨.ok _, .ok _, rfl, rfl, .ok rfl⟩
  case drd ra => exact ⟨_, _, rfl, rfl, .bind fun _ => .bind_ok fun _ => rfl⟩
  case ord => exact ⟨_, _, rfl, rfl, .bind fun _ => .bind_ok fun _ => rfl⟩
  case lcnt ls => exact ⟨.ok _, .ok _, rfl, rfl, .ok rfl⟩
  case lrd ls => exact ⟨_, _, rfl, rfl, .bind fun _ => .bind_ok fun _ => rfl⟩

/-- A command that only reads, and completes, leaves every field but `RESULT` and `CAUSE`. -/
theorem read_eq_setResult (hi : readOnly i = true) (h : exec i s = .next t) (hc : t.cause = 0) :
    t = (s.setResult t.result).complete := by
  obtain ⟨u, hw, rfl⟩ := exec_completes h hc
  cases i <;> cases hi
  case dlen => obtain rfl := hw; rfl
  case drd => obtain ⟨_, rfl⟩ := hw; rfl
  case ord => obtain ⟨_, _, _, rfl⟩ := hw; rfl
  case lcnt => obtain rfl := hw; rfl
  case lrd => obtain ⟨_, _, _, rfl⟩ := hw; rfl

theorem read_again (hi : readOnly i = true) (h : exec i s = .next t) (hc : t.cause = 0) : exec i t = .next t := by
  obtain ⟨r, r', hr, hr', halike⟩ := exec_read_endAlike hi s t.result
  have ht := read_eq_setResult hi h hc
  rw [← ht] at hr' halike
  obtain ⟨u, hu, hut⟩ | ⟨c, _, hraise⟩ := settle_next (hr ▸ h)
  · obtain ⟨u', hu', hR⟩ := halike.ok_left hu
    have hresult : u.result = t.result := (congrArg State.result hut).symm
    calc exec i t = .next u'.complete := by rw [hr', hu', settle_ok]
      _ = .next (t.setResult t.result).complete := by rw [hR, hresult]
      _ = .next t := by rw [ht]; rfl
  · exact absurd hc (hraise ▸ raise_cause_ne_zero s c)

theorem hostRead_readCtrl (s : State) (r : CtrlReg) : (s.hostRead r).readCtrl r = s.readCtrl r := by
  cases r with
  | cmd => rfl
  | arg => rfl
  | status q => cases q <;> rfl

theorem hostRead_hostRead (s : State) (r : CtrlReg) : (s.hostRead r).hostRead r = s.hostRead r := by
  rw [State.hostRead, hostRead_readCtrl]
  rfl

/-- Settles O26: a command that reads does not read what it writes, and no control register is the field a host read is left
in. -/
theorem readsAreIdempotent : Obligations.ReadsAreIdempotent := by
  refine ⟨fun i s t hi h hc => ⟨read_eq_setResult hi h hc, read_again hi h hc⟩, fun r s t h => ?_⟩
  cases h
  exact ⟨rfl, congrArg Host.Outcome.next (hostRead_hostRead s r)⟩

end Sys2Proof.Claims
end

section
/-! The lists are sequences to every command (10_state.md section 2, R30). First the operations on storages: from two storages
whose lists read as the same sequences each stops alike, or leaves two such storages. -/

namespace Sys2Proof.Claims

open Sys2Proof Sys2Proof.Machine

/-- The lists of two storages read as the same sequences. -/
def SameSeqs (st st' : ListStore) : Prop := ∀ l, st.seq l = st'.seq l

/-- Two operations stop alike, or answer with storages, given by `g`, whose lists read as the same sequences. -/
def StoresAgree {α : Type} (g : α → ListStore) (x x' : Except Stop α) : Prop :=
  (∃ e, x = .error e ∧ x' = .error e) ∨ ∃ a a', x = .ok a ∧ x' = .ok a' ∧ SameSeqs (g a) (g a')

theorem EndAlike.bind_agree {α : Type} {R : State → State → Prop} {g : α → ListStore} {x x' : Except Stop α}
    {f f' : α → Except Stop State} (hx : StoresAgree g x x')
    (hf : ∀ a a', SameSeqs (g a) (g a') → EndAlike R (f a) (f' a')) : EndAlike R (x >>= f) (x' >>= f') := by
  obtain ⟨e, rfl, rfl⟩ | ⟨a, a', rfl, rfl, hseq⟩ := hx
  · exact .stop e
  · exact hf a a' hseq

/-- There are two lists. -/
theorem eq_or_eq_of_ne {t s : ListId} (hts : t ≠ s) (q : ListId) : q = t ∨ q = s := by
  cases t <;> cases s <;> cases q <;> simp at hts ⊢

section
variable {n : Nat} {st st' : ListStore} (hn : n ≤ 65535) (h : StoreOk n st) (h' : StoreOk n st') (hseq : SameSeqs st st')
include hn h h' hseq

/-- The number of limbs of a list is a matter of its sequence. -/
theorem cnt_congr (l : ListId) : (st.desc l).cnt = (st'.desc l).cnt := by
  rw [h.cnt_eq hn, h'.cnt_eq hn, hseq l]

/-- So is the number of free nodes, in pools of the same size. -/
theorem free_congr : st.free = st'.free := by
  have hsize := h.free_add hn
  have hsize' := h'.free_add hn
  rw [hseq .l0, hseq .l1] at hsize
  omega

theorem chars_congr (l : ListId) : st.chars l = st'.chars l := by
  rw [ListStore.chars_ok hn h, ListStore.chars_ok hn h', hseq l]

theorem limbFrom_congr {l : ListId} {i : Nat} (hi : i < (st.desc l).cnt) :
    ListStore.limbFrom st.nodes i (st.desc l).head = ListStore.limbFrom st'.nodes i (st'.desc l).head := by
  have hi' : i < (st'.desc l).cnt := cnt_congr hn h h' hseq l ▸ hi
  rw [ListStore.limbFrom_ok hn h l (h.cnt_eq hn l ▸ hi), ListStore.limbFrom_ok hn h' l (h'.cnt_eq hn l ▸ hi'), hseq l]

theorem clear_agree (l : ListId) : StoresAgree id (st.clear l) (st'.clear l) := by
  obtain ⟨r, hr, _, hnil, hother, _⟩ := clear_spec hn h l
  obtain ⟨r', hr', _, hnil', hother', _⟩ := clear_spec hn h' l
  refine .inr ⟨r, r', hr, hr', fun q => ?_⟩
  by_cases hq : q = l
  · subst hq
    exact hnil.trans hnil'.symm
  · exact (hother q hq).trans ((hseq q).trans (hother' q hq).symm)

theorem append_agree (l : ListId) {v : DWord} (hv : v.toNat < limbBase) :
    StoresAgree Prod.snd (st.append l v) (st'.append l v) := by
  have hfree := free_congr hn h h' hseq
  obtain ⟨h0, he⟩ | ⟨hpos, p, r, hr, _, hsnoc, hother, _⟩ := append_seq hn h l v hv <;>
    obtain ⟨h0', he'⟩ | ⟨hpos', p', r', hr', _, hsnoc', hother', _⟩ := append_seq hn h' l v hv
  · exact .inl ⟨_, he, he'⟩
  · omega
  · omega
  refine .inr ⟨_, _, hr, hr', fun q => ?_⟩
  by_cases hq : q = l
  · subst hq
    exact hsnoc.trans ((congrArg (· ++ [v]) (hseq q)).trans hsnoc'.symm)
  · exact (hother q hq).trans ((hseq q).trans (hother' q hq).symm)

theorem accumulate_agree {t s : ListId} (hts : t ≠ s) : StoresAgree id (st.accumulate t s) (st'.accumulate t s) := by
  have hfree := free_congr hn h h' hseq
  have hneed : nodesNeeded (st.seq t) (st.seq s) = nodesNeeded (st'.seq t) (st'.seq s) := by rw [hseq t, hseq s]
  obtain ⟨hfew, he⟩ | ⟨hroom, r, hr, _, hsum, hsource⟩ := accumulate_spec hn h hts <;>
    obtain ⟨hfew', he'⟩ | ⟨hroom', r', hr', _, hsum', hsource'⟩ := accumulate_spec hn h' hts
  · exact .inl ⟨_, he, he'⟩
  · omega
  · omega
  refine .inr ⟨r, r', hr, hr', fun q => ?_⟩
  obtain rfl | rfl := eq_or_eq_of_ne hts q
  · exact hsum.trans ((congrArg₂ seqSum (hseq q) (hseq s)).trans hsum'.symm)
  · exact hsource.trans ((hseq q).trans hsource'.symm)

end

end Sys2Proof.Claims
end

section
/-! Then the commands: their bodies end alike in two states that differ in the pool's pointers alone. -/

namespace Sys2Proof.Claims

open Sys2Proof Sys2Proof.Machine

variable {s s' t t' : State}

/-- Two alike states are one state with two storages whose lists read as the same sequences. -/
theorem Alike.eq_setStore (h : Alike s s') : s' = s.setStore s'.store := by
  obtain ⟨hdregs, _, ⟨hobuf, holen, hocnt⟩, ⟨harg, hresult, hcause, hsticky⟩, ⟨hparams, hpending, hbus⟩⟩ := h
  cases s'
  simp only [State.setStore] at *
  simp only [*]

theorem alike_setStore {st : ListStore} (h : SameSeqs s.store st) : Alike s (s.setStore st) :=
  ⟨rfl, h, ⟨rfl, rfl, rfl⟩, ⟨rfl, rfl, rfl, rfl⟩, ⟨rfl, rfl, rfl⟩⟩

/-! What commands write keeps states alike. -/

theorem Alike.setDreg (h : Alike s s') (r : DReg) (ds : Digits) : Alike (s.setDreg r ds) (s'.setDreg r ds) :=
  ⟨congrArg (Vector.set · r ds) h.dregs, h.lists, h.output, h.control, h.model⟩

theorem Alike.setResult (h : Alike s s') (v : DWord) : Alike (s.setResult v) (s'.setResult v) :=
  have ⟨harg, _, hcause, hsticky⟩ := h.control
  ⟨h.dregs, h.lists, h.output, ⟨harg, rfl, hcause, hsticky⟩, h.model⟩

theorem Alike.setStore (h : Alike s s') {st st' : ListStore} (hseq : SameSeqs st st') :
    Alike (s.setStore st) (s'.setStore st') :=
  ⟨h.dregs, hseq, h.output, h.control, h.model⟩

theorem Alike.setOutput (h : Alike s s') (bytes : List Byte) (n : Nat) :
    Alike (s.setOutput bytes n) (s'.setOutput bytes n) := by
  obtain ⟨hobuf, _, _⟩ := h.output
  refine ⟨h.dregs, h.lists, ⟨?_, rfl, rfl⟩, h.control, h.model⟩
  rw [setOutput_obuf, setOutput_obuf, hobuf]

theorem Alike.clearSticky (h : Alike s s') : Alike s.clearSticky s'.clearSticky :=
  have ⟨harg, hresult, hcause, _⟩ := h.control
  ⟨h.dregs, h.lists, h.output, ⟨harg, hresult, hcause, rfl⟩, h.model⟩

theorem Alike.complete (h : Alike s s') : Alike s.complete s'.complete :=
  have ⟨harg, hresult, _, hsticky⟩ := h.control
  ⟨h.dregs, h.lists, h.output, ⟨harg, hresult, rfl, hsticky⟩, h.model⟩

theorem Alike.raise (h : Alike s s') (c : FaultCode) : Alike (s.raise c) (s'.raise c) :=
  have ⟨harg, hresult, _, hsticky⟩ := h.control
  ⟨h.dregs, h.lists, h.output, ⟨harg, hresult, rfl, congrArg (· ||| BitVec.ofNat 8 (2 ^ c.number)) hsticky⟩, h.model⟩

/-- Commands whose bodies end alike in alike states leave alike states, completed or faulted. -/
theorem Alike.settle (h : Alike s s') {r r' : Except Stop State} (hr : EndAlike Alike r r') (ht : s.settle r = .next t)
    (ht' : s'.settle r' = .next t') : Alike t t' := by
  cases hr with
  | ok hu =>
    cases ht
    cases ht'
    exact hu.complete
  | stop e =>
    cases e with
    | outcome c =>
      cases ht
      cases ht'
      exact h.raise c
    | broken f => cases ht

/-- The body of every command ends alike with either of two storages whose lists read as the same sequences. -/
theorem exec_setStore_endAlike (i : Instr) {st : ListStore} (hs : s.Inv) (hok : StoreOk s.params.nnode st)
    (hseq : SameSeqs s.store st) :
    ∃ r r', exec i s = s.settle r ∧ exec i (s.setStore st) = (s.setStore st).settle r' ∧ EndAlike Alike r r' := by
  have hn := hs.nnode_le
  have h : Alike s (s.setStore st) := alike_setStore hseq
  cases i with
  | nop => exact ⟨.ok _, .ok _, rfl, rfl, .ok h⟩
  | clrerr => exact ⟨.ok _, .ok _, rfl, rfl, .ok h.clearSticky⟩
  | dset rd imm => exact ⟨_, _, rfl, rfl, .bind_ok fun _ => h.setDreg rd _⟩
  | dpush rd imm => exact ⟨_, _, rfl, rfl, .bind fun _ => .bind fun _ => .bind_ok fun _ => h.setDreg rd _⟩
  | dfree rd => exact ⟨.ok _, .ok _, rfl, rfl, .ok (h.setDreg rd _)⟩
  | dmov rd ra => exact ⟨_, _, rfl, rfl, .bind_ok fun _ => h.setDreg rd _⟩
  | dlen ra => exact ⟨.ok _, .ok _, rfl, rfl, .ok (h.setResult _)⟩
  | drd ra => exact ⟨_, _, rfl, rfl, .bind fun _ => .bind_ok fun _ => h.setResult _⟩
  | dadd rd ra rb => exact ⟨_, _, rfl, rfl, .bind fun _ => .bind fun _ => .bind_ok fun _ => h.setDreg rd _⟩
  | dsub rd ra rb => exact ⟨_, _, rfl, rfl, .bind fun _ => .bind fun _ => .bind_ok fun _ => h.setDreg rd _⟩
  | dmul rd ra rb => exact ⟨_, _, rfl, rfl, .bind fun _ => .bind fun _ => .bind_ok fun _ => h.setDreg rd _⟩
  | fibd rd => exact ⟨_, _, rfl, rfl, .bind fun _ => .bind_ok fun _ => h.setDreg rd _⟩
  | denc ra => exact ⟨_, _, rfl, rfl, .bind_ok fun _ => h.setOutput _ _⟩
  | ord => exact ⟨_, _, rfl, rfl, .bind fun _ => .bind_ok fun _ => h.setResult _⟩
  | lclr lt =>
    exact ⟨_, _, rfl, rfl, .bind_agree (clear_agree hn hs.store hok hseq lt) fun _ _ ha => .ok (h.setStore ha)⟩
  | lapp lt =>
    refine ⟨_, _, rfl, rfl, .bind_congr rfl fun v hv => ?_⟩
    obtain ⟨hlt, rfl⟩ := limbValue_eq_ok.mp hv
    exact .bind_agree (append_agree hn hs.store hok hseq lt hlt) fun _ _ ha => .ok (h.setStore ha)
  | lacc lt ls =>
    refine ⟨_, _, rfl, rfl, .bind_congr rfl fun _ hd => ?_⟩
    exact .bind_agree (accumulate_agree hn hs.store hok hseq (distinctLists_eq_ok.mp hd)) fun _ _ ha =>
      .ok (h.setStore ha)
  | lcnt ls =>
    exact ⟨.ok _, .ok _, rfl, rfl, .ok (cnt_congr hn hs.store hok hseq ls ▸ h.setResult _)⟩
  | lrd ls =>
    refine ⟨_, _, rfl, rfl, .bind_congr (congrArg (elementIndex s) (cnt_congr hn hs.store hok hseq ls)) fun a ha => ?_⟩
    obtain ⟨hlt, rfl⟩ := elementIndex_eq_ok.mp ha
    exact .bind_congr (limbFrom_congr hn hs.store hok hseq hlt) fun _ _ => .ok (h.setResult _)
  | lfib =>
    refine ⟨_, _, rfl, rfl, .bind fun k => .bind_agree (g := id) ?_ fun _ _ ha => .ok ((h.setStore ha).setResult _)⟩
    exact (fib_agree hn hs.two_le_nnode hs.store hok k).imp_left fun he => ⟨_, he⟩
  | lstr ls =>
    exact ⟨_, _, rfl, rfl, .bind_congr (chars_congr hn hs.store hok hseq ls) fun _ _ => .ok (h.setOutput _ _)⟩

/-- Settles O27: alike states are one state with two storages, and in these every command ends alike. -/
theorem pointersAreUnobservable : Obligations.PointersAreUnobservable := by
  intro i s s' t t' hs hs' h ht ht'
  have hok : StoreOk s.params.nnode s'.store := by
    obtain ⟨hparams, _⟩ := h.model
    exact hparams ▸ hs'.store
  obtain ⟨r, r', hr, hr', halike⟩ := exec_setStore_endAlike i hs hok h.lists
  rw [← h.eq_setStore] at hr'
  exact h.settle halike (hr ▸ ht) (hr' ▸ ht')

end Sys2Proof.Claims
end

section
/-! Operand order, zero, and the difference (40_decimal_arith.md sections 3 to 6). -/

namespace Sys2Proof.Claims

open Sys2Proof Sys2Proof.Machine

section
variable {s : State} {f : Digits → Digits → Except Stop Digits} {rd ra rb : DReg}

theorem exec_dsub : exec (.dsub rd ra rb) s = s.settle (twoOperand (dsub s.params.dcap) rd ra rb s) := rfl

/-- Where the digit function does not depend on the order of its operands, the command does not: an EMPTY operand is the same
fault on either side. -/
theorem twoOperand_comm (hf : f (s.dreg ra) (s.dreg rb) = f (s.dreg rb) (s.dreg ra)) :
    s.settle (twoOperand f rd ra rb s) = s.settle (twoOperand f rd rb ra s) := by
  by_cases hra : s.dreg ra = []
  · rw [twoOperand_empty (.inl hra), twoOperand_empty (.inr hra)]
  by_cases hrb : s.dreg rb = []
  · rw [twoOperand_empty (.inr hrb), twoOperand_empty (.inl hrb)]
  rw [twoOperand_nonempty hra hrb, twoOperand_nonempty hrb hra, hf]

end

/-- Settles O36: `dadd` is symmetric. The sum with the one-digit 0 has the value of the other operand and, being below the
power of ten of its length, that length. -/
theorem daddCommutesWithIdentityZero : Obligations.DaddCommutesWithIdentityZero := by
  refine ⟨fun s rd ra rb => ?_, fun s rd ra rb ha hne hb hcap => ?_⟩
  · rw [exec_dadd, exec_dadd]
    exact twoOperand_comm (dadd_comm _ _ _)
  · have hpos : 0 < (s.dreg ra).length := List.length_pos_iff.mpr hne
    have hmax : max (s.dreg ra).length (s.dreg rb).length = (s.dreg ra).length := by
      rw [hb, List.length_singleton, max_eq_left hpos]
    have hzero : digitsVal (s.dreg ra) + digitsVal (s.dreg rb) = digitsVal (s.dreg ra) := by rw [hb]; rfl
    have hbok : DigitsOk (s.dreg rb) := by rw [hb]; exact digitsOk_one (Nat.zero_le 9)
    obtain ⟨_, _, hsum⟩ := daddAdds s rd ra rb ha hbok
    obtain ⟨c, hc, hval, hok, hlen⟩ := hsum hne (by simp [hb]) (by rw [hmax]; exact hcap)
    rw [hzero] at hval hlen
    rw [hmax, if_neg (Nat.not_le.mpr (digitsVal_lt ha)), Nat.add_zero] at hlen
    rw [hc, digits_ext hok ha hlen hval]

/-- On decimal digits `dmul` is symmetric: a product has one normalised sequence. -/
theorem dmul_comm (dcap : Nat) {a b : Digits} (ha : DigitsOk a) (hb : DigitsOk b) : dmul dcap a b = dmul dcap b a := by
  obtain ⟨hfew, he⟩ | ⟨hroom, c, hc, hval, hok, hnorm⟩ := dmul_spec (dcap := dcap) ha hb <;>
    obtain ⟨hfew', he'⟩ | ⟨hroom', c', hc', hval', hok', hnorm'⟩ := dmul_spec (dcap := dcap) hb ha
  · rw [he, he']
  · omega
  · omega
  · rw [hc, hc', hnorm.ext hnorm' hok hok' (by rw [hval, hval', Nat.mul_comm])]

/-- The normalised sequence of 0. -/
theorem normalised_eq_zero {ds : Digits} (h : Normalised ds) (hok : DigitsOk ds) (hval : digitsVal ds = 0) : ds = [0] :=
  h.ext (.inl rfl) hok (digitsOk_one (Nat.zero_le 9)) hval

/-- Settles O39: `dmul` is symmetric on decimal digits, and a product of value 0 is normalised. -/
theorem dmulCommutesWithZero : Obligations.DmulCommutesWithZero := by
  refine ⟨fun s rd ra rb ha hb => ?_, fun s rd ra rb ha hb hra hrb hzero hcap => ?_⟩
  · rw [exec_dmul, exec_dmul]
    exact twoOperand_comm (dmul_comm _ ha hb)
  · obtain ⟨_, _, hproduct⟩ := dmulMultiplies s rd ra rb ha hb
    obtain ⟨c, hc, hval, hok, hnorm⟩ := hproduct hra hrb hcap
    rw [hzero, Nat.mul_zero] at hval
    rw [hc, normalised_eq_zero hnorm hok hval]

/-- The difference modulo a power of ten above both numbers, in the two cases of R103. -/
theorem emod_sub_cases {c x y m : Nat} (hx : x < m) (hy : y < m) (h : (c : Int) = ((x : Int) - y) % m) :
    (y ≤ x → c = x - y) ∧ (x < y → c = m - (y - x)) := by
  refine ⟨fun hle => ?_, fun hlt => ?_⟩
  · rw [Int.emod_eq_of_lt (by omega) (by omega)] at h
    omega
  · rw [← Int.add_emod_right, Int.emod_eq_of_lt (by omega) (by omega)] at h
    omega

/-- Settles O37: `dsub` never stops on registers within `DCAP`, and both operands are below 10^lx. -/
theorem dsubSubtracts : Obligations.DsubSubtracts := by
  intro s rd ra rb hs a b x y
  obtain ⟨c, hc, hok, hlen, hval⟩ := dsub_spec (hs.digits ra) (hs.digits rb) (hs.capacity ra) (hs.capacity rb)
  obtain ⟨_, hle⟩ := minuend_subtrahend_length a b
  have hx : digitsVal x < 10 ^ x.length := by
    refine digitsVal_lt (ds := minuend a b) ?_
    unfold minuend
    split
    · exact hs.digits rb
    · exact hs.digits ra
  have hy : digitsVal y < 10 ^ x.length := by
    refine Nat.lt_of_lt_of_le (digitsVal_lt (ds := subtrahend a b) ?_) (Nat.pow_le_pow_right (by decide) hle)
    unfold subtrahend
    split
    · exact hs.digits ra
    · exact hs.digits rb
  rw [exec_dsub]
  refine ⟨twoOperand_empty, fun hra hrb => ⟨c, ?_, hok, hlen, hval, emod_sub_cases hx hy ?_⟩⟩
  · rw [twoOperand_nonempty hra hrb, hc, except_ok_bind, settle_setDreg]
  · rw [Nat.cast_pow]
    exact hval

end Sys2Proof.Claims
end

section
/-! The fast-doubling engine (41_fast_doubling.md) and the additive one (42_limb_list.md sections 2 and 3), each from what its
operation on digits or storages computes. -/

namespace Sys2Proof.Claims

open Sys2Proof Sys2Proof.Machine

variable {s : State}

/-- A negative index stops either engine before it computes anything (R176). -/
theorem settle_fibIndex_negative (f : Nat → Except Stop State) (h : s.arg.toInt < 0) :
    s.settle (fibIndex s >>= f) = .next (faulted s 2) := by
  rw [fibIndex_negative h, except_error_bind, settle_fault, FaultCode.number]

theorem exec_fibd_of_index (rd : DReg) {n : Nat} (h : s.arg.toInt = n) :
    exec (.fibd rd) s = s.settle (fibDigits s.params.dcap n >>= fun c => .ok (s.setDreg rd c)) := by
  rw [exec_fibd, fibdBody, fibIndex_ok h, except_ok_bind]
  rfl

theorem exec_fibd_ok (rd : DReg) {n : Nat} (h : s.arg.toInt = n) {c : Digits} (hc : fibDigits s.params.dcap n = .ok c) :
    exec (.fibd rd) s = .next { s with dregs := s.dregs.set rd c, cause := 0 } := by
  rw [exec_fibd_of_index rd h, hc, except_ok_bind, settle_setDreg]

theorem exec_fibd_fails (rd : DReg) {n : Nat} (h : s.arg.toInt = n)
    (hc : fibDigits s.params.dcap n = .error (.outcome .allocationFailure)) :
    exec (.fibd rd) s = .next (faulted s 1) := by
  rw [exec_fibd_of_index rd h, hc, except_error_bind, settle_fault, FaultCode.number]

/-- Settles O40: `FIBD` promises what `fibDigits` promises of F(n). -/
theorem fibdComputesFibonacci : Obligations.FibdComputesFibonacci := by
  refine fun s rd => ⟨settle_fibIndex_negative _, fun n hn => ?_⟩
  obtain ⟨he, hfew⟩ | ⟨c, hc, hok, hnorm, hval⟩ := fibDigits_spec s.params.dcap n
  · exact ⟨.inl (exec_fibd_fails rd hn he), fun m hm hcap => absurd (hfew m hm) (Nat.not_lt.mpr hcap)⟩
  · have hdone := exec_fibd_ok rd hn hc
    exact ⟨.inr ⟨c, hdone, hok, hnorm, hval⟩, fun _ _ _ => ⟨c, hdone, hok, hnorm, hval⟩⟩

/-- Settles O41: index 0 is answered before any digit is computed. -/
theorem fibdOfZeroIsZero : Obligations.FibdOfZeroIsZero :=
  fun _ rd h => exec_fibd_ok rd (n := 0) (by rw [h]; rfl) rfl

/-- Settles O49: the walk stops exactly where the sum needs more nodes than are free, and the sum's value and length are those of
the limb-wise addition. -/
theorem laccAccumulates : Obligations.LaccAccumulates := by
  intro s lt ls hs
  have hn := hs.nnode_le
  simp only [exec, execLacc]
  by_cases hl : lt = ls
  · refine ⟨fun _ => ?_, fun h => absurd hl h, fun h => absurd hl h⟩
    rw [distinctLists, if_pos hl, except_error_bind, settle_fault, FaultCode.number]
  rw [distinctLists, if_neg hl, except_ok_bind]
  obtain ⟨hfew, he⟩ | ⟨hroom, st, hst, hok, hsum, hsource⟩ := accumulate_spec hn hs.store hl
  · refine ⟨fun h => absurd h hl, fun _ _ => ?_, fun _ h => absurd hfew (Nat.not_lt.mpr h)⟩
    rw [he, except_error_bind, settle_fault, FaultCode.number]
  · obtain ⟨_, hval, hlen, _, _⟩ := seqSum_spec (hs.store.limbsOk hn lt) (hs.store.limbsOk hn ls)
    refine ⟨fun h => absurd h hl, fun _ h => absurd h (Nat.not_lt.mpr hroom), fun _ _ => ⟨st, ?_, hsum, ?_, ?_, hsource⟩⟩
    · rw [hst, except_ok_bind, except_pure, settle_setStore]
    · rw [ListStore.lval, hsum, hval]
      rfl
    · rw [hok.cnt_eq hn, hsum, hlen, hs.store.cnt_eq hn, hs.store.cnt_eq hn]

theorem exec_lfib_of_index {k : Nat} (h : s.arg.toInt = k) :
    exec .lfib s = s.settle (s.store.fib k >>= fun st => .ok ((s.setStore st).setResult (BitVec.ofNat 64 (k % 2)))) := by
  rw [exec_lfib, lfibBody, fibIndex_ok h, except_ok_bind]
  rfl

theorem exec_lfib_ok {k : Nat} (h : s.arg.toInt = k) {st : ListStore} (hst : s.store.fib k = .ok st) :
    exec .lfib s = .next { s with store := st, result := BitVec.ofNat 64 (k % 2), cause := 0 } := by
  rw [exec_lfib_of_index h, hst, except_ok_bind]
  rfl

theorem exec_lfib_fails {k : Nat} (h : s.arg.toInt = k) (he : s.store.fib k = .error (.outcome .allocationFailure)) :
    exec .lfib s = .next (faulted s 1) := by
  rw [exec_lfib_of_index h, he, except_error_bind, settle_fault, FaultCode.number]

/-- The list of parity(k) after `LFIB` (R138): F(k), in as few limbs as it takes. -/
theorem tight_at_parity {n k : Nat} {st : ListStore} (h : FibLists n (k - 1) st) :
    Tight (Nat.fib k) (st.seq (if k % 2 = 0 then .l0 else .l1)) := by
  cases k with
  | zero => exact h.older
  | succ j => exact h.newer

/-- The other list after `LFIB` (R138): F(k - 1), and F(1) for k = 0. -/
theorem tight_at_other {n k : Nat} {st : ListStore} (h : FibLists n (k - 1) st) :
    Tight (if k = 0 then 1 else Nat.fib (k - 1)) (st.seq (if k % 2 = 0 then .l1 else .l0)) := by
  cases k with
  | zero => exact h.newer
  | succ j =>
    have hother : (if (j + 1) % 2 = 0 then ListId.l1 else .l0) = ListStore.parityList j := by
      unfold ListStore.parityList
      by_cases hj : j % 2 = 0
      · rw [if_pos hj, if_neg (by omega)]
      · rw [if_neg hj, if_pos (by omega)]
    rw [hother]
    exact h.older

/-- Settles O52: `LFIB` promises what the additive engine promises of the two lists. -/
theorem lfibComputesFibonacci : Obligations.LfibComputesFibonacci := by
  intro s hs
  refine ⟨settle_fibIndex_negative _, fun k hk => ?_⟩
  obtain ⟨hfew, he⟩ | ⟨hroom, st, hst, hlists⟩ := fib_spec hs.nnode_le hs.two_le_nnode hs.store k
  · exact ⟨fun _ => exec_lfib_fails hk he, fun h => absurd hfew (Nat.not_lt.mpr h)⟩
  · have hparity := tight_at_parity hlists
    have hother := tight_at_other hlists
    exact ⟨fun h => absurd h (Nat.not_lt.mpr hroom),
      fun _ => ⟨st, exec_lfib_ok hk hst, hparity.val, hother.val, hparity.len⟩⟩

end Sys2Proof.Claims
end

section
/-! Decoding what `DENC` left (43_encoder_system.md section 1, the contract of R154). -/

namespace Sys2Proof.Claims

open Sys2Proof Sys2Proof.Machine

theorem low_nibble (hi lo : Digit) : (hi ++ lo : Byte).extractLsb' 0 4 = lo := by
  rw [BitVec.extractLsb'_append_eq_of_add_le (by omega)]
  simp

theorem high_nibble (hi lo : Digit) : (hi ++ lo : Byte).extractLsb' 4 4 = hi := by
  rw [BitVec.extractLsb'_append_eq_of_le (by omega)]
  simp

/-- From the packed bytes of a sequence the contract reads its digits: digit k from byte k div 2, the low nibble for an even
k. -/
theorem decodedDigit_pack {m : Memory} {ds : Digits} (hm : ∀ a, m.read a = (packDigits ds)[a]?) {k : Nat}
    (hk : k < ds.length) : decodedDigit m k = some ds[k] := by
  simp only [decodedDigit, hm, packDigits_get ds (k / 2) (by omega)]
  rcases Nat.mod_two_eq_zero_or_one k with h | h
  · rw [if_pos h, low_nibble, show 2 * (k / 2) = k by omega, List.getD_eq_getElem ds 0 hk]
  · rw [if_neg (by rw [h]; decide), high_nibble, show 2 * (k / 2) + 1 = k by omega, List.getD_eq_getElem ds 0 hk]

/-- Settles O45: the bytes of the output are the packed digits, and `OCNT` is their number. -/
theorem decodingRecoversEncodedDigits : Obligations.DecodingRecoversEncodedDigits := by
  intro s t ra hs hra h
  cases (exec_denc_nonempty hra).symm.trans h
  rw [complete_ocnt, setOutput_ocnt, toNat_ofNat_of_le_dcap hs (hs.capacity ra)]
  refine List.ext_getElem (by simp) fun k hk _ => ?_
  rw [List.getElem_map, List.getElem_map, List.getElem_range]
  exact decodedDigit_pack (setOutput_read s _ (s.dreg ra).length) (by simpa using hk)

end Sys2Proof.Claims
end

section
/-! The largest indices with the default parameters (00_scope.md section 4, R9). Where the engines stop is a matter of how
long F(n div 2 + 1) is in digits, and F(k) and F(k - 1) in limbs. -/

namespace Sys2Proof.Claims

open Sys2Proof Sys2Proof.Machine

/-- The index of the pair the engine carries, before and after the bit of position i (R115). -/
theorem index_after_bit (n i : Nat) : 2 * (n / 2 ^ (i + 1)) + (n.testBit i).toNat = n / 2 ^ i := by
  rw [Nat.toNat_testBit, pow_succ, ← Nat.div_div_eq_div_mul]
  exact Nat.div_add_mod (n / 2 ^ i) 2

theorem room_of_dmul_ok {dcap : Nat} {a b c : Digits} (h : dmul dcap a b = .ok c) : a.length + b.length + 1 ≤ dcap := by
  rw [dmul] at h
  obtain ⟨_, hroom, _⟩ := bind_eq_ok.mp h
  exact allocCheck_eq_ok.mp hroom

/-- An iteration squares the larger number of the pair, and stops where there is no room for that (R87, R113). -/
theorem fibIteration_fails {dcap k : Nat} {a b : Digits} (h : FibPair k a b) (bit : Bool) (hcap : dcap < 2 * b.length + 1) :
    fibIteration dcap bit a b = .error (.outcome .allocationFailure) := by
  obtain ⟨he, _⟩ | ⟨c, d, hok, _⟩ := fibIteration_spec (dcap := dcap) h bit
  · exact he
  · rw [fibIteration] at hok
    simp only [bind_eq_ok] at hok
    obtain ⟨_, _, _, _, _, _, _, _, _, hsquare, _⟩ := hok
    have := room_of_dmul_ok hsquare
    omega

/-- The last iteration is on F(n div 2) and F(n div 2 + 1). The scan stops there, if not before, where twice the digits of the
latter and one more do not fit. -/
theorem fibScan_fails {dcap n m : Nat} (hm : 10 ^ m ≤ Nat.fib (n / 2 + 1)) (hcap : dcap < 2 * m + 3) (i : Nat) :
    ∀ a b, FibPair (n / 2 ^ (i + 1)) a b → fibScan dcap n (i + 1) a b = .error (.outcome .allocationFailure) := by
  induction i with
  | zero =>
    intro a b h
    have hlen : m < b.length := by
      refine (Nat.pow_lt_pow_iff_right (by decide : 1 < 10)).mp (Nat.lt_of_le_of_lt hm ?_)
      have hb := digitsVal_lt h.bOk
      rwa [h.bVal, Nat.zero_add, pow_one] at hb
    rw [fibScan, fibIteration_fails h _ (by omega), except_error_bind]
  | succ i ih =>
    intro a b h
    rw [fibScan]
    obtain ⟨he, _⟩ | ⟨c, d, hok, hpair⟩ := fibIteration_spec (dcap := dcap) h (n.testBit (i + 1))
    · rw [he, except_error_bind]
    · rw [index_after_bit] at hpair
      rw [hok, except_ok_bind]
      exact ih c d hpair

theorem fibDigits_fails {dcap n m : Nat} (hn : n ≠ 0) (hm : 10 ^ m ≤ Nat.fib (n / 2 + 1)) (hcap : dcap < 2 * m + 3) :
    fibDigits dcap n = .error (.outcome .allocationFailure) := by
  have hstart : n / 2 ^ (Nat.log2 n + 1) = 0 := Nat.div_eq_of_lt Nat.lt_log2_self
  rw [fibDigits, if_neg hn]
  exact fibScan_fails hm hcap (Nat.log2 n) [0] [1] (hstart ▸ FibPair.start)

theorem lt_limbCount {x m : Nat} (h : limbBase ^ m ≤ x) : m < limbCount x :=
  (Nat.pow_lt_pow_iff_right (by decide : 1 < limbBase)).mp (Nat.lt_of_le_of_lt h (lt_pow_limbCount x))

/-! The sizes of four Fibonacci numbers: 255 and 256 digits, 32 and 33 limbs. -/

theorem fib_1221_lt : Nat.fib 1221 < 10 ^ 255 := by norm_num
theorem le_fib_1222 : 10 ^ 255 ≤ Nat.fib 1222 := by norm_num
theorem fib_2757_bounds : limbBase ^ 31 ≤ Nat.fib 2757 ∧ Nat.fib 2757 < limbBase ^ 32 := by norm_num [limbBase]
theorem le_fib_2758 : limbBase ^ 32 ≤ Nat.fib 2758 := by norm_num [limbBase]

theorem nodesForFib_2757_le : nodesForFib 2757 ≤ 64 := by
  obtain ⟨_, hlt⟩ := fib_2757_bounds
  have hnewer : limbCount (Nat.fib 2757) ≤ 32 := limbCount_le (by decide) hlt
  have holder : limbCount (Nat.fib (2757 - 1)) ≤ limbCount (Nat.fib 2757) := limbCount_mono (Nat.fib_mono (by decide))
  rw [nodesForFib, if_neg (by decide)]
  omega

theorem lt_nodesForFib_2758 : 64 < nodesForFib 2758 := by
  obtain ⟨hle, _⟩ := fib_2757_bounds
  have holder : 31 < limbCount (Nat.fib (2758 - 1)) := lt_limbCount hle
  have hnewer : 32 < limbCount (Nat.fib 2758) := lt_limbCount le_fib_2758
  rw [nodesForFib, if_neg (by decide)]
  omega

/-- Settles O54: F(1221) has 255 digits, and twice that and 2 is `DCAP`; F(1222) has one more. F(2757) and F(2756) take all 64
nodes at most, F(2758) and F(2757) take 65. -/
theorem largestIndicesWithTheDefaults : Obligations.LargestIndicesWithTheDefaults := by
  intro s hs hp
  have hdcap : s.params.dcap = 512 := by rw [hp]; rfl
  have hnnode : s.params.nnode = 64 := by rw [hp]; rfl
  obtain ⟨_, hlfib⟩ := lfibComputesFibonacci s hs
  refine ⟨fun n rd hn => ⟨fun hle => ?_, ?_⟩, fun k hk => ⟨fun hle => ?_, ?_⟩⟩
  · obtain ⟨_, hfibd⟩ := fibdComputesFibonacci s rd
    obtain ⟨_, hfits⟩ := hfibd n hn
    have hlt : Nat.fib (n / 2 + 1) < 10 ^ 255 := Nat.lt_of_le_of_lt (Nat.fib_mono (by omega)) fib_1221_lt
    obtain ⟨c, hc, _⟩ := hfits 255 hlt (by omega)
    exact ⟨c, hc⟩
  · rintro rfl
    exact exec_fibd_fails rd hn (fibDigits_fails (by decide) le_fib_1222 (by omega))
  · obtain ⟨_, hfits⟩ := hlfib k hk
    obtain ⟨st, hst, _⟩ := hfits (by rw [hnnode]; exact (nodesForFib_mono hle).trans nodesForFib_2757_le)
    exact ⟨st, hst⟩
  · rintro rfl
    obtain ⟨hfew, _⟩ := hlfib 2758 hk
    exact hfew (by rw [hnnode]; exact lt_nodesForFib_2758)

end Sys2Proof.Claims
end

section
/-! The two engines agree (42_limb_list.md section 4, R148). The text of a list is the numeral of some digit sequence of the
same value, and a numeral without its leading zeros is that of the normalised sequence, of which a number has one. -/

namespace Sys2Proof.Claims

open Sys2Proof Sys2Proof.Machine

/-- The character of a digit (R56). -/
def digitChar (d : Digit) : Byte := 0x30 + d.setWidth 8

theorem numeral_cons (d : Digit) (ds : Digits) : numeral (d :: ds) = numeral ds ++ [digitChar d] := by
  simp [numeral, digitChar]

theorem numeral_snoc (ds : Digits) (d : Digit) : numeral (ds ++ [d]) = digitChar d :: numeral ds := by
  simp [numeral, digitChar]

theorem digitChar_toNat (d : Digit) : (digitChar d).toNat = 0x30 + d.toNat := by
  revert d; decide

theorem digitChar_eq_zero {d : Digit} : digitChar d = 0x30 ↔ d = 0 := by
  revert d; decide

/-- The value of a numeral is that of its digits (R12, R147). -/
theorem charsVal_numeral (ds : Digits) : charsVal 0 (numeral ds) = digitsVal ds := by
  induction ds with
  | nil => rfl
  | cons d ds ih =>
    rw [numeral_cons, charsVal_append, ih, digitsVal_cons]
    simp only [charsVal, List.foldl_cons, List.foldl_nil, digitChar_toNat]
    omega

/-- A text of digit characters is the numeral of a sequence of decimal digits. -/
theorem exists_numeral {cs : List Byte} (h : ∀ c ∈ cs, ∃ d : Digit, d.toNat ≤ 9 ∧ c = digitChar d) :
    ∃ ds, DigitsOk ds ∧ cs = numeral ds := by
  induction cs with
  | nil => exact ⟨[], digitsOk_nil, rfl⟩
  | cons c cs ih =>
    obtain ⟨d, hd, rfl⟩ := h c (by simp)
    obtain ⟨ds, hds, rfl⟩ := ih fun e he => h e (by simp [he])
    exact ⟨ds ++ [d], digitsOk_append hds (digitsOk_one hd), (numeral_snoc ds d).symm⟩

theorem limbChars_digit {v : DWord} {c : Byte} (h : c ∈ limbChars v) : ∃ d : Digit, d.toNat ≤ 9 ∧ c = digitChar d := by
  obtain ⟨j, _, rfl⟩ := List.mem_map.mp h
  have hlt : v.toNat / 10 ^ j % 10 < 10 := Nat.mod_lt _ (by decide)
  have hd : (BitVec.ofNat 4 (v.toNat / 10 ^ j % 10)).toNat = v.toNat / 10 ^ j % 10 := toNat_digit (by omega)
  refine ⟨BitVec.ofNat 4 (v.toNat / 10 ^ j % 10), by omega, BitVec.eq_of_toNat_eq ?_⟩
  rw [digitChar_toNat, hd, BitVec.toNat_ofNat]
  omega

/-- The text of a list is the numeral of decimal digits with the value of the list (R145, R147). -/
theorem text_eq_numeral {vs : List DWord} (h : LimbsOk vs) :
    ∃ ds, DigitsOk ds ∧ vs.reverse.flatMap limbChars = numeral ds ∧ digitsVal ds = limbsVal vs := by
  obtain ⟨ds, hds, htext⟩ := exists_numeral (cs := vs.reverse.flatMap limbChars) fun c hc => by
    obtain ⟨v, _, hv⟩ := List.mem_flatMap.mp hc
    exact limbChars_digit hv
  exact ⟨ds, hds, htext, by rw [← charsVal_numeral, ← htext, charsVal_chars vs h]⟩

theorem stripped_cons {c : Byte} {cs : List Byte} (h : cs ≠ []) :
    stripped (c :: cs) = if c = 0x30 then stripped cs else c :: cs := by
  cases cs with
  | nil => exact absurd rfl h
  | cons d cs => rfl

theorem numeral_ne_nil {ds : Digits} (h : ds ≠ []) : numeral ds ≠ [] := by
  simpa [numeral] using h

/-- A numeral without its leading zeros, one character kept, is the numeral of the normalised sequence of the same value, by
induction from the most significant digit on. -/
theorem stripped_numeral (ds : Digits) (hne : ds ≠ []) (h : DigitsOk ds) :
    ∃ es, stripped (numeral ds) = numeral es ∧ DigitsOk es ∧ Normalised es ∧ digitsVal es = digitsVal ds := by
  induction ds using List.reverseRecOn with
  | nil => exact absurd rfl hne
  | append_singleton ds d ih =>
    have hds : DigitsOk ds := fun e he => h e (by simp [he])
    by_cases hnil : ds = []
    · subst hnil
      refine ⟨[d], rfl, h, ?_, rfl⟩
      exact normalised_of_pow_le h (by simp) (.inl rfl)
    rw [numeral_snoc, stripped_cons (numeral_ne_nil hnil)]
    by_cases hd : d = 0
    · subst hd
      obtain ⟨es, hes, hok, hnorm, hval⟩ := ih hnil hds
      refine ⟨es, by rw [if_pos (digitChar_eq_zero.mpr rfl), hes], hok, hnorm, ?_⟩
      simp [hval, digitsVal_append_digit]
    · refine ⟨ds ++ [d], ?_, h, .inr ⟨d, by simp, hd⟩, rfl⟩
      rw [if_neg (mt digitChar_eq_zero.mp hd), numeral_snoc]

/-- The text of a list that is not empty, without its leading zeros, is the numeral of the list's value (R148). -/
theorem stripped_text {vs : List DWord} {ds : Digits} (hvs : LimbsOk vs) (hpos : 0 < vs.length) (hds : DigitsOk ds)
    (hnorm : Normalised ds) (hval : digitsVal ds = limbsVal vs) :
    stripped (vs.reverse.flatMap limbChars) = numeral ds := by
  obtain ⟨xs, hxs, htext, hxval⟩ := text_eq_numeral hvs
  have hne : xs ≠ [] := by
    rintro rfl
    have hlen : (vs.reverse.flatMap limbChars).length = 0 := congrArg List.length htext
    rw [flatMap_limbChars_length, List.length_reverse] at hlen
    omega
  obtain ⟨es, hes, hok, hesnorm, hesval⟩ := stripped_numeral xs hne hxs
  rw [htext, hes, hesnorm.ext hnorm hok hds (by rw [hesval, hxval, hval])]

/-- The bytes below `OLEN` after a command that writes an output are the bytes written (R145, R152). -/
theorem outputBytes_setOutput (s : State) {bytes : List Byte} (n : Nat) (h : bytes.length < 2 ^ 32) :
    outputBytes (s.setOutput bytes n).complete = bytes.map some := by
  rw [outputBytes, complete_olen, complete_obuf, setOutput_olen, BitVec.toNat_ofNat, Nat.mod_eq_of_lt h]
  refine List.ext_getElem (by simp) fun k _ hk => ?_
  have hlt : k < bytes.length := by simpa using hk
  rw [List.getElem_map, List.getElem_map, List.getElem_range, setOutput_read, List.getElem?_eq_getElem hlt]

theorem outputBytes_lstr {s t : State} (hs : s.Inv) {l : ListId} (h : exec (.lstr l) s = .next t) :
    outputBytes t = ((s.store.seq l).reverse.flatMap limbChars).map some := by
  simp only [exec, execLstr] at h
  rw [ListStore.chars_ok hs.nnode_le hs.store l, except_ok_bind, except_pure, settle_ok] at h
  cases h
  exact outputBytes_setOutput s _ (Nat.lt_of_le_of_lt (text_length_le hs l) (Params.ocap_lt hs.params))

/-- What a completed `FIBD` leaves (R110). -/
theorem fibd_digits {s t : State} {rd : DReg} {n : Nat} (hn : s.arg.toInt = n) (h : exec (.fibd rd) s = .next t)
    (hc : t.cause = 0) : DigitsOk (t.dreg rd) ∧ Normalised (t.dreg rd) ∧ digitsVal (t.dreg rd) = Nat.fib n := by
  obtain ⟨u, ⟨k, c, hk, hfib, rfl⟩, rfl⟩ := exec_completes h hc
  obtain rfl : k = n := by omega
  rw [complete_dreg, setDreg_dreg_same]
  obtain ⟨he, _⟩ | ⟨c', hc', hspec⟩ := fibDigits_spec s.params.dcap k
  · cases hfib.symm.trans he
  · cases hfib.symm.trans hc'
    exact hspec

/-- What a completed `LFIB` leaves in the list of the index's parity (R137, R138). -/
theorem lfib_tight {s t : State} (hs : s.Inv) {n : Nat} (hn : s.arg.toInt = n) (h : exec .lfib s = .next t)
    (hc : t.cause = 0) : Tight (Nat.fib n) (t.store.seq (if n % 2 = 0 then .l0 else .l1)) := by
  obtain ⟨u, ⟨k, st, hk, hfib, rfl⟩, rfl⟩ := exec_completes h hc
  obtain rfl : k = n := by omega
  exact tight_at_parity (promise_of_ok (fib_spec hs.nnode_le hs.two_le_nnode hs.store k) hfib)

/-- Settles O55: the output is the text of a list that is not empty and has the value F(n), and `FIBD` leaves the normalised
digits of F(n). -/
theorem enginesAgree : Obligations.EnginesAgree := by
  intro s t u v rd n hs hn hfibd ht hlfib hu hlstr
  obtain ⟨hok, hnorm, hval⟩ := fibd_digits hn hfibd ht
  have htight := lfib_tight hs hn hlfib hu
  refine ⟨_, outputBytes_lstr (exec_inv hs hlfib) hlstr, stripped_text htight.ok ?_ hok hnorm ?_⟩
  · rw [htight.len]
    exact limbCount_pos _
  · rw [hval, htight.val]

end Sys2Proof.Claims
end
